-- ==== Sys2Proof/Word.lean ====
section
/-!
DEFINITION. The machine's word types (00_scope.md R6, R12; 30_encoding.md R80): 8-bit data, 16-bit
memory and port addresses, 32-bit transaction words. Unsigned throughout: "the block performs no
signed arithmetic" (R12).
-/

namespace Sys2Proof

/-- `DATA_WIDTH` = 8 bits (R6). -/
abbrev Byte := BitVec 8

/-- `ADDR_WIDTH` = `PORT_ADDR_WIDTH` = 16 bits (R6). -/
abbrev Addr := BitVec 16

/-- One transaction word, 32 bits, bit 31 the most significant (R80). -/
abbrev TransWord := BitVec 32

end Sys2Proof
end

