-- ==== Sys2Proof/Syntax.lean ====
section
/-!
DEFINITION. The transactions, one constructor per row of spec/opcode_table.json (30_encoding.md R97:
22 mnemonics in 23 rows, `LOAD_MEM` having one row per region pattern). An operand field has exactly
the width its row leaves free, so the region and claim bits of R84 and R85 cannot disagree with the
constructor; the one further check, a key identifier below 40, is WellFormed.lean's.
-/

namespace Sys2Proof

inductive Instr
  /-- TICK, host: one base clock unit (42_raster.md R140) -/
  | tick
  /-- MRD_ROM, processor: offset `A[13:0]`, `A[15:14] = 00` (41_bus.md R112) -/
  | mrdRom (o : BitVec 14)
  /-- MRD_VRAM, processor: offset `A[13:0]`, `A[15:14] = 01` (R113) -/
  | mrdVram (o : BitVec 14)
  /-- MRD_RAM, processor: offset `A[14:0]`, `A[15] = 1` (R114) -/
  | mrdRam (o : BitVec 15)
  /-- MWR_ROM, processor (R115) -/
  | mwrRom (o : BitVec 14) (v : Byte)
  /-- MWR_VRAM, processor (R116) -/
  | mwrVram (o : BitVec 14) (v : Byte)
  /-- MWR_RAM, processor (R117) -/
  | mwrRam (o : BitVec 15) (v : Byte)
  /-- IORD_ULA, processor: port bits `A[15:1]`, `A[0] = 0` (R120) -/
  | iordUla (p : BitVec 15)
  /-- IORD_OTHER, processor: port bits `A[15:1]`, `A[0] = 1` (R121) -/
  | iordOther (p : BitVec 15)
  /-- IOWR_ULA, processor: port bits `A[15:1]`, `A[0] = 0` (R122) -/
  | iowrUla (p : BitVec 15) (v : Byte)
  /-- IOWR_OTHER, processor: port bits `A[15:1]`, `A[0] = 1` (R123) -/
  | iowrOther (p : BitVec 15) (v : Byte)
  /-- PEEK, host (R118) -/
  | peek (a : Addr)
  /-- POKE, host (R119) -/
  | poke (a : Addr) (v : Byte)
  /-- KEYDN, host: key identifier (43_ula_ports.md R190) -/
  | keydn (k : BitVec 6)
  /-- KEYUP, host: key identifier (R191) -/
  | keyup (k : BitVec 6)
  /-- PWRON, host (41_bus.md R133) -/
  | pwron
  /-- PWROFF, host (R134) -/
  | pwroff
  /-- LOAD_ROM, host: offset `A[13:0]`, `A[15:14] = 00` (R130) -/
  | loadRom (o : BitVec 14) (v : Byte)
  /-- LOAD_MEM, first row, host: `A[15:14] = 01` (R131) -/
  | loadMemVram (o : BitVec 14) (v : Byte)
  /-- LOAD_MEM, second row, host: `A[15] = 1` (R131) -/
  | loadMemRam (o : BitVec 15) (v : Byte)
  /-- SETBORDER, host: border colour (43_ula_ports.md R189) -/
  | setborder (c : BitVec 3)
  /-- AUDLVL, controller or harness: new level and frame-relative timestamp (44_audio.md R204) -/
  | audlvl (lvl : Bool) (ts : BitVec 24)
  /-- AUDEND, controller or harness (R205) -/
  | audend
deriving DecidableEq, Repr, Inhabited

end Sys2Proof
end

