-- ==== Sys2Proof/WellFormed.lean ====
section
/-!
DEFINITION. Well-formed transactions: "KEYDN or KEYUP with a key identifier ≥ 40" is illegal
(30_encoding.md R88). Every other must-be-zero and selecting bit (R84, R85, R87) is fixed by the
constructor, so this is the only check.
-/

namespace Sys2Proof

/-- 40 keys: `HALF_ROWS · KEYS_PER_HALF_ROW` (00_scope.md R6; 30_encoding.md R95). -/
def keyCount : Nat := 40

/-- The transaction has an encoding that 30_encoding.md R88 does not call illegal. -/
def Instr.wellFormed : Instr → Bool
  | .keydn k => k.toNat < keyCount
  | .keyup k => k.toNat < keyCount
  | .tick => true
  | .mrdRom _ => true
  | .mrdVram _ => true
  | .mrdRam _ => true
  | .mwrRom _ _ => true
  | .mwrVram _ _ => true
  | .mwrRam _ _ => true
  | .iordUla _ => true
  | .iordOther _ => true
  | .iowrUla _ _ => true
  | .iowrOther _ _ => true
  | .peek _ => true
  | .poke _ _ => true
  | .pwron => true
  | .pwroff => true
  | .loadRom _ _ => true
  | .loadMemVram _ _ => true
  | .loadMemRam _ _ => true
  | .setborder _ => true
  | .audlvl _ _ => true
  | .audend => true

end Sys2Proof
end

