-- ==== Sys2Proof/Decode.lean ====
section
/-!
DEFINITION. Decoding, total on every 32-bit word and rejecting by name, and encoding
(30_encoding.md R80 to R89, R97). A transaction word stands in no memory of the block: it is what an
agent puts on the block's interface (R82), so a word is decoded as a whole (log entry 4).
-/

namespace Sys2Proof

/-- Why a word is illegal (30_encoding.md R88); each is refused with `E_BAD_TRANSACTION`. -/
inductive DecodeError
  /-- `KIND = 0xF` -/
  | reservedKind
  /-- `SUB` not zero (R87) -/
  | subNotZero
  /-- `ADDR` not zero where it must be (R87) -/
  | addrNotZero
  /-- `DATA`, or the part of it that must be zero, not zero (R87) -/
  | dataNotZero
  /-- a key identifier of 40 or more -/
  | keyOutOfRange
deriving DecidableEq, Repr

/-! ### Fields of the word (R81) -/

/-- `KIND`, bits 31..28. -/
def kindOf (w : TransWord) : BitVec 4 := w.extractLsb' 28 4
/-- `SUB` of format T, bits 27..24. -/
def subOf (w : TransWord) : BitVec 4 := w.extractLsb' 24 4
/-- `ADDR`, bits 23..8. -/
def addrOf (w : TransWord) : Addr := w.extractLsb' 8 16
/-- `DATA`, bits 7..0. -/
def dataOf (w : TransWord) : Byte := w.extractLsb' 0 8
/-- `SUB` of format A, bits 27..25. -/
def subAOf (w : TransWord) : BitVec 3 := w.extractLsb' 25 3
/-- `LVL` of format A, bit 24. -/
def lvlOf (w : TransWord) : Bool := w.getLsbD 24
/-- `TS` of format A, bits 23..0. -/
def tsOf (w : TransWord) : BitVec 24 := w.extractLsb' 0 24

/-! ### Region and claim selection (R84, R85) -/

/-- By `A[15:14]`: `00` → ROM, offset `A[13:0]`; `01` → VRAM, offset `A[13:0]`; `10` or `11` → RAM,
offset `A[14:0]` (R84). -/
def byRegion {α : Type} (a : Addr) (rom vram : BitVec 14 → α) (ram : BitVec 15 → α) : α :=
  if a.getLsbD 15 then ram (a.extractLsb' 0 15)
  else if a.getLsbD 14 then vram (a.extractLsb' 0 14)
  else rom (a.extractLsb' 0 14)

/-- By `A[0]`: 0 → the controller, 1 → unclaimed (R85). -/
def byClaim {α : Type} (p : Addr) (ula other : BitVec 15 → α) : α :=
  if p.getLsbD 0 then other (p.extractLsb' 1 15) else ula (p.extractLsb' 1 15)

/-! ### The decoder -/

/-- A must-be-zero field (R87). -/
def needZero {n : Nat} (x : BitVec n) (e : DecodeError) (r : Except DecodeError Instr) :
    Except DecodeError Instr :=
  if x = 0#n then r else .error e

/-- Key identifiers fit in 6 bits (R87) and lie in 0..39 (R95). -/
def decodeKey (w : TransWord) (mk : BitVec 6 → Instr) : Except DecodeError Instr :=
  needZero (addrOf w) .addrNotZero <|
    needZero ((dataOf w).extractLsb' 6 2) .dataNotZero <|
      if ((dataOf w).extractLsb' 0 6).toNat < keyCount then .ok (mk ((dataOf w).extractLsb' 0 6))
      else .error .keyOutOfRange

/-- Format T by `KIND` (R83), after `SUB` has been found zero. -/
def decodeT (w : TransWord) : Except DecodeError Instr :=
  let bare (i : Instr) := needZero (addrOf w) .addrNotZero (needZero (dataOf w) .dataNotZero (.ok i))
  match (kindOf w).toNat with
  | 0x0 => bare .tick
  | 0x1 => needZero (dataOf w) .dataNotZero (.ok (byRegion (addrOf w) .mrdRom .mrdVram .mrdRam))
  | 0x2 => .ok (byRegion (addrOf w) (Instr.mwrRom · (dataOf w)) (Instr.mwrVram · (dataOf w))
      (Instr.mwrRam · (dataOf w)))
  | 0x3 => needZero (dataOf w) .dataNotZero (.ok (byClaim (addrOf w) .iordUla .iordOther))
  | 0x4 => .ok (byClaim (addrOf w) (Instr.iowrUla · (dataOf w)) (Instr.iowrOther · (dataOf w)))
  | 0x5 => needZero (dataOf w) .dataNotZero (.ok (.peek (addrOf w)))
  | 0x6 => .ok (.poke (addrOf w) (dataOf w))
  | 0x7 => decodeKey w .keydn
  | 0x8 => decodeKey w .keyup
  | 0x9 => bare .pwron
  | 0xA => bare .pwroff
  | 0xB => .ok (byRegion (addrOf w) (Instr.loadRom · (dataOf w)) (Instr.loadMemVram · (dataOf w))
      (Instr.loadMemRam · (dataOf w)))
  | 0xC => needZero (addrOf w) .addrNotZero <|
      needZero ((dataOf w).extractLsb' 3 5) .dataNotZero (.ok (.setborder ((dataOf w).extractLsb' 0 3)))
  | 0xE => bare .audend
  | _ => .error .reservedKind

/-- The decoder: format A for `KIND = 0xD`, format T otherwise (R81, R83, R88). -/
def decode (w : TransWord) : Except DecodeError Instr :=
  if kindOf w = 0xD#4 then
    needZero (subAOf w) .subNotZero (.ok (.audlvl (lvlOf w) (tsOf w)))
  else needZero (subOf w) .subNotZero (decodeT w)

/-! ### The encoder, from the pattern strings of R97 -/

/-- Format T with `SUB = 0` (R81). -/
def wordT (kind : BitVec 4) (a : Addr) (d : Byte) : TransWord := kind ++ 0#4 ++ a ++ d

/-- The ROM address with offset `o` (R84). -/
def romAddr (o : BitVec 14) : Addr := 0b00#2 ++ o
/-- The VRAM address with offset `o` (R84). -/
def vramAddr (o : BitVec 14) : Addr := 0b01#2 ++ o
/-- The RAM address with offset `o` (R84). -/
def ramAddr (o : BitVec 15) : Addr := 0b1#1 ++ o
/-- The claimed port with bits 15..1 `p` (R85). -/
def ulaPort (p : BitVec 15) : Addr := p ++ 0#1
/-- The unclaimed port with bits 15..1 `p` (R85). -/
def otherPort (p : BitVec 15) : Addr := p ++ 1#1

def encode : Instr → TransWord
  | .tick => wordT 0x0#4 0#16 0#8
  | .mrdRom o => wordT 0x1#4 (romAddr o) 0#8
  | .mrdVram o => wordT 0x1#4 (vramAddr o) 0#8
  | .mrdRam o => wordT 0x1#4 (ramAddr o) 0#8
  | .mwrRom o v => wordT 0x2#4 (romAddr o) v
  | .mwrVram o v => wordT 0x2#4 (vramAddr o) v
  | .mwrRam o v => wordT 0x2#4 (ramAddr o) v
  | .iordUla p => wordT 0x3#4 (ulaPort p) 0#8
  | .iordOther p => wordT 0x3#4 (otherPort p) 0#8
  | .iowrUla p v => wordT 0x4#4 (ulaPort p) v
  | .iowrOther p v => wordT 0x4#4 (otherPort p) v
  | .peek a => wordT 0x5#4 a 0#8
  | .poke a v => wordT 0x6#4 a v
  | .keydn k => wordT 0x7#4 0#16 (0#2 ++ k)
  | .keyup k => wordT 0x8#4 0#16 (0#2 ++ k)
  | .pwron => wordT 0x9#4 0#16 0#8
  | .pwroff => wordT 0xA#4 0#16 0#8
  | .loadRom o v => wordT 0xB#4 (romAddr o) v
  | .loadMemVram o v => wordT 0xB#4 (vramAddr o) v
  | .loadMemRam o v => wordT 0xB#4 (ramAddr o) v
  | .setborder c => wordT 0xC#4 0#16 (0#5 ++ c)
  | .audlvl lvl ts => 0xD#4 ++ 0#3 ++ BitVec.ofBool lvl ++ ts
  | .audend => wordT 0xE#4 0#16 0#8

/-! ### The opcode table -/

/-- One row of spec/opcode_table.json: a word `w` is the row's when `w &&& mask = value`. -/
structure OpcodeRow where
  value : TransWord
  mask : TransWord
deriving DecidableEq, Repr

def OpcodeRow.has (r : OpcodeRow) (w : TransWord) : Bool := w &&& r.mask = r.value

/-- The 23 rows' "match" and "mask" columns, in the table's order. -/
def opcodeRows : List OpcodeRow :=
  [⟨0x00000000#32, 0xFFFFFFFF#32⟩,
   ⟨0x10000000#32, 0xFFC000FF#32⟩, ⟨0x10400000#32, 0xFFC000FF#32⟩, ⟨0x10800000#32, 0xFF8000FF#32⟩,
   ⟨0x20000000#32, 0xFFC00000#32⟩, ⟨0x20400000#32, 0xFFC00000#32⟩, ⟨0x20800000#32, 0xFF800000#32⟩,
   ⟨0x30000000#32, 0xFF0001FF#32⟩, ⟨0x30000100#32, 0xFF0001FF#32⟩,
   ⟨0x40000000#32, 0xFF000100#32⟩, ⟨0x40000100#32, 0xFF000100#32⟩,
   ⟨0x50000000#32, 0xFF0000FF#32⟩, ⟨0x60000000#32, 0xFF000000#32⟩] ++
  [⟨0x70000000#32, 0xFFFFFFC0#32⟩, ⟨0x80000000#32, 0xFFFFFFC0#32⟩,
   ⟨0x90000000#32, 0xFFFFFFFF#32⟩, ⟨0xA0000000#32, 0xFFFFFFFF#32⟩,
   ⟨0xB0000000#32, 0xFFC00000#32⟩, ⟨0xB0400000#32, 0xFFC00000#32⟩, ⟨0xB0800000#32, 0xFF800000#32⟩,
   ⟨0xC0000000#32, 0xFFFFFFF8#32⟩, ⟨0xD0000000#32, 0xFE000000#32⟩, ⟨0xE0000000#32, 0xFFFFFFFF#32⟩]

/-- The row of the table an instruction belongs to. -/
def rowOf : Instr → OpcodeRow
  | .tick => ⟨0x00000000#32, 0xFFFFFFFF#32⟩
  | .mrdRom _ => ⟨0x10000000#32, 0xFFC000FF#32⟩
  | .mrdVram _ => ⟨0x10400000#32, 0xFFC000FF#32⟩
  | .mrdRam _ => ⟨0x10800000#32, 0xFF8000FF#32⟩
  | .mwrRom _ _ => ⟨0x20000000#32, 0xFFC00000#32⟩
  | .mwrVram _ _ => ⟨0x20400000#32, 0xFFC00000#32⟩
  | .mwrRam _ _ => ⟨0x20800000#32, 0xFF800000#32⟩
  | .iordUla _ => ⟨0x30000000#32, 0xFF0001FF#32⟩
  | .iordOther _ => ⟨0x30000100#32, 0xFF0001FF#32⟩
  | .iowrUla _ _ => ⟨0x40000000#32, 0xFF000100#32⟩
  | .iowrOther _ _ => ⟨0x40000100#32, 0xFF000100#32⟩
  | .peek _ => ⟨0x50000000#32, 0xFF0000FF#32⟩
  | .poke _ _ => ⟨0x60000000#32, 0xFF000000#32⟩
  | .keydn _ => ⟨0x70000000#32, 0xFFFFFFC0#32⟩
  | .keyup _ => ⟨0x80000000#32, 0xFFFFFFC0#32⟩
  | .pwron => ⟨0x90000000#32, 0xFFFFFFFF#32⟩
  | .pwroff => ⟨0xA0000000#32, 0xFFFFFFFF#32⟩
  | .loadRom _ _ => ⟨0xB0000000#32, 0xFFC00000#32⟩
  | .loadMemVram _ _ => ⟨0xB0400000#32, 0xFFC00000#32⟩
  | .loadMemRam _ _ => ⟨0xB0800000#32, 0xFF800000#32⟩
  | .setborder _ => ⟨0xC0000000#32, 0xFFFFFFF8#32⟩
  | .audlvl _ _ => ⟨0xD0000000#32, 0xFE000000#32⟩
  | .audend => ⟨0xE0000000#32, 0xFFFFFFFF#32⟩

/-- The transaction word of the host's numbering: bit 0 the least significant bit of the word, every
bit above `nbits` zero. -/
def tableWord (nbits w : Nat) : TransWord := BitVec.ofNat 32 (w % 2 ^ nbits)

/-- What this decoder reads from a word of the opcode table. -/
def decodeTableWord (nbits w : Nat) : Option Instr :=
  match decode (tableWord nbits w) with
  | .ok i => some i
  | .error _ => none

end Sys2Proof
end

