-- ==== Sys2Proof/Config.lean ====
section
/-!
DEFINITION. The configuration: "a fixed argument of the step relation" (10_state.md, opening; the
parameters of 00_scope.md R6, R7, R9, R11). Every OPEN parameter is a field, so a statement over all
states is a statement over all configurations; `Config.reference` holds the reference values of R7
and R9 (log entry 2). The formulas over these parameters (R8, R10, R151, R200) stand in
Machine/Geometry.lean. The one draw that a rule makes while the machine runs, `EAR_IN`
(43_ula_ports.md R186), is an opaque constant here.
-/

namespace Sys2Proof

/-- `CONTENTION_MODE` (R11; 42_raster.md R147, R148). -/
inductive ContentionMode
  /-- the default: a credit is consumed only at a processor-rate unit (R147) -/
  | perProcessorUnit
  /-- a credit is consumed at every tick (R148) -/
  | perTick
deriving DecidableEq, Repr, Inhabited

/-- `BITMAP_ADDR` and `ATTR_ADDR` (R11, 42_raster.md R151): the reference layout, or two tables. A
table's entry is an offset into VRAM, 14 bits, so that every address it gives lies in 0x4000–0x7FFF
as R151 asks. The bitmap table is indexed by `y·32 + b`, the attribute table by `(y div 8)·32 + b`
(R151: "`ATTR_ADDR(y, b)` must depend on y only through `y >> 3`"; log entry 15). -/
inductive Layout
  | reference
  | tables (bitmap attr : List (BitVec 14))
deriving DecidableEq, Repr, Inhabited

/-- The configuration of one machine. -/
structure Config where
  /-- `ACTIVE_HEIGHT`: active-video lines per frame (R7) -/
  activeHeight : Nat
  /-- `LEFT_BORDER`: pixels (R7) -/
  leftBorder : Nat
  /-- `RIGHT_BORDER`: pixels (R7) -/
  rightBorder : Nat
  /-- `TOP_BORDER`: lines (R7) -/
  topBorder : Nat
  /-- `BOTTOM_BORDER`: lines (R7) -/
  bottomBorder : Nat
  /-- `VSYNC_LINES`: vertical-sync lines (R7) -/
  vsyncLines : Nat
  /-- `H_TOTAL`: controller ticks per line (R7) -/
  hTotal : Nat
  /-- `INT_PULSE_CYCLES`: interrupt pulse width in processor cycles (R7) -/
  intPulseCycles : Nat
  /-- `CPU_CLOCK_HZ` (R9) -/
  cpuClockHz : Nat
  /-- `SAMPLE_RATE_HZ` (R9) -/
  sampleRateHz : Nat
  /-- `CONTENTION_MODE` (R11) -/
  contentionMode : ContentionMode
  /-- `BITMAP_ADDR`, `ATTR_ADDR` (R11) -/
  layout : Layout
  /-- `PALETTE`: 16 host colour values, opaque to the block (R11, 30_encoding.md R96) -/
  palette : Vector Nat 16
  /-- `expansions`: the attached expansions' names, in registration order (10_state.md R40; log entry
  14) -/
  expansions : List Nat
  /-- `EXP_READ` (R11, 41_bus.md R121) as a table: the ports for which an attached expansion supplies
  a byte, with that byte; `none` at every port the table does not list (log entry 14) -/
  expReadTable : List (Nat × Byte)
deriving DecidableEq, Repr, Inhabited

/-- The reference configuration of 95_test_vectors.md section 0: geometry, pulse width and clock of
00_scope.md R7 and R9 [from general knowledge, so the spec marks them], `EXP_READ` always `none`,
`CONTENTION_MODE` and layout at their defaults. PRESUMED (log entry 2). The palette's values are
open; entry `i` holds `i` (DESIGN CHOICE, log entry 2). -/
def Config.reference : Config where
  activeHeight := 192
  leftBorder := 48
  rightBorder := 48
  topBorder := 48
  bottomBorder := 56
  vsyncLines := 16
  hTotal := 448
  intPulseCycles := 32
  cpuClockHz := 3500000
  sampleRateHz := 44100
  contentionMode := .perProcessorUnit
  layout := .reference
  palette := #v[0, 1, 2, 3, 4, 5, 6, 7, 8, 9, 10, 11, 12, 13, 14, 15]
  expansions := []
  expReadTable := []

/-- `EAR_IN`, the auxiliary input level of the n-th draw: "a free 1-bit input of each KeyboardRead,
under no law" (43_ula_ports.md R186). A free value: no body, applied to the counter `State.draws`
(log entry 5). -/
opaque Config.earIn : Nat → Bool

end Sys2Proof
end

