-- ==== Sys2Proof/Machine/Geometry.lean ====
section
/-!
DEFINITION. The formulas over the configuration: derived geometry (00_scope.md R8), the constraints
every configuration meets (R10), the raster's position classes (42_raster.md R142, R143, R145, R146,
R160), the screen layout (R151), `SampleIndex` (44_audio.md R200, R201) and `EXP_READ` (41_bus.md
R121).
-/

namespace Sys2Proof

namespace Config

/-! ### Derived geometry (R8) -/

/-- `ACTIVE_WIDTH` = 256 pixels (R6). -/
def activeWidth : Nat := 256

def rasterWidth (p : Config) : Nat := p.leftBorder + activeWidth + p.rightBorder
def rasterHeight (p : Config) : Nat := p.topBorder + p.activeHeight + p.bottomBorder
/-- `VS0`: first vertical-sync line. -/
def vs0 (p : Config) : Nat := p.activeHeight + p.bottomBorder
/-- `TB0`: first top-border line. -/
def tb0 (p : Config) : Nat := p.vs0 + p.vsyncLines
/-- `V_TOTAL`: lines per frame. -/
def vTotal (p : Config) : Nat := p.tb0 + p.topBorder
def frameTicks (p : Config) : Nat := p.hTotal * p.vTotal
def frameCycles (p : Config) : Nat := p.frameTicks / 2
def intPulseTicks (p : Config) : Nat := 2 * p.intPulseCycles

/-! ### Constraints (R10) -/

/-- The constraints of R10; the recorded info of `E_PARAM_INVALID` (60_exceptions.md R221). That R10's
`1 ≤ INT_PULSE_TICKS ≤ VSYNC_LINES · H_TOTAL` counts as two is the model's choice (DESIGN CHOICE, log entry
25). -/
inductive Constraint
  | hTotalEven | lineHoldsRaster | leftBorderChunked | rightBorderChunked | activeHeightPositive
  | vsyncPositive | pulsePositive | pulseFitsVsync | activeHeightFitsLayout | cpuClockPositive
  | sampleRatePositive | frameCyclesFitTimestamp
deriving DecidableEq, Repr

def Constraint.all : List Constraint :=
  [.hTotalEven, .lineHoldsRaster, .leftBorderChunked, .rightBorderChunked, .activeHeightPositive,
   .vsyncPositive, .pulsePositive, .pulseFitsVsync, .activeHeightFitsLayout, .cpuClockPositive,
   .sampleRatePositive, .frameCyclesFitTimestamp]

/-- The configuration meets the constraint. -/
def meets (p : Config) : Constraint → Bool
  | .hTotalEven => p.hTotal % 2 = 0
  | .lineHoldsRaster => p.rasterWidth ≤ p.hTotal
  | .leftBorderChunked => p.leftBorder % 8 = 0
  | .rightBorderChunked => p.rightBorder % 8 = 0
  | .activeHeightPositive => 1 ≤ p.activeHeight
  | .vsyncPositive => 1 ≤ p.vsyncLines
  | .pulsePositive => 1 ≤ p.intPulseTicks
  | .pulseFitsVsync => p.intPulseTicks ≤ p.vsyncLines * p.hTotal
  | .activeHeightFitsLayout => p.layout ≠ .reference || p.activeHeight ≤ 192
  | .cpuClockPositive => 1 ≤ p.cpuClockHz
  | .sampleRatePositive => 1 ≤ p.sampleRateHz
  | .frameCyclesFitTimestamp => p.frameCycles < 2 ^ 24

/-- The constraint `E_PARAM_INVALID` records: of those that fail, the first as R10 lists them. When several
fail the spec does not say which one is recorded (R10, R221 and R224 give no order among them): the model's
choice (DESIGN CHOICE, log entry 25). -/
def firstViolated (p : Config) : Option Constraint := Constraint.all.find? fun c => !p.meets c

/-- Every constraint of R10 holds. -/
def valid (p : Config) : Bool := Constraint.all.all p.meets

/-! ### Position classes -/

/-- Horizontal segments (42_raster.md R142). -/
inductive HSegment
  | left | bitmap | right | hblank
deriving DecidableEq, Repr

/-- `HSeg(C)` (R142). -/
def hSegment (p : Config) (c : Nat) : HSegment :=
  if c < p.leftBorder then .left
  else if c < p.leftBorder + activeWidth then .bitmap
  else if c < p.rasterWidth then .right
  else .hblank

/-- Vertical segments, the states of the frame state machine (R143, R166). -/
inductive VSegment
  | active | bottom | vsync | top
deriving DecidableEq, Repr

/-- `VSeg(V)` (R143). -/
def vSegment (p : Config) (v : Nat) : VSegment :=
  if v < p.activeHeight then .active
  else if v < p.vs0 then .bottom
  else if v < p.tb0 then .vsync
  else .top

/-- `Row(V)`: the pixel-buffer row a line renders, none in vertical sync (R143; beyond the
last line, where no run gets, log entry 23). -/
def row (p : Config) (v : Nat) : Option Nat :=
  match p.vSegment v with
  | .active => some (p.topBorder + v)
  | .bottom => some (p.topBorder + v)
  | .vsync => none
  | .top => some (v - p.tb0)

/-- `Visible(V, C)` (R143). -/
def visible (p : Config) (v c : Nat) : Bool := p.vSegment v ≠ .vsync && p.hSegment c ≠ .hblank

/-- The value `fetching` takes at step 1 of a tick at `(V, C)` (R145). -/
def fetchWindow (p : Config) (v c : Nat) : Bool :=
  v < p.activeHeight && p.leftBorder ≤ c && c < p.leftBorder + activeWidth

/-- `P = V·H_TOTAL + C` (10_state.md R45). -/
def position (p : Config) (v c : Nat) : Nat := v * p.hTotal + c

/-- `InPulse(V, C)` (R160). -/
def inPulse (p : Config) (v c : Nat) : Bool :=
  p.vs0 * p.hTotal ≤ p.position v c && p.position v c < p.vs0 * p.hTotal + p.intPulseTicks

/-- A tick is a processor-rate unit iff `C mod 2 = 0` (R146). -/
def processorUnit (c : Nat) : Bool := c % 2 = 0

/-! ### Screen layout (R151) -/

/-- `BITMAP_ADDR(y, b)`. -/
def bitmapAddr (p : Config) (y b : Nat) : Nat :=
  match p.layout with
  | .reference => 0x4000 + y / 64 % 4 * 2048 + y % 8 * 256 + y / 8 % 8 * 32 + b
  | .tables bitmap _ => 0x4000 + (bitmap.getD (y * 32 + b) 0#14).toNat

/-- `ATTR_ADDR(y, b)`. -/
def attrAddr (p : Config) (y b : Nat) : Nat :=
  match p.layout with
  | .reference => 0x5800 + y / 8 * 32 + b
  | .tables _ attr => 0x4000 + (attr.getD (y / 8 * 32 + b) 0#14).toNat

/-! ### Audio (44_audio.md R200, R201) -/

/-- `SampleIndex(t) = floor(t · SAMPLE_RATE_HZ / CPU_CLOCK_HZ)`, exact (R200). -/
def sampleIndex (p : Config) (t : Nat) : Nat := t * p.sampleRateHz / p.cpuClockHz

/-- `N`, the frame's total sample count (R201). -/
def sampleCount (p : Config) : Nat := p.sampleIndex p.frameCycles

/-! ### Expansions (41_bus.md R121, R124) -/

/-- `EXP_READ(p)`: "with no expansion attached it is `none` everywhere" (R121). -/
def expRead (p : Config) (port : Addr) : Option Byte :=
  if p.expansions.isEmpty then none else p.expReadTable.lookup port.toNat

end Config

end Sys2Proof
end

