-- ==== Sys2Proof/Machine/Memory.lean ====
section
/-!
DEFINITION. Arrays held as plain data: a list of (index, value) pairs in one canonical form, indices
strictly rising and no entry equal to what an unlisted index reads as. ROM, VRAM and RAM (10_state.md
R37 to R39) and the pixel buffer (R41) are such arrays (log entry 20). An unlisted index reads as 0: the spec makes
the contents before the first write a draw (70_reset_and_hazards.md R251), and a state may list any
contents; only `State.reset` rests on the 0 (DESIGN CHOICE, log entry 3).
-/

namespace Sys2Proof.Machine

/-- An array of `w`-bit entries. -/
abbrev Cells (w : Nat) := List (Nat × BitVec w)

/-- One region of memory: (offset, byte) pairs. -/
abbrev Memory := List Host.Cell

namespace Cells

/-- What an index that is not listed reads as. -/
def unlisted (w : Nat) : BitVec w := 0#w

/-- Read one entry. -/
def read {w : Nat} : Cells w → Nat → BitVec w
  | [], _ => unlisted w
  | (b, u) :: m, a => if b = a then u else read m a

/-- Remove every entry at `a`. -/
def erase {w : Nat} : Cells w → Nat → Cells w
  | [], _ => []
  | (b, u) :: m, a => if b = a then erase m a else (b, u) :: erase m a

/-- Put an entry before the first one at a higher index. -/
def insert {w : Nat} : Cells w → Nat → BitVec w → Cells w
  | [], a, v => [(a, v)]
  | (b, u) :: m, a, v => if a < b then (a, v) :: (b, u) :: m else (b, u) :: insert m a v

/-- Write one entry, keeping the canonical form. -/
def write {w : Nat} (m : Cells w) (a : Nat) (v : BitVec w) : Cells w :=
  if v = unlisted w then erase m a else insert (erase m a) a v

/-- The canonical form, every index below `size`. -/
def wf {w : Nat} (size : Nat) (m : Cells w) : Bool :=
  (m.map Prod.fst).Pairwise (· < ·) && m.all fun c => c.1 < size && c.2 ≠ unlisted w

/-- The array whose entries from `base` on are `vs` and whose other entries are unlisted. -/
def ofList {w : Nat} (base : Nat) : List (BitVec w) → Cells w
  | [] => []
  | v :: vs => if v = unlisted w then ofList (base + 1) vs else (base, v) :: ofList (base + 1) vs

end Cells

/-- Read one byte of a region. -/
def Memory.read (m : Memory) (a : Nat) : Byte := Cells.read m a

/-- Write one byte of a region. -/
def Memory.write (m : Memory) (a : Nat) (v : Byte) : Memory := Cells.write m a v

/-- The canonical form of a region of `size` bytes. -/
def Memory.wf (size : Nat) (m : Memory) : Bool := Cells.wf size m

end Sys2Proof.Machine
end

