-- ==== Sys2Proof/Machine/State.lean ====
section
/-!
DEFINITION. The state of the block (10_state.md R20 to R49), what stops it, and the state right after
the power-on reset. Fields marked OWN are the model's, not the spec's: they say which agent acts,
what it will issue, and what it has been answered (log entries 1, 9, 10, 11, 12, 13, 24).
-/

namespace Sys2Proof.Machine

/-- Who issues a transaction (00_scope.md R14; 30_encoding.md R82). -/
inductive Agent
  | host | controller | processor
  /-- "a harness driving the synthesizer alone" (R82) -/
  | harness
deriving DecidableEq, Repr, Inhabited

/-- One transaction waiting on the block's interface between ticks. -/
structure Request where
  issuer : Agent
  word : TransWord
deriving DecidableEq, Repr, Inhabited

/-- One cycle of the processor agent `PROC` (42_raster.md R149): the accesses it issues, in order, and
the cycle count it reports when its step returns. -/
structure ProcCycle where
  accesses : List TransWord
  report : Nat
deriving DecidableEq, Repr, Inhabited

/-- A cycle in which the processor issues no access and reports one cycle. -/
def ProcCycle.idle : ProcCycle := ⟨[], 1⟩

/-- The output events (10_state.md R44). -/
inductive Event
  | borderChanged (c : BitVec 3)
  | audioFrame (samples : List Bool)
deriving DecidableEq, Repr, Inhabited

/-- The notifications of a power change, in the order they are given (41_bus.md R133 to R135). -/
inductive PowerNotice
  | expansionOn (e : Nat) | controllerReset | processorOn
  | processorOff | controllerStop | expansionOff (e : Nat)
deriving DecidableEq, Repr, Inhabited

/-- The errors a transaction can meet, each with its recorded info (60_exceptions.md R221, codes 6 to
11; codes 1 to 5 are construction's, Machine/Boot.lean). -/
inductive Error
  /-- `E_LOAD_NOT_POWERED`: LOAD while unpowered -/
  | loadNotPowered (a : Addr)
  /-- `E_LOAD_ROM_OVERWRITE`: LOAD to 0x0000–0x3FFF -/
  | loadRomOverwrite (a : Addr)
  /-- `E_AUDIO_TS_DECREASING`: AUDLVL timestamp below the previous one in the frame -/
  | audioTsDecreasing (t previous : Nat)
  /-- `E_AUDIO_TS_RANGE`: AUDLVL timestamp ≥ FRAME_CYCLES -/
  | audioTsRange (t : Nat)
  /-- `E_PROC_CYCLE_COUNT`, a refusal: the processor reports a cycle count other than 1 -/
  | procCycleCount (k : Nat)
  /-- `E_BAD_TRANSACTION`, a refusal: illegal transaction word or wrong issuer -/
  | badTransaction (w : TransWord)
deriving DecidableEq, Repr, Inhabited

/-- Codes 10 and 11 are refusals, codes 6 to 9 faults (R221, R226, R227). -/
def Error.isRefusal : Error → Bool
  | .procCycleCount _ => true
  | .badTransaction _ => true
  | .loadNotPowered _ => false
  | .loadRomOverwrite _ => false
  | .audioTsDecreasing _ _ => false
  | .audioTsRange _ => false

/-- The code column of R221. -/
def Error.code : Error → Nat
  | .loadNotPowered _ => 6
  | .loadRomOverwrite _ => 7
  | .audioTsDecreasing _ _ => 8
  | .audioTsRange _ => 9
  | .procCycleCount _ => 10
  | .badTransaction _ => 11

/-- Why the machine has no step, as a fault. -/
inductive Fault
  /-- Raised by every meaning and by `step` in the faulted state (60_exceptions.md R226, codes 6 to 9):
  "no transaction has a step". Safe: the spec itself stops there. -/
  | faulted (e : Error)
deriving DecidableEq, Repr

/-- Why the machine has no step, as a refusal. -/
inductive Refusal
  /-- An instruction that has no meaning yet, by mnemonic; raised by no arm of this model. Safe. -/
  | notModelled (mnemonic : String)
  /-- Raised by every meaning and by `step` once a refusal mark is set (60_exceptions.md R227, codes 10
  and 11): "no further step". Safe: the spec itself stops there. -/
  | marked (e : Error)
  /-- Raised by `step` when no agent has a transaction to issue: a step is a transaction, so there is
  none to take (00_scope.md R2, R16; log entry 16). Safe. -/
  | noTransaction
deriving DecidableEq, Repr

structure State where
  /-- OWN: the fixed configuration (00_scope.md R6 to R11), carried along unchanged; `PALETTE`,
  `expansions` (10_state.md R40) and `EXP_READ` are part of it -/
  cfg : Config
  /-- `C`, horizontal counter (10_state.md R21) -/
  C : Nat
  /-- `V`, vertical counter (R22) -/
  V : Nat
  /-- `F`, frame counter, 0 ≤ F < 16 (R23) -/
  F : Fin 16
  /-- `flash` (R24) -/
  flash : Bool
  /-- `border` (R25) -/
  border : BitVec 3
  /-- `speaker_level` (R26) -/
  speakerLevel : Bool
  /-- `mic_level` (R28) -/
  micLevel : Bool
  /-- `stall`, contention credits, unbounded (R27) -/
  stall : Nat
  /-- `fetching` (R29) -/
  fetching : Bool
  /-- `pressed`, a set of key identifiers: strictly rising, each below 40 (R30; log entry 20) -/
  pressed : List Nat
  /-- `int_line` (R32) -/
  intLine : Bool
  /-- `border_latch` (R33) -/
  borderLatch : BitVec 3
  /-- `bitmap_latch` (R34) -/
  bitmapLatch : Byte
  /-- `attr_latch` (R34) -/
  attrLatch : Byte
  /-- `powered` (R35) -/
  powered : Bool
  /-- `fault`: none, or the error of the fault or refusal mark (R36) -/
  fault : Option Error
  /-- `rom`, 16 384 bytes at 0x0000 (R37) -/
  rom : Memory
  /-- `vram`, 16 384 bytes at 0x4000 (R38) -/
  vram : Memory
  /-- `ram`, 32 768 bytes at 0x8000 (R39) -/
  ram : Memory
  /-- `pixbuf`: entry `[y][x]` at index `y · RASTER_WIDTH + x` (R41) -/
  pixbuf : Cells 4
  /-- `aud_level` (R42) -/
  audLevel : Bool
  /-- `aud_last_ts` (R42) -/
  audLastTs : Nat
  /-- `aud_cursor` (R42) -/
  audCursor : Nat
  /-- `aud_buf`, N one-bit samples, slot 0 first (R42, 44_audio.md R201; log entry 17) -/
  audBuf : List Bool
  /-- `out`, the output history, oldest first, append-only (R44) -/
  out : List Event
  /-- OWN: the issuer of the transaction that runs (30_encoding.md R82) -/
  issuer : Agent
  /-- OWN: transactions the host (or a harness) has issued and the block has not taken, oldest first -/
  pending : List Request
  /-- OWN: what `PROC` does in its next granted cycles; when the list ends it stays idle -/
  proc : List ProcCycle
  /-- OWN: the granted cycle in progress: accesses still to come and the count to be reported; `none`
  between ticks -/
  grant : Option ProcCycle
  /-- OWN: the level of `int_line` each granted cycle was offered, oldest first (42_raster.md R149,
  R161); its length is the number of granted cycles -/
  grants : List Bool
  /-- OWN: the bytes returned to the processor, oldest first -/
  procReplies : List Byte
  /-- OWN: the bytes returned to the host, oldest first -/
  hostReplies : List Byte
  /-- OWN: the power notifications given, oldest first (41_bus.md R133 to R135) -/
  powerLog : List PowerNotice
  /-- OWN: the last tick that ran its step 5 wrapped V to 0 (70_reset_and_hazards.md R262; log entry 24) -/
  frameEnded : Bool
  /-- OWN: the controller has completed a tick since the last power event, so a harness no longer drives the
  synthesizer alone (30_encoding.md R82; log entry 12) -/
  ticked : Bool
  /-- OWN: how many draws have been made; each free value is an opaque constant applied to it -/
  draws : Nat
deriving DecidableEq, Repr, Inhabited

/-- What the faulted state may hold: "every other state field is any value from then on"
(60_exceptions.md R226). A free value: no body, applied to `State.draws` (log entry 7). -/
opaque undefinedState : Nat → State

/-- The machine with the reference configuration right after its power-on reset: a freshly constructed
machine (70_reset_and_hazards.md R251) after PWRON (R250, R252; log entry 6). The contents R251 leaves
as draws are named here: memory and pixel buffer list nothing, every sample is 0 (DESIGN CHOICE, log
entry 3), and the ROM image is all zeros (DESIGN CHOICE, log entry 2). -/
def State.reset : State where
  cfg := Config.reference
  C := 0
  V := 0
  F := 0
  flash := false
  border := 0#3
  speakerLevel := false
  micLevel := false
  stall := 0
  fetching := false
  pressed := []
  intLine := false
  borderLatch := 0#3
  bitmapLatch := 0#8
  attrLatch := 0#8
  powered := true
  fault := none
  rom := []
  vram := []
  ram := []
  pixbuf := []
  audLevel := false
  audLastTs := 0
  audCursor := 0
  audBuf := List.replicate Config.reference.sampleCount false
  out := []
  issuer := .host
  pending := []
  proc := []
  grant := none
  grants := []
  procReplies := []
  hostReplies := []
  powerLog := [.controllerReset, .processorOn]
  frameEnded := false
  ticked := false
  draws := 0

end Sys2Proof.Machine
end

