-- ==== Sys2Proof/Machine/Flags.lean ====
section
/-!
DEFINITION. The block's status flags (10_state.md R46): `fetching` and `int_line`, recomputed by every
powered tick from the raster position, and `flash` with the frame counter. `powered` is written by
PWRON and PWROFF (Machine/Power.lean). There is no condition-code register.
-/

namespace Sys2Proof.Machine

/-- Step 1 of the tick: the video-fetch flag (42_raster.md R145). -/
def setFetching (s : State) : State := { s with fetching := s.cfg.fetchWindow s.V s.C }

/-- Step 3 of the tick: the interrupt line (42_raster.md R160). -/
def setIntLine (s : State) : State := { s with intLine := s.cfg.inPulse s.V s.C }

/-- The frame counter and `flash` at a frame wrap: `F` wraps from 15 to 0 and toggles `flash`
(42_raster.md R158). -/
def countFrame (s : State) : State :=
  if s.F = 15 then { s with F := 0, flash := !s.flash } else { s with F := s.F + 1 }

end Sys2Proof.Machine
end

