-- ==== Sys2Proof/Machine/Operands.lean ====
section
/-!
DEFINITION. Every operand form and data-byte format: the memory map (41_bus.md R111; 30_encoding.md
R84), the controller port's write byte (R90), the attribute and bitmap bytes (R91, R94), the keyboard
read byte and its port address (R92, R93), key identifiers (R95) and palette indices (R96).
-/

namespace Sys2Proof.Machine

/-! ### The memory map -/

/-- The three regions (20_memory.md R55). -/
inductive Region
  | rom | vram | ram
deriving DecidableEq, Repr

/-- The access levels (R55). -/
inductive Access
  | readOnly | readWrite
deriving DecidableEq, Repr

/-- `ROM_SIZE`, `VRAM_SIZE`, `RAM_SIZE` (00_scope.md R6). -/
def Region.size : Region → Nat
  | .rom => 16384
  | .vram => 16384
  | .ram => 32768

/-- `Map(a)`: region, offset, access level (R111). -/
def mapAddr (a : Addr) : Region × Nat × Access :=
  if a.extractLsb' 14 2 = 0b00#2 then (.rom, (a.extractLsb' 0 14).toNat, .readOnly)
  else if a.extractLsb' 14 2 = 0b01#2 then (.vram, (a.extractLsb' 0 14).toNat, .readWrite)
  else (.ram, (a.extractLsb' 0 15).toNat, .readWrite)

/-- `CONTENDED_LO`, `CONTENDED_HI` (00_scope.md R6; 42_raster.md R144). -/
def contended (a : Addr) : Bool := 0x4000 ≤ a.toNat && a.toNat ≤ 0x7FFF

/-! ### The controller port's write byte (R90) -/

def borderField (v : Byte) : BitVec 3 := v.extractLsb' 0 3
def micField (v : Byte) : Bool := v.getLsbD 3
def speakerField (v : Byte) : Bool := v.getLsbD 4

/-! ### Attribute and bitmap bytes (R91, R94, R96) -/

def inkField (a : Byte) : BitVec 3 := a.extractLsb' 0 3
def paperField (a : Byte) : BitVec 3 := a.extractLsb' 3 3
def brightField (a : Byte) : Bool := a.getLsbD 6
def flashField (a : Byte) : Bool := a.getLsbD 7

/-- Pixel `i` of a bitmap byte, `i = 0` the leftmost (R94). -/
def pixelBit (b : Byte) (i : Nat) : Bool := b.getLsbD (7 - i)

/-- `{bright, colour[2:0]}` (R96). -/
def paletteIndex (bright : Bool) (colour : BitVec 3) : BitVec 4 := BitVec.ofBool bright ++ colour

/-- The palette index of pixel `i` of a cell (42_raster.md R152). -/
def cellPixel (bitmap attr : Byte) (flash : Bool) (i : Nat) : BitVec 4 :=
  let swap := flashField attr && flash
  let ink := if swap then paperField attr else inkField attr
  let paper := if swap then inkField attr else paperField attr
  paletteIndex (brightField attr) (if pixelBit bitmap i then ink else paper)

/-! ### Keyboard (R92, R93, R95; 43_ula_ports.md R185) -/

/-- `KEY_TABLE`: half-row `r`, column `c` to key identifier (10_state.md R31). -/
def keyAt (r c : Nat) : Nat := 5 * r + c

/-- `SEL = ~A[15:8]`, the half-row select mask (R93). -/
def halfRowSelect (p : Addr) : BitVec 8 := ~~~(p.extractLsb' 8 8)

/-- No selected half-row has its column-`c` key pressed (R92). -/
def columnUp (pressed : List Nat) (sel : BitVec 8) (c : Nat) : Bool :=
  (List.range 8).all fun r => !(sel.getLsbD r && pressed.contains (keyAt r c))

/-- The five key bits, active low, column 4 in bit 4 (R92). -/
def keyBits (pressed : List Nat) (sel : BitVec 8) : BitVec 5 :=
  BitVec.ofBool (columnUp pressed sel 4) ++ BitVec.ofBool (columnUp pressed sel 3) ++
    BitVec.ofBool (columnUp pressed sel 2) ++ BitVec.ofBool (columnUp pressed sel 1) ++
    BitVec.ofBool (columnUp pressed sel 0)

/-- `KeyboardRead(p)` with auxiliary input level `e` (R185): bits 7 and 5 set, bit 6 the level. -/
def keyboardByte (pressed : List Nat) (p : Addr) (e : Bool) : Byte :=
  1#1 ++ BitVec.ofBool e ++ 1#1 ++ keyBits pressed (halfRowSelect p)

/-- Set insertion, keeping the list strictly rising (R190). -/
def insertKey (k : Nat) : List Nat → List Nat
  | [] => [k]
  | j :: ks => if k < j then k :: j :: ks else if k = j then j :: ks else j :: insertKey k ks

/-- Set removal (R191). -/
def removeKey (k : Nat) (ks : List Nat) : List Nat := ks.filter (· ≠ k)

/-- A set of key identifiers in canonical form (10_state.md R30). -/
def keysWf (ks : List Nat) : Bool := ks.Pairwise (· < ·) && ks.all (· < keyCount)

end Sys2Proof.Machine
end

