-- ==== Sys2Proof/Machine/Ops.lean ====
section
/-!
DEFINITION. The shared operations: fault entry, refusal marks and the guard every transaction passes
(60_exceptions.md R226 to R228), the turns of the agents (30_encoding.md R82), the bus (41_bus.md R111),
contention (42_raster.md R144), the answers, the synthesizer's two calls (44_audio.md R204, R205), the
end of a granted cycle and the advance of the raster (42_raster.md R149, R155 to R157), and what the
next transaction is. A fault is terminal: there is no return from it (R226).
-/

namespace Sys2Proof.Machine

/-- One step's outcome. -/
abbrev Result := Host.Outcome State Fault Refusal

/-! ### Faults and refusals -/

/-- Fault entry (R226): `fault <- n`, every other field any value. Three limits the other rules set are kept:
the configuration is fixed (10_state.md, opening), `rom` is never written (R37), and `out` is never
shortened (R44), so it is any extension of what it was. The model's own records of answers and
notifications keep what agents have been given (log entry 7). -/
def raise (e : Error) (s : State) : Result :=
  .next { undefinedState s.draws with
    cfg := s.cfg, rom := s.rom, out := s.out ++ (undefinedState s.draws).out, grants := s.grants,
    procReplies := s.procReplies, hostReplies := s.hostReplies, powerLog := s.powerLog,
    draws := s.draws + 1, fault := some e }

/-- Refusal (R227): the refusal mark, "changing no state" else (30_encoding.md R88; log entry 8). -/
def refuse (e : Error) (s : State) : Result := .next { s with fault := some e }

/-- "no transaction has a step" (R226, R227). -/
def stuck (e : Error) : Result := if e.isRefusal then .refused (.marked e) else .fault (.faulted e)

/-! ### Turns (30_encoding.md R82) -/

/-- The host acts only between ticks. -/
def hostTurn (s : State) : Bool := s.issuer = .host && s.grant.isNone

/-- The processor acts only inside a granted cycle. -/
def processorTurn (s : State) : Bool := s.issuer = .processor && s.grant.isSome

/-- AUDLVL and AUDEND as transactions of their own: a harness driving the synthesizer alone, that is between
ticks and while the controller has completed no tick since the last power event (log entry 12). The
controller's own calls are made where R82 allows them, inside the port write (43_ula_ports.md R181) and the
frame wrap (42_raster.md R157), so a word that it would issue at any other time is refused. -/
def audioTurn (s : State) : Bool := s.issuer = .harness && s.grant.isNone && !s.ticked

/-- What every transaction does first (R228): no step after a fault or refusal; then the legality of its
issuer and time; then its own effect. -/
def transact (turn : State → Bool) (i : Instr) (s : State) (body : State → Result) : Result :=
  match s.fault with
  | some e => stuck e
  | none => if turn s then body s else refuse (.badTransaction (encode i)) s

/-! ### Bus (41_bus.md R111) -/

/-- `BusRead(a)`. -/
def busRead (s : State) (a : Addr) : Byte :=
  match mapAddr a with
  | (.rom, o, _) => s.rom.read o
  | (.vram, o, _) => s.vram.read o
  | (.ram, o, _) => s.ram.read o

/-- `BusWrite(a, v)`: nothing where the access level is read-only. -/
def busWrite (s : State) (a : Addr) (v : Byte) : State :=
  match mapAddr a with
  | (_, _, .readOnly) => s
  | (.rom, o, .readWrite) => { s with rom := s.rom.write o v }
  | (.vram, o, .readWrite) => { s with vram := s.vram.write o v }
  | (.ram, o, .readWrite) => { s with ram := s.ram.write o v }

/-- `CONTENTION_CREDITS` (00_scope.md R6). -/
def contentionCredits : Nat := 6

/-- `Contend(a)` (42_raster.md R144). -/
def contend (a : Addr) (s : State) : State :=
  if s.fetching && contended a then { s with stall := s.stall + contentionCredits } else s

/-! ### Answers and events -/

/-- Return a byte to the processor. -/
def answerProc (v : Byte) (s : State) : State := { s with procReplies := s.procReplies ++ [v] }

/-- Return a byte to the host. -/
def answerHost (v : Byte) (s : State) : State := { s with hostReplies := s.hostReplies ++ [v] }

/-- `emit Event(...)` (00_scope.md R13; 10_state.md R44). -/
def emit (e : Event) (s : State) : State := { s with out := s.out ++ [e] }

/-- A processor memory read: the contention check, then the byte (41_bus.md R112 to R114). -/
def processorRead (a : Addr) (s : State) : State := answerProc (busRead s a) (contend a s)

/-- A processor memory write: the contention check, then the write (R115 to R117). -/
def processorWrite (a : Addr) (v : Byte) (s : State) : State := busWrite (contend a s) a v

/-- A host load: `powered` first (R130, R131; 60_exceptions.md R228). -/
def whenPowered (a : Addr) (s : State) (body : State → Result) : Result :=
  if s.powered then body s else raise (.loadNotPowered a) s

/-! ### The synthesizer (44_audio.md) -/

/-- `for i in [lo, hi): buf[i] <- v`. -/
def fillSlots : List Bool → Nat → Nat → Bool → List Bool
  | [], _, _, _ => []
  | b :: bs, 0, hi, v => (if 0 < hi then v else b) :: fillSlots bs 0 (hi - 1) v
  | b :: bs, lo + 1, hi, v => b :: fillSlots bs lo (hi - 1) v

/-- The checks of `AudioLevelChange` (R204), decreasing before range (60_exceptions.md R228). -/
def audioError (t : Nat) (s : State) : Option Error :=
  if t < s.audLastTs then some (.audioTsDecreasing t s.audLastTs)
  else if s.cfg.frameCycles ≤ t then some (.audioTsRange t)
  else none

/-- The fills of `AudioLevelChange` with the previous level, and the new level and timestamp (R204). -/
def audioFill (level : Bool) (t : Nat) (s : State) : State :=
  { s with
    audBuf := fillSlots s.audBuf s.audCursor (s.cfg.sampleIndex t) s.audLevel,
    audCursor := max s.audCursor (s.cfg.sampleIndex t),
    audLevel := level,
    audLastTs := t }

/-- `AudioLevelChange(level, t)` (R204). -/
def audioLevelChange (level : Bool) (t : Nat) (s : State) : Result :=
  match audioError t s with
  | some e => raise e s
  | none => .next (audioFill level t s)

/-- `EndFrame()` (R205). -/
def endFrame (s : State) : State :=
  let buf := fillSlots s.audBuf s.audCursor s.cfg.sampleCount s.audLevel
  emit (.audioFrame buf) { s with audBuf := buf, audCursor := 0, audLastTs := 0 }

/-- `FrameCycle()` (42_raster.md R159). -/
def frameCycle (s : State) : Nat := s.cfg.position s.V s.C / 2

/-! ### The raster's advance and the end of a granted cycle -/

/-- `FrameWrap` (42_raster.md R157): the frame counter, then `EndFrame`. -/
def frameWrap (s : State) : State := endFrame (countFrame s)

/-- Step 5 of the tick (R140, R155 to R157), which completes it; `frameEnded` says whether it wrapped the
frame (70_reset_and_hazards.md R262). -/
def advance (s : State) : State :=
  if s.C + 1 = s.cfg.hTotal then
    if s.V + 1 = s.cfg.vTotal then frameWrap { s with C := 0, V := 0, frameEnded := true, ticked := true }
    else { s with C := 0, V := s.V + 1, frameEnded := false, ticked := true }
  else { s with C := s.C + 1, frameEnded := false, ticked := true }

/-- When the processor has issued its cycle's last access, its step returns: a report other than 1 is
refused (R149), else the tick goes on with its step 5 (R140). In every other state, nothing. -/
def closeCycle (s : State) : Result :=
  match s.fault, s.grant with
  | none, some ⟨[], k⟩ =>
    if k = 1 then .next (advance { s with grant := none }) else refuse (.procCycleCount k) s
  | _, _ => .next s

/-- `closeCycle` after a transaction. -/
def settle : Result → Result
  | .next s => closeCycle s
  | .fault r => .fault r
  | .refused r => .refused r

/-! ### The next transaction -/

/-- The word the acting agent issues next, and the state with it taken: inside a granted cycle the
processor's next access, between ticks the oldest waiting request (20_memory.md R60; log entry 1). -/
def fetch (s : State) : Option (TransWord × State) :=
  match s.grant with
  | some ⟨w :: ws, k⟩ => some (w, { s with issuer := .processor, grant := some ⟨ws, k⟩ })
  | some ⟨[], _⟩ => none
  | none =>
    match s.pending with
    | r :: rs => some (r.word, { s with issuer := r.issuer, pending := rs })
    | [] => none

/-- No agent has a word to issue: a cycle whose accesses are all done is closed; otherwise there is no
transaction, so no step. -/
def noWord (s : State) : Result :=
  if s.grant.isSome then closeCycle s else .refused .noTransaction

/-- Who may issue a word of this `KIND` as a transaction of its own (30_encoding.md R82, R83). -/
def kindIssuer (kind : BitVec 4) : Agent :=
  if 0x1 ≤ kind.toNat ∧ kind.toNat ≤ 0x4 then .processor
  else if kind.toNat = 0xD ∨ kind.toNat = 0xE then .harness
  else .host

/-- The state in which the word is the one `fetch` takes: a processor access is put first in the granted
cycle (a cycle of its own between ticks, log entry 1), any other word first among the waiting
requests, a harness's with no tick of the controller before it. -/
def placeWord (w : TransWord) (s : State) : State :=
  match kindIssuer (kindOf w) with
  | .processor =>
    match s.grant with
    | some ⟨ws, k⟩ => { s with grant := some ⟨w :: ws, k⟩ }
    | none => { s with grant := some ⟨[w], 1⟩ }
  | .harness => { s with grant := none, ticked := false, pending := ⟨.harness, w⟩ :: s.pending }
  | a => { s with grant := none, pending := ⟨a, w⟩ :: s.pending }

end Sys2Proof.Machine
end

