-- ==== Sys2Proof/Machine/Audio.lean ====
section
/-!
DEFINITION. The synthesizer's two calls as transactions of their own (44_audio.md R204, R205), issued by
a harness driving the synthesizer alone; the controller makes the same calls inside IOWR_ULA and TICK
(30_encoding.md R82).
-/

namespace Sys2Proof.Machine

/-- AUDLVL (R204). -/
def execAudlvl (lvl : Bool) (ts : BitVec 24) (s : State) : Result :=
  transact audioTurn (.audlvl lvl ts) s fun s => audioLevelChange lvl ts.toNat s

/-- AUDEND (R205). -/
def execAudend (s : State) : Result := transact audioTurn .audend s fun s => .next (endFrame s)

end Sys2Proof.Machine
end

