-- ==== Sys2Proof/Machine/Bus.lean ====
section
/-!
DEFINITION. The memory transactions: the processor's reads and writes (41_bus.md R112 to R117), the
host's PEEK and POKE (R118, R119) and its back-door loads (R130, R131).
-/

namespace Sys2Proof.Machine

/-- MRD_ROM (R112). -/
def execMrdRom (o : BitVec 14) (s : State) : Result :=
  transact processorTurn (.mrdRom o) s fun s => .next (processorRead (romAddr o) s)

/-- MRD_VRAM (R113). -/
def execMrdVram (o : BitVec 14) (s : State) : Result :=
  transact processorTurn (.mrdVram o) s fun s => .next (processorRead (vramAddr o) s)

/-- MRD_RAM (R114). -/
def execMrdRam (o : BitVec 15) (s : State) : Result :=
  transact processorTurn (.mrdRam o) s fun s => .next (processorRead (ramAddr o) s)

/-- MWR_ROM (R115): ROM ignores the write. -/
def execMwrRom (o : BitVec 14) (v : Byte) (s : State) : Result :=
  transact processorTurn (.mwrRom o v) s fun s => .next (processorWrite (romAddr o) v s)

/-- MWR_VRAM (R116). -/
def execMwrVram (o : BitVec 14) (v : Byte) (s : State) : Result :=
  transact processorTurn (.mwrVram o v) s fun s => .next (processorWrite (vramAddr o) v s)

/-- MWR_RAM (R117). -/
def execMwrRam (o : BitVec 15) (v : Byte) (s : State) : Result :=
  transact processorTurn (.mwrRam o v) s fun s => .next (processorWrite (ramAddr o) v s)

/-- PEEK (R118): no contention check, no notification, powered or not. -/
def execPeek (a : Addr) (s : State) : Result :=
  transact hostTurn (.peek a) s fun s => .next (answerHost (busRead s a) s)

/-- POKE (R119): ignored for ROM, stored for VRAM and RAM. -/
def execPoke (a : Addr) (v : Byte) (s : State) : Result :=
  transact hostTurn (.poke a v) s fun s => .next (busWrite s a v)

/-- LOAD_ROM (R130): a fault, whichever check finds it; no byte is written. -/
def execLoadRom (o : BitVec 14) (v : Byte) (s : State) : Result :=
  transact hostTurn (.loadRom o v) s fun s =>
    whenPowered (romAddr o) s fun s => raise (.loadRomOverwrite (romAddr o)) s

/-- LOAD_MEM, VRAM row (R131). -/
def execLoadMemVram (o : BitVec 14) (v : Byte) (s : State) : Result :=
  transact hostTurn (.loadMemVram o v) s fun s =>
    whenPowered (vramAddr o) s fun s => .next (busWrite s (vramAddr o) v)

/-- LOAD_MEM, RAM row (R131). -/
def execLoadMemRam (o : BitVec 15) (v : Byte) (s : State) : Result :=
  transact hostTurn (.loadMemRam o v) s fun s =>
    whenPowered (ramAddr o) s fun s => .next (busWrite s (ramAddr o) v)

end Sys2Proof.Machine
end

