-- ==== Sys2Proof/Machine/Ports.lean ====
section
/-!
DEFINITION. The port transactions (41_bus.md R120 to R123) with the controller's handlers
(43_ula_ports.md R181, R185), the key events (R190, R191) and the host's border restore (R189). No port
access is contended.
-/

namespace Sys2Proof.Machine

/-- `KeyboardRead(p)` (R185), its auxiliary input level a fresh draw (R186). -/
def keyboardRead (p : Addr) (s : State) : State :=
  answerProc (keyboardByte s.pressed p (Config.earIn s.draws)) { s with draws := s.draws + 1 }

/-- `UlaWrite(v)` (R181, R182): bits 7..5 ignored, the level forwarded at every write. The checks of the
forward precede every effect: "the faulting transaction itself has made no change before the fault"
(60_exceptions.md R226; log entry 19). -/
def ulaWrite (v : Byte) (s : State) : Result :=
  match audioError (frameCycle s) s with
  | some e => raise e s
  | none =>
    .next (audioFill (speakerField v) (frameCycle s)
      (emit (.borderChanged (borderField v))
        { s with border := borderField v, micLevel := micField v, speakerLevel := speakerField v }))

/-- `UNCLAIMED_VALUE` (00_scope.md R6). -/
def unclaimedValue : Byte := 0xFF#8

/-- The value of a port the controller does not claim (41_bus.md R121). -/
def otherPortByte (cfg : Config) (p : Addr) : Byte := (cfg.expRead p).getD unclaimedValue

/-- IORD_ULA (R120). -/
def execIordUla (p : BitVec 15) (s : State) : Result :=
  transact processorTurn (.iordUla p) s fun s => .next (keyboardRead (ulaPort p) s)

/-- IORD_OTHER (R121). -/
def execIordOther (p : BitVec 15) (s : State) : Result :=
  transact processorTurn (.iordOther p) s fun s =>
    .next (answerProc (otherPortByte s.cfg (otherPort p)) s)

/-- IOWR_ULA (R122). -/
def execIowrUla (p : BitVec 15) (v : Byte) (s : State) : Result :=
  transact processorTurn (.iowrUla p v) s fun s => ulaWrite v s

/-- IOWR_OTHER (R123): "nothing changes in the block"; that expansions may observe it is log entry 24. -/
def execIowrOther (p : BitVec 15) (v : Byte) (s : State) : Result :=
  transact processorTurn (.iowrOther p v) s fun s => .next s

/-- A key event: an identifier of 40 or more is refused (43_ula_ports.md R190, R191; 30_encoding.md
R88). -/
def keyEvent (i : Instr) (k : BitVec 6) (update : List Nat → List Nat) (s : State) : Result :=
  transact hostTurn i s fun s =>
    if k.toNat < keyCount then .next { s with pressed := update s.pressed }
    else refuse (.badTransaction (encode i)) s

/-- KEYDN (R190). -/
def execKeydn (k : BitVec 6) (s : State) : Result := keyEvent (.keydn k) k (insertKey k.toNat) s

/-- KEYUP (R191). -/
def execKeyup (k : BitVec 6) (s : State) : Result := keyEvent (.keyup k) k (removeKey k.toNat) s

/-- SETBORDER (R189): no mic, speaker or audio effect. -/
def execSetborder (c : BitVec 3) (s : State) : Result :=
  transact hostTurn (.setborder c) s fun s =>
    .next (emit (.borderChanged c) { s with border := c })

end Sys2Proof.Machine
end

