-- ==== Sys2Proof/Machine/Power.lean ====
section
/-!
DEFINITION. Power (41_bus.md R133 to R135) with the power-on reset (70_reset_and_hazards.md R250).
-/

namespace Sys2Proof.Machine

/-- Give power notifications, in order. -/
def notify (ns : List PowerNotice) (s : State) : State := { s with powerLog := s.powerLog ++ ns }

/-- `ControllerPowerOn()` (R250). -/
def controllerPowerOn (s : State) : State :=
  { s with
    C := 0, V := 0, F := 0,
    flash := false, stall := 0, fetching := false, intLine := false,
    border := 0#3, micLevel := false, speakerLevel := false,
    borderLatch := 0#3, bitmapLatch := 0#8, attrLatch := 0#8,
    audLevel := false, audCursor := 0, audLastTs := 0 }

/-- PWRON's effect (R133): expansions in registration order, the controller's reset, the processor. -/
def powerOn (s : State) : State :=
  { notify [.processorOn]
      (notify [.controllerReset]
        (controllerPowerOn (notify (s.cfg.expansions.map .expansionOn) s))) with
    powered := true, ticked := false }

/-- PWROFF's effect (R134): the reverse order, and nothing while unpowered. -/
def powerOff (s : State) : State :=
  if s.powered then
    { notify (s.cfg.expansions.reverse.map .expansionOff)
        (notify [.processorOff, .controllerStop] s) with
      powered := false, ticked := false }
  else s

/-- PWRON (R133): the same sequence again while powered. -/
def execPwron (s : State) : Result := transact hostTurn .pwron s fun s => .next (powerOn s)

/-- PWROFF (R134). -/
def execPwroff (s : State) : Result := transact hostTurn .pwroff s fun s => .next (powerOff s)

end Sys2Proof.Machine
end

