-- ==== Sys2Proof/Machine/Tick.lean ====
section
/-!
DEFINITION. The tick (42_raster.md R140 to R154): video-fetch flag, pixel, interrupt line,
processor-rate unit, advance. A cycle in which the processor issues no access is over within the tick;
otherwise the tick stands at its step 4, the accesses run as the next transactions, and step 5 follows
the last of them (`closeCycle`; log entry 10).
-/

namespace Sys2Proof.Machine

/-! ### Rendering -/

/-- A pixel write: `pixbuf[Row(V)][C] <- index` (R153). -/
def putPixel (index : BitVec 4) (s : State) : State :=
  match s.cfg.row s.V with
  | some y => { s with pixbuf := Cells.write s.pixbuf (y * s.cfg.rasterWidth + s.C) index }
  | none => s

/-- Cell fetch at the first pixel of a cell (R150): the controller's own read, never contended. -/
def fetchCell (s : State) : State :=
  let b := (s.C - s.cfg.leftBorder) / 8
  if (s.C - s.cfg.leftBorder) % 8 = 0 then
    { s with
      bitmapLatch := s.vram.read (s.cfg.bitmapAddr s.V b - 0x4000),
      attrLatch := s.vram.read (s.cfg.attrAddr s.V b - 0x4000) }
  else s

/-- The bitmap pixel of the latched cell (R152). -/
def drawBitmap (s : State) : State :=
  putPixel (cellPixel s.bitmapLatch s.attrLatch s.flash ((s.C - s.cfg.leftBorder) % 8)) s

/-- `RenderBitmapPixel` (R150, R152, R153). -/
def renderBitmap (s : State) : State := drawBitmap (fetchCell s)

/-- The border sample at the start of an 8-pixel chunk (R154). -/
def sampleBorder (s : State) : State := if s.C % 8 = 0 then { s with borderLatch := s.border } else s

/-- The border pixel, bright 0 (R154). -/
def drawBorder (s : State) : State := putPixel (paletteIndex false s.borderLatch) s

/-- `RenderBorderPixel` (R154, R153). -/
def renderBorder (s : State) : State := drawBorder (sampleBorder s)

/-- Step 2 (R140): render the pixel of the current position, if it is visible. -/
def render (s : State) : State :=
  if s.cfg.visible s.V s.C then (if s.fetching then renderBitmap s else renderBorder s) else s

/-- Steps 1 to 3 (R140). -/
def video (s : State) : State := setIntLine (render (setFetching s))

/-! ### The processor-rate unit -/

/-- `GrantCycle` (R149): the processor's next cycle begins, offered the level of `int_line`. -/
def grantCycle (s : State) : State :=
  { s with
    grant := some (s.proc.headD ProcCycle.idle),
    proc := s.proc.tail,
    grants := s.grants ++ [s.intLine] }

/-- `ProcessorUnit` in both contention modes (R146, R147, R148). -/
def processorUnit (s : State) : State :=
  match s.cfg.contentionMode with
  | .perProcessorUnit =>
    if Config.processorUnit s.C then
      if 0 < s.stall then { s with stall := s.stall - 1 } else grantCycle s
    else s
  | .perTick =>
    if 0 < s.stall then { s with stall := s.stall - 1 }
    else if Config.processorUnit s.C then grantCycle s
    else s

/-- Steps 4 and 5 (R140): without a grant, advance; with one, advance when the cycle is over. -/
def unitAndAdvance (s : State) : Result :=
  let t := processorUnit s
  if t.grant.isSome then closeCycle t else .next (advance t)

/-- A powered tick (R140). -/
def poweredTick (s : State) : Result := unitAndAdvance (video s)

/-- TICK (R140); unpowered it changes nothing (R141). -/
def execTick (s : State) : Result :=
  transact hostTurn .tick s fun s => if s.powered then poweredTick s else .next s

end Sys2Proof.Machine
end

