-- ==== Sys2Proof/Machine/Dispatch.lean ====
section
/-!
DEFINITION. One arm per transaction (30_encoding.md R83, R97).
-/

namespace Sys2Proof.Machine

def exec (i : Instr) (s : State) : Host.Outcome State Fault Refusal :=
  match i with
  | .tick => Sys2Proof.Machine.execTick s
  | .mrdRom o => Sys2Proof.Machine.execMrdRom o s
  | .mrdVram o => Sys2Proof.Machine.execMrdVram o s
  | .mrdRam o => Sys2Proof.Machine.execMrdRam o s
  | .mwrRom o v => Sys2Proof.Machine.execMwrRom o v s
  | .mwrVram o v => Sys2Proof.Machine.execMwrVram o v s
  | .mwrRam o v => Sys2Proof.Machine.execMwrRam o v s
  | .iordUla p => Sys2Proof.Machine.execIordUla p s
  | .iordOther p => Sys2Proof.Machine.execIordOther p s
  | .iowrUla p v => Sys2Proof.Machine.execIowrUla p v s
  | .iowrOther p v => Sys2Proof.Machine.execIowrOther p v s
  | .peek a => Sys2Proof.Machine.execPeek a s
  | .poke a v => Sys2Proof.Machine.execPoke a v s
  | .keydn k => Sys2Proof.Machine.execKeydn k s
  | .keyup k => Sys2Proof.Machine.execKeyup k s
  | .pwron => Sys2Proof.Machine.execPwron s
  | .pwroff => Sys2Proof.Machine.execPwroff s
  | .loadRom o v => Sys2Proof.Machine.execLoadRom o v s
  | .loadMemVram o v => Sys2Proof.Machine.execLoadMemVram o v s
  | .loadMemRam o v => Sys2Proof.Machine.execLoadMemRam o v s
  | .setborder c => Sys2Proof.Machine.execSetborder c s
  | .audlvl lvl ts => Sys2Proof.Machine.execAudlvl lvl ts s
  | .audend => Sys2Proof.Machine.execAudend s

end Sys2Proof.Machine
end

