-- ==== Sys2Proof/Machine/Step.lean ====
section
/-!
DEFINITION. One step: the acting agent's next word is decoded and run (20_memory.md R60: one transaction
at a time, each complete before the next), and a granted cycle whose last access this was is closed.
-/

namespace Sys2Proof.Machine

/-- Decode and run one word; an illegal word is refused (30_encoding.md R88). -/
def runWord (w : TransWord) (s : State) : Host.Outcome State Fault Refusal :=
  match decode w with
  | .ok i => settle (exec i s)
  | .error _ => refuse (.badTransaction w) s

/-- One step of the machine. -/
def step (s : State) : Host.Outcome State Fault Refusal :=
  match s.fault with
  | some e => stuck e
  | none =>
    match fetch s with
    | some (w, t) => runWord w t
    | none => noWord s

/-- `s` with the word of the opcode table placed where `step` takes its next transaction. -/
def State.withFetchWord (s : State) (nbits w : Nat) : State := placeWord (tableWord nbits w) s

end Sys2Proof.Machine
end

