-- ==== Sys2Proof/Machine/Boot.lean ====
section
/-!
DEFINITION. Construction (60_exceptions.md R224; 41_bus.md R110): its checks with the error codes 1 to 5
of R221, the machine it yields, which machines it may yield (70_reset_and_hazards.md R251), and the host's
view of the pixel buffer (10_state.md R41; 70_reset_and_hazards.md R262).
-/

namespace Sys2Proof.Machine

/-- What the host constructs the machine with. `config.palette` is replaced by `palette`. -/
structure Setup where
  palette : Option (Vector Nat 16)
  /-- a bus reference is present -/
  bus : Bool
  /-- `ROM_IMAGE`, if there is one -/
  romImage : Option (List Byte)
  config : Config

/-- The configuration errors, with their recorded info (R221, codes 1 to 5). -/
inductive ConfigError
  /-- `E_CONFIG_NO_PALETTE` -/
  | noPalette
  /-- `E_CONFIG_NO_BUS` -/
  | noBus
  /-- `E_CONFIG_NO_ROM` -/
  | noRom
  /-- `E_CONFIG_ROM_SIZE`, the length -/
  | romSize (length : Nat)
  /-- `E_PARAM_INVALID`, the constraint; which one when several fail is log entry 25 -/
  | paramInvalid (c : Config.Constraint)
deriving DecidableEq, Repr

/-- The code column of R221. -/
def ConfigError.code : ConfigError → Nat
  | .noPalette => 1
  | .noBus => 2
  | .noRom => 3
  | .romSize _ => 4
  | .paramInvalid _ => 5

/-- The construction checks, in R224's order: what the machine is built from, or the first error. -/
def checkSetup (u : Setup) : Except ConfigError (Config × List Byte) :=
  match u.palette, u.bus, u.romImage with
  | none, _, _ => .error .noPalette
  | some _, false, _ => .error .noBus
  | some _, true, none => .error .noRom
  | some palette, true, some image =>
    if image.length ≠ Region.rom.size then .error (.romSize image.length)
    else match u.config.firstViolated with
      | some c => .error (.paramInvalid c)
      | none => .ok ({ u.config with palette := palette }, image)

/-- The machine after construction, its draws taken as `State.reset` takes them (log entry 3) and the
controller's and synthesizer's fields, which R251 leaves "any value", at 0 (log entry 18). -/
def constructed (cfg : Config) (image : List Byte) : State :=
  { State.reset with
    cfg := cfg, powered := false, rom := Cells.ofList 0 image,
    audBuf := List.replicate cfg.sampleCount false, powerLog := [] }

/-- Construction: "a failed check yields no machine" (R224). -/
def construct (u : Setup) : Except ConfigError State :=
  match checkSetup u with
  | .error e => .error e
  | .ok (cfg, image) => .ok (constructed cfg image)

/-- `s` is one of the states construction may leave (R251): `vram`, `ram`, `pixbuf`, `aud_buf` and the
fields of R250 are any values. -/
def MayConstruct (cfg : Config) (image : List Byte) (s : State) : Prop :=
  s.cfg = cfg ∧ s.powered = false ∧ s.fault = none ∧ s.rom = Cells.ofList 0 image ∧
    s.pressed = [] ∧ s.out = [] ∧ s.audBuf.length = cfg.sampleCount ∧ s.grant = none ∧
    s.frameEnded = false ∧ s.ticked = false

/-- The pixel-buffer entry `pixbuf[y][x]` (10_state.md R41). -/
def pixel (s : State) (y x : Nat) : BitVec 4 := Cells.read s.pixbuf (y * s.cfg.rasterWidth + x)

/-- The host colour of an entry, `PALETTE[pixbuf[y][x]]` (R41). -/
def hostColour (s : State) (y x : Nat) : Nat := s.cfg.palette[(pixel s y x).toFin]

/-- When the host may read the pixel buffer: after the tick whose step 5 wraps V to 0 and before the next
tick (70_reset_and_hazards.md R262; log entry 24). A power-on at V = C = 0 is not such a tick. -/
def betweenFrames (s : State) : Bool := s.frameEnded && s.grant.isNone

end Sys2Proof.Machine
end

