-- ==== Sys2Proof/Safety.lean ====
section
/-!
DEFINITION. The terms claims use: when a transaction may run (30_encoding.md R82; 60_exceptions.md R226),
the invariant of the machine, and the invariant of a machine that no harness drives (44_audio.md R206).
-/

namespace Sys2Proof.Machine

/-! ### When a transaction may run -/

/-- No fault and no refusal mark, and it is the host's turn: the host is the issuer, between ticks. -/
abbrev HostReady (s : State) : Prop := s.fault = none ∧ s.issuer = .host ∧ s.grant = none

/-- No fault and no refusal mark, and the processor issues inside a granted cycle. -/
abbrev ProcessorReady (s : State) : Prop :=
  s.fault = none ∧ s.issuer = .processor ∧ s.grant.isSome = true

/-- No fault and no refusal mark, and a harness drives the synthesizer alone: between ticks, the controller
having completed none since the last power event (log entry 12). -/
abbrev AudioReady (s : State) : Prop :=
  s.fault = none ∧ s.issuer = .harness ∧ s.grant = none ∧ s.ticked = false

/-- Who may issue which transaction, and when (30_encoding.md R82). -/
def turnOf : Instr → State → Bool
  | .mrdRom _ => processorTurn
  | .mrdVram _ => processorTurn
  | .mrdRam _ => processorTurn
  | .mwrRom _ _ => processorTurn
  | .mwrVram _ _ => processorTurn
  | .mwrRam _ _ => processorTurn
  | .iordUla _ => processorTurn
  | .iordOther _ => processorTurn
  | .iowrUla _ _ => processorTurn
  | .iowrOther _ _ => processorTurn
  | .tick => hostTurn
  | .peek _ => hostTurn
  | .poke _ _ => hostTurn
  | .keydn _ => hostTurn
  | .keyup _ => hostTurn
  | .pwron => hostTurn
  | .pwroff => hostTurn
  | .loadRom _ _ => hostTurn
  | .loadMemVram _ _ => hostTurn
  | .loadMemRam _ _ => hostTurn
  | .setborder _ => hostTurn
  | .audlvl _ _ => audioTurn
  | .audend => audioTurn

/-! ### The invariant -/

/-- `0 ≤ C < H_TOTAL`, `0 ≤ V < V_TOTAL` (10_state.md R21, R22). -/
abbrev RasterOk (s : State) : Prop := s.C < s.cfg.hTotal ∧ s.V < s.cfg.vTotal

/-- Every array keeps its canonical form and its size (R37 to R39, R41). -/
abbrev ArraysOk (s : State) : Prop :=
  s.rom.wf Region.rom.size = true ∧ s.vram.wf Region.vram.size = true ∧
    s.ram.wf Region.ram.size = true ∧
    Cells.wf (s.cfg.rasterWidth * s.cfg.rasterHeight) s.pixbuf = true

/-- N samples, the cursor at the slot of the last timestamp, which lies in the frame (R42; 44_audio.md
R201, R204, R206). -/
abbrev AudioOk (s : State) : Prop :=
  s.audBuf.length = s.cfg.sampleCount ∧ s.audCursor = s.cfg.sampleIndex s.audLastTs ∧
    s.audLastTs < s.cfg.frameCycles

/-- A granted cycle stands at step 4 of a powered tick: at a processor-rate unit, with `fetching` and
`int_line` as steps 1 and 3 set them (R29; 42_raster.md R140, R146). -/
abbrev CycleOk (s : State) : Prop :=
  s.grant.isSome = true →
    s.powered = true ∧ Config.processorUnit s.C = true ∧
      s.fetching = s.cfg.fetchWindow s.V s.C ∧ s.intLine = s.cfg.inPulse s.V s.C

/-- The faulted state: a fault of codes 6 to 9 (60_exceptions.md R226). A refusal mark is none. -/
def faulted (s : State) : Bool :=
  match s.fault with
  | some e => !e.isRefusal
  | none => false

/-- What holds of every state of the machine outside the faulted state. -/
abbrev Sound (s : State) : Prop :=
  s.cfg.valid = true ∧ RasterOk s ∧ ArraysOk s ∧ keysWf s.pressed = true ∧ AudioOk s ∧ CycleOk s

/-- The invariant: a state of the machine is sound, or it is the faulted state, of which nothing is known
(60_exceptions.md R226: "every other state field is any value"). -/
abbrev Inv (s : State) : Prop := faulted s = true ∨ Sound s

/-- No harness and no second controller has a transaction waiting. -/
abbrev HostDriven (s : State) : Prop := ∀ r ∈ s.pending, r.issuer = .host

/-- The synthesizer's last timestamp is not ahead of the frame-relative cycle count (44_audio.md R206). -/
abbrev TimestampOk (s : State) : Prop := s.audLastTs ≤ frameCycle s

/-! ### Sequences of transactions -/

/-- The state after the transactions `is`, run one after the other, if each answers a next state. -/
def runAll : List Instr → State → Option State
  | [], s => some s
  | i :: is, s =>
    match exec i s with
    | .next t => runAll is t
    | .fault _ => none
    | .refused _ => none

end Sys2Proof.Machine
end

