-- ==== Sys2Proof/Certificates/Slice0/Obligations.lean ====
section
/-!
DEFINITION. The statements for the provers. Each docstring names the rule of spec/ it formalises, or says
that it rests on a choice of the model and names the log entry.
-/

open Sys2Proof Sys2Proof.Machine

namespace Sys2Proof.Machine

/-! ### Words the statements use -/

/-- The state with the refusal mark of an illegal transaction word (60_exceptions.md R227, code 11). -/
abbrev markBad (w : TransWord) (s : State) : State := { s with fault := some (.badTransaction w) }

/-- The byte a memory transaction stores and where; none for a transaction, or an address, that stores
nothing (41_bus.md R115 to R117, R119, R130, R131). -/
def storeOf : Instr → Option (Addr × Byte)
  | .mwrVram o v => some (vramAddr o, v)
  | .mwrRam o v => some (ramAddr o, v)
  | .poke a v => if 0x4000 ≤ a.toNat then some (a, v) else none
  | .loadMemVram o v => some (vramAddr o, v)
  | .loadMemRam o v => some (ramAddr o, v)
  | .tick => none
  | .mrdRom _ => none
  | .mrdVram _ => none
  | .mrdRam _ => none
  | .mwrRom _ _ => none
  | .iordUla _ => none
  | .iordOther _ => none
  | .iowrUla _ _ => none
  | .iowrOther _ _ => none
  | .peek _ => none
  | .keydn _ => none
  | .keyup _ => none
  | .pwron => none
  | .pwroff => none
  | .loadRom _ _ => none
  | .setborder _ => none
  | .audlvl _ _ => none
  | .audend => none

/-- The border colours of the border events in a stretch of the output history. -/
def borderEvents (es : List Event) : List (BitVec 3) :=
  es.filterMap fun e => match e with
    | .borderChanged c => some c
    | .audioFrame _ => none

/-- The transactions that write the border colour from an operand (10_state.md R25). -/
def writesBorder : Instr → Bool
  | .iowrUla _ _ => true
  | .setborder _ => true
  | .tick => false
  | .mrdRom _ => false
  | .mrdVram _ => false
  | .mrdRam _ => false
  | .mwrRom _ _ => false
  | .mwrVram _ _ => false
  | .mwrRam _ _ => false
  | .iordUla _ => false
  | .iordOther _ => false
  | .iowrOther _ _ => false
  | .peek _ => false
  | .poke _ _ => false
  | .keydn _ => false
  | .keyup _ => false
  | .pwron => false
  | .pwroff => false
  | .loadRom _ _ => false
  | .loadMemVram _ _ => false
  | .loadMemRam _ _ => false
  | .audlvl _ _ => false
  | .audend => false

/-- The host may tick, and the machine is powered. -/
abbrev TickReady (s : State) : Prop := HostReady s ∧ s.powered = true

/-- No cycle is granted by a tick from this state (42_raster.md R147, R148), or the granted one issues no
access and reports one cycle. -/
abbrev NoGrantOrIdleCycle (s : State) : Prop :=
  0 < s.stall ∨ s.C % 2 = 1 ∨ s.proc.headD ProcCycle.idle = ProcCycle.idle

/-- Step 5 of the tick has not run: what it writes is as it was (42_raster.md R155 to R158; 44_audio.md
R205). -/
abbrev BeforeStepFive (s t : State) : Prop :=
  t.C = s.C ∧ t.V = s.V ∧ t.F = s.F ∧ t.flash = s.flash ∧ t.out = s.out ∧ t.audBuf = s.audBuf ∧
    t.audCursor = s.audCursor ∧ t.audLastTs = s.audLastTs ∧ t.frameEnded = s.frameEnded ∧
    t.ticked = s.ticked

/-- The state is one of construction's outcomes and the host issues. -/
abbrev JustConstructed (cfg : Config) (image : List Byte) (s : State) : Prop :=
  MayConstruct cfg image s ∧ s.issuer = .host

/-- What slot `k` of a frame holds: the level of the last change whose sample index is at most `k`, or
the level carried in (44_audio.md R207). -/
def levelAtSlot (cfg : Config) (changes : List (Bool × BitVec 24)) (carried : Bool) (k : Nat) : Bool :=
  match (changes.filter fun c => cfg.sampleIndex c.2.toNat ≤ k).getLast? with
  | some c => c.1
  | none => carried

end Sys2Proof.Machine

/-! ### Encoding -/

/-- Decode and encode agree: every well-formed transaction, with every operand value its row admits, is
what its word decodes to (30_encoding.md R80, R81, R83, R97). -/
def Obligations.DecodeOfEncodeIsIdentity : Prop :=
  ∀ i : Instr, i.wellFormed = true → decode (encode i) = .ok i

/-- The other direction: a word that decodes is the word of what it decodes to, so no bit of a word is
ignored and no two words share a meaning (30_encoding.md R80, R87, R88). -/
def Obligations.DecodedWordEncodesBack : Prop :=
  ∀ (w : TransWord) (i : Instr), decode w = .ok i → i.wellFormed = true ∧ encode i = w

/-- The decoder accepts exactly the words of the opcode table's rows, less the key identifiers from 40 on
(30_encoding.md R87, R88, R97). -/
def Obligations.DecoderAcceptsExactlyTheTable : Prop :=
  ∀ w : TransWord, (∃ i, decode w = .ok i) ↔
    (∃ r ∈ opcodeRows, r.has w = true) ∧
      (kindOf w = 0x7#4 ∨ kindOf w = 0x8#4 → (dataOf w).toNat < 40)

/-- Region selection by `A[15:14]` for MRD, MWR and LOAD, and by the map inside PEEK and POKE
(30_encoding.md R84). -/
def Obligations.RegionSelectedByTopAddressBits : Prop :=
  ∀ (a : Addr) (v : Byte),
    (a.extractLsb' 14 2 = 0b00#2 →
      decode (wordT 0x1#4 a 0#8) = .ok (.mrdRom (a.extractLsb' 0 14)) ∧
      decode (wordT 0x2#4 a v) = .ok (.mwrRom (a.extractLsb' 0 14) v) ∧
      decode (wordT 0xB#4 a v) = .ok (.loadRom (a.extractLsb' 0 14) v) ∧
      mapAddr a = (.rom, (a.extractLsb' 0 14).toNat, .readOnly)) ∧
    (a.extractLsb' 14 2 = 0b01#2 →
      decode (wordT 0x1#4 a 0#8) = .ok (.mrdVram (a.extractLsb' 0 14)) ∧
      decode (wordT 0x2#4 a v) = .ok (.mwrVram (a.extractLsb' 0 14) v) ∧
      decode (wordT 0xB#4 a v) = .ok (.loadMemVram (a.extractLsb' 0 14) v) ∧
      mapAddr a = (.vram, (a.extractLsb' 0 14).toNat, .readWrite)) ∧
    (a.extractLsb' 14 2 = 0b10#2 ∨ a.extractLsb' 14 2 = 0b11#2 →
      decode (wordT 0x1#4 a 0#8) = .ok (.mrdRam (a.extractLsb' 0 15)) ∧
      decode (wordT 0x2#4 a v) = .ok (.mwrRam (a.extractLsb' 0 15) v) ∧
      decode (wordT 0xB#4 a v) = .ok (.loadMemRam (a.extractLsb' 0 15) v) ∧
      mapAddr a = (.ram, (a.extractLsb' 0 15).toNat, .readWrite))

/-- Port claim by `A[0]`, every other port address bit ignored by it (30_encoding.md R85; 20_memory.md
R58). -/
def Obligations.PortClaimedByBitZero : Prop :=
  ∀ (p : Addr) (v : Byte),
    (p.getLsbD 0 = false →
      decode (wordT 0x3#4 p 0#8) = .ok (.iordUla (p.extractLsb' 1 15)) ∧
      decode (wordT 0x4#4 p v) = .ok (.iowrUla (p.extractLsb' 1 15) v)) ∧
    (p.getLsbD 0 = true →
      decode (wordT 0x3#4 p 0#8) = .ok (.iordOther (p.extractLsb' 1 15)) ∧
      decode (wordT 0x4#4 p v) = .ok (.iowrOther (p.extractLsb' 1 15) v))

/-- Words written out in 95_test_vectors.md section 2.1, one or more of every family, and illegal ones. -/
def Obligations.SpecSampleWordsDecode : Prop :=
  decode 0x00000000#32 = .ok .tick ∧
  decode 0x10500000#32 = .ok (.mrdVram 0x1000#14) ∧
  decode 0x10900000#32 = .ok (.mrdRam 0x1000#15) ∧
  decode 0x204000FF#32 = .ok (.mwrVram 0#14 0xFF#8) ∧
  decode 0x30FEFE00#32 = .ok (.iordUla 0x7F7F#15) ∧
  decode 0x40001F00#32 = .ok (.iowrOther 0x000F#15 0x00#8) ∧
  decode 0x70000027#32 = .ok (.keydn 39#6) ∧
  decode 0xB0C00055#32 = .ok (.loadMemRam 0x4000#15 0x55#8) ∧
  decode 0xC0000005#32 = .ok (.setborder 5#3) ∧
  decode 0xD00003E8#32 = .ok (.audlvl false 1000#24) ∧
  decode 0xF0000000#32 = .error .reservedKind ∧
  decode 0x70000028#32 = .error .keyOutOfRange

/-! ### The step, refusals and faults -/

/-- A step runs the decoded transaction: between ticks the oldest waiting request, inside a granted cycle
the processor's next access (20_memory.md R60; the queues are the model's, log entries 1 and 9). The
step adds one thing to `exec`: after a granted cycle's last access it closes the cycle, which is step 5 of
the tick when one cycle is reported (42_raster.md R140, R149; log entry 10), and nothing after a fault or a
refusal. -/
def Obligations.StepRunsTheDecodedTransaction : Prop :=
  ∀ (s : State) (i : Instr),
    (s.fault = none →
      (∀ r rs, s.grant = none → s.pending = r :: rs → decode r.word = .ok i →
        step s = settle (exec i { s with issuer := r.issuer, pending := rs })) ∧
      (∀ w ws k, s.grant = some ⟨w :: ws, k⟩ → decode w = .ok i →
        step s = settle (exec i { s with issuer := .processor, grant := some ⟨ws, k⟩ })) ∧
      (s.grant = some ⟨[], 1⟩ → settle (.next s) = .next (advance { s with grant := none })) ∧
      (∀ k, k ≠ 1 → s.grant = some ⟨[], k⟩ →
        settle (.next s) = .next { s with fault := some (.procCycleCount k) }) ∧
      ((∀ k, s.grant ≠ some ⟨[], k⟩) → settle (.next s) = .next s)) ∧
    (s.fault ≠ none → settle (.next s) = .next s)

/-- An illegal word is refused with `E_BAD_TRANSACTION` and changes no state but the refusal mark and the
model's own record that the word was taken (30_encoding.md R88; 60_exceptions.md R227; log entry 8). -/
def Obligations.IllegalWordRefusedWithoutEffect : Prop :=
  ∀ s : State, s.fault = none →
    (∀ r rs e, s.grant = none → s.pending = r :: rs → decode r.word = .error e →
      step s = .next (markBad r.word { s with issuer := r.issuer, pending := rs })) ∧
    (∀ w ws k e, s.grant = some ⟨w :: ws, k⟩ → decode w = .error e →
      step s = .next (markBad w { s with issuer := .processor, grant := some ⟨ws, k⟩ }))

/-- After a fault or a refusal no transaction has a step (60_exceptions.md R226, R227). -/
def Obligations.NoStepAfterFaultOrRefusal : Prop :=
  ∀ (s : State) (e : Error), s.fault = some e →
    (∀ i, exec i s = if e.isRefusal then .refused (.marked e) else .fault (.faulted e)) ∧
    step s = if e.isRefusal then .refused (.marked e) else .fault (.faulted e)

/-- Who may issue each kind, and when; anything else is refused (30_encoding.md R82). AUDLVL and AUDEND are
refused from everyone but a harness driving the synthesizer alone: so a harness's inside a granted cycle or
once the controller has completed a tick since the last power event, and every word in the controller's name
outside its own calls in IOWR_ULA and TICK. What driving alone means, and the mark that holds it, which step 5
sets, power events clear and every other transaction leaves, are the model's (log entry 12). -/
def Obligations.WrongIssuerOrTimeRefused : Prop :=
  (∀ (i : Instr) (s : State), s.fault = none →
    (1 ≤ (kindOf (encode i)).toNat ∧ (kindOf (encode i)).toNat ≤ 4 →
      ¬ (s.issuer = .processor ∧ s.grant.isSome = true) → exec i s = .next (markBad (encode i) s)) ∧
    ((kindOf (encode i)).toNat = 0 ∨ 5 ≤ (kindOf (encode i)).toNat ∧ (kindOf (encode i)).toNat ≤ 0xC →
      ¬ (s.issuer = .host ∧ s.grant = none) → exec i s = .next (markBad (encode i) s)) ∧
    ((kindOf (encode i)).toNat = 0xD ∨ (kindOf (encode i)).toNat = 0xE →
      ¬ (s.issuer = .harness ∧ s.grant = none ∧ s.ticked = false) →
        exec i s = .next (markBad (encode i) s))) ∧
  (∀ s : State, (advance s).ticked = true) ∧
  (∀ (i : Instr) (s t : State), exec i s = .next t → t.fault = none →
    (i = .pwron → t.ticked = false) ∧ (i = .pwroff → s.powered = true → t.ticked = false) ∧
    (i ≠ .tick → i ≠ .pwron → i ≠ .pwroff → t.ticked = s.ticked))

/-! ### Memory -/

/-- Processor reads of the three regions: the byte is returned, and a read of VRAM adds six credits
exactly while `fetching`; nothing else changes; outside a granted cycle they are refused (41_bus.md R112,
R113, R114). -/
def Obligations.ProcessorReadsReturnByteAndContend : Prop :=
  ∀ s : State,
    (ProcessorReady s →
      (∀ o, exec (.mrdRom o) s =
        .next { s with procReplies := s.procReplies ++ [s.rom.read o.toNat] }) ∧
      (∀ o, exec (.mrdVram o) s =
        .next { s with
          stall := if s.fetching then s.stall + 6 else s.stall,
          procReplies := s.procReplies ++ [s.vram.read o.toNat] }) ∧
      (∀ o, exec (.mrdRam o) s =
        .next { s with procReplies := s.procReplies ++ [s.ram.read o.toNat] })) ∧
    (s.fault = none → s.grant = none →
      (∀ o, exec (.mrdRom o) s = .next (markBad (encode (.mrdRom o)) s)) ∧
      (∀ o, exec (.mrdVram o) s = .next (markBad (encode (.mrdVram o)) s)) ∧
      (∀ o, exec (.mrdRam o) s = .next (markBad (encode (.mrdRam o)) s)))

/-- Processor writes: ROM ignores them, VRAM and RAM store the byte, a write to VRAM adds six credits
exactly while `fetching`; nothing else changes (41_bus.md R115, R116, R117). -/
def Obligations.ProcessorWritesStoreByteAndContend : Prop :=
  ∀ s : State, ProcessorReady s →
    (∀ o v, exec (.mwrRom o v) s = .next s) ∧
    (∀ o v, exec (.mwrVram o v) s =
      .next { s with
        stall := if s.fetching then s.stall + 6 else s.stall,
        vram := s.vram.write o.toNat v }) ∧
    (∀ o v, exec (.mwrRam o v) s = .next { s with ram := s.ram.write o.toNat v })

/-- The stall counter changes only by a contended access, a consumed credit and power-on: no port access,
no host access and no access outside the window touches it (42_raster.md R144; 10_state.md R27). -/
def Obligations.StallWrittenOnlyByContentionTickAndPowerOn : Prop :=
  ∀ (i : Instr) (s t : State), exec i s = .next t → t.fault = none →
    t.stall = s.stall ∨
    (i = .tick ∧ t.stall + 1 = s.stall) ∨
    (i = .pwron ∧ t.stall = 0) ∨
    (s.fetching = true ∧ t.stall = s.stall + 6 ∧ ∃ o : BitVec 14, i = .mrdVram o ∨ ∃ v, i = .mwrVram o v)

/-- The memory map and the bus over it, at every address (41_bus.md R111). -/
def Obligations.MemoryMapOfThreeFixedRanges : Prop :=
  ∀ (s : State) (a : Addr) (v : Byte),
    (a.toNat < 0x4000 →
      mapAddr a = (.rom, a.toNat, .readOnly) ∧ busRead s a = s.rom.read a.toNat ∧ busWrite s a v = s) ∧
    (0x4000 ≤ a.toNat → a.toNat < 0x8000 →
      mapAddr a = (.vram, a.toNat - 0x4000, .readWrite) ∧
      busRead s a = s.vram.read (a.toNat - 0x4000) ∧
      busWrite s a v = { s with vram := s.vram.write (a.toNat - 0x4000) v }) ∧
    (0x8000 ≤ a.toNat →
      mapAddr a = (.ram, a.toNat - 0x8000, .readWrite) ∧
      busRead s a = s.ram.read (a.toNat - 0x8000) ∧
      busWrite s a v = { s with ram := s.ram.write (a.toNat - 0x8000) v })

/-- PEEK returns the byte of any address, ROM too, powered or not, and changes nothing else (41_bus.md
R118). -/
def Obligations.PeekReturnsTheByte : Prop :=
  ∀ (s : State) (a : Addr), HostReady s →
    exec (.peek a) s = .next { s with hostReplies := s.hostReplies ++ [
      if a.toNat < 0x4000 then s.rom.read a.toNat
      else if a.toNat < 0x8000 then s.vram.read (a.toNat - 0x4000)
      else s.ram.read (a.toNat - 0x8000)] }

/-- POKE is ignored for ROM and stored for VRAM and RAM with no other effect, and a PEEK of the same
address then returns the poked byte, or the ROM's (41_bus.md R119). -/
def Obligations.PokeThenPeekReturnsThePokedByte : Prop :=
  ∀ (s : State) (a : Addr) (v : Byte), HostReady s →
    ∃ t, exec (.poke a v) s = .next t ∧
      t = (if a.toNat < 0x4000 then s
        else if a.toNat < 0x8000 then { s with vram := s.vram.write (a.toNat - 0x4000) v }
        else { s with ram := s.ram.write (a.toNat - 0x8000) v }) ∧
      exec (.peek a) t = .next { t with hostReplies := s.hostReplies ++ [
        if a.toNat < 0x4000 then s.rom.read a.toNat else v] }

/-- The frame of memory, for every transaction: the byte stored is the one named, at the address named,
and every other address reads as before (41_bus.md R111 to R119, R131). -/
def Obligations.StoresChangeOnlyTheirByte : Prop :=
  ∀ (i : Instr) (s t : State), exec i s = .next t → t.fault = none →
    (∀ a v, storeOf i = some (a, v) → busRead t a = v) ∧
    (∀ b, (∀ v, storeOf i ≠ some (b, v)) → busRead t b = busRead s b)

/-- No transaction writes the ROM, and the configuration is fixed: true of every step, faulting ones
included (10_state.md R37; 41_bus.md R110; that a fault keeps the ROM is log entry 7). -/
def Obligations.RomAndConfigurationNeverChange : Prop :=
  ∀ s t : State, step s = .next t → t.rom = s.rom ∧ t.cfg = s.cfg

/-- LOAD_MEM writes its byte when powered, with no contention and no event, and faults with
`E_LOAD_NOT_POWERED` otherwise (41_bus.md R131). -/
def Obligations.LoadMemWritesWhenPowered : Prop :=
  ∀ s : State, HostReady s →
    (s.powered = true →
      (∀ o v, exec (.loadMemVram o v) s = .next { s with vram := s.vram.write o.toNat v }) ∧
      (∀ o v, exec (.loadMemRam o v) s = .next { s with ram := s.ram.write o.toNat v })) ∧
    (s.powered = false →
      (∀ o v, ∃ t, exec (.loadMemVram o v) s = .next t ∧
        t.fault = some (.loadNotPowered (vramAddr o))) ∧
      (∀ o v, ∃ t, exec (.loadMemRam o v) s = .next t ∧
        t.fault = some (.loadNotPowered (ramAddr o))))

/-- LOAD_ROM takes the fault, power checked before the address; the ROM keeps its bytes and the events
already given stand (41_bus.md R130; 60_exceptions.md R226, R228; 10_state.md R37, R44; what a fault keeps
is log entry 7). -/
def Obligations.LoadRomTakesTheFault : Prop :=
  ∀ (s : State) (o : BitVec 14) (v : Byte), HostReady s →
    ∃ t, exec (.loadRom o v) s = .next t ∧
      t.fault = some (if s.powered then .loadRomOverwrite (romAddr o) else .loadNotPowered (romAddr o)) ∧
      t.rom = s.rom ∧ ∃ es, t.out = s.out ++ es

/-! ### Ports, keyboard, border -/

/-- A read of a claimed port returns the keyboard byte: bits 7 and 5 set, bit 6 the draw `EAR_IN`, bit c of
4..0 clear exactly when a half-row whose address bit is 0 has its column-c key pressed; no state changes
but the model's own record of the answer and of the draw (41_bus.md R120; 43_ula_ports.md R185). -/
def Obligations.ClaimedPortReadReturnsKeyboard : Prop :=
  ∀ (s : State) (p : BitVec 15), ProcessorReady s →
    ∃ b : Byte,
      exec (.iordUla p) s =
        .next { s with procReplies := s.procReplies ++ [b], draws := s.draws + 1 } ∧
      b.getLsbD 7 = true ∧ b.getLsbD 5 = true ∧ b.getLsbD 6 = Config.earIn s.draws ∧
      ∀ c < 5, (b.getLsbD c = false ↔
        ∃ r < 8, (ulaPort p).getLsbD (8 + r) = false ∧ 5 * r + c ∈ s.pressed)

/-- With `EAR_IN = 1` a keyboard read is 0xFF exactly when no selected half-row has a pressed key, and
`0xE0 | keys` always; with `EAR_IN = 0` it is `0xA0 | keys` (43_ula_ports.md R187). -/
def Obligations.KeyboardByteIsAllOnesWithoutKeys : Prop :=
  ∀ (pressed : List Nat) (p : Addr),
    (keyboardByte pressed p true = 0xFF#8 ↔
      ∀ r < 8, ∀ c < 5, p.getLsbD (8 + r) = false → 5 * r + c ∉ pressed) ∧
    keyboardByte pressed p true = 0xE0#8 ||| (keyBits pressed (halfRowSelect p)).setWidth 8 ∧
    keyboardByte pressed p false = 0xA0#8 ||| (keyBits pressed (halfRowSelect p)).setWidth 8

/-- A read of an unclaimed port returns what an attached expansion supplies, else 0xFF, and with no
expansion attached always 0xFF (41_bus.md R121). -/
def Obligations.UnclaimedPortReadReturnsExpansionOrDefault : Prop :=
  ∀ (s : State) (p : BitVec 15), ProcessorReady s →
    exec (.iordOther p) s = .next { s with procReplies := s.procReplies ++ [
      match s.cfg.expRead (otherPort p) with
      | some b => b
      | none => 0xFF#8] } ∧
    (s.cfg.expansions = [] → s.cfg.expRead (otherPort p) = none)

/-- A write to a claimed port: border, MIC and speaker from bits 2..0, 3 and 4, a border event, and the
speaker level forwarded to the synthesizer with the frame-relative cycle count; bits 7..5 and the port's
other bits ignored; nothing else changes. A timestamp below the synthesizer's last one, or past the frame's
end, faults (43_ula_ports.md R181). -/
def Obligations.ClaimedPortWriteSetsBorderMicSpeaker : Prop :=
  ∀ (s : State) (p : BitVec 15) (v : Byte), ProcessorReady s →
    (s.audLastTs ≤ (s.V * s.cfg.hTotal + s.C) / 2 →
      (s.V * s.cfg.hTotal + s.C) / 2 < s.cfg.frameCycles →
      exec (.iowrUla p v) s = .next { s with
        border := v.extractLsb' 0 3,
        out := s.out ++ [.borderChanged (v.extractLsb' 0 3)],
        micLevel := v.getLsbD 3,
        speakerLevel := v.getLsbD 4,
        audBuf := fillSlots s.audBuf s.audCursor
          (s.cfg.sampleIndex ((s.V * s.cfg.hTotal + s.C) / 2)) s.audLevel,
        audCursor := max s.audCursor (s.cfg.sampleIndex ((s.V * s.cfg.hTotal + s.C) / 2)),
        audLevel := v.getLsbD 4,
        audLastTs := (s.V * s.cfg.hTotal + s.C) / 2 }) ∧
    ((s.V * s.cfg.hTotal + s.C) / 2 < s.audLastTs →
      ∃ t, exec (.iowrUla p v) s = .next t ∧
        t.fault = some (.audioTsDecreasing ((s.V * s.cfg.hTotal + s.C) / 2) s.audLastTs)) ∧
    (s.audLastTs ≤ (s.V * s.cfg.hTotal + s.C) / 2 →
      s.cfg.frameCycles ≤ (s.V * s.cfg.hTotal + s.C) / 2 →
      ∃ t, exec (.iowrUla p v) s = .next t ∧
        t.fault = some (.audioTsRange ((s.V * s.cfg.hTotal + s.C) / 2)))

/-- A write to an unclaimed port changes nothing in the block (41_bus.md R123). -/
def Obligations.UnclaimedPortWriteChangesNothing : Prop :=
  ∀ (s : State) (p : BitVec 15) (v : Byte), ProcessorReady s → exec (.iowrOther p v) s = .next s

/-- Key events are set insertion and removal and nothing else, idempotent; identifiers from 40 on are
refused (43_ula_ports.md R190, R191). -/
def Obligations.KeyEventsInsertAndRemove : Prop :=
  ∀ (s : State) (k : BitVec 6), HostReady s →
    (k.toNat < 40 →
      (∃ ks, exec (.keydn k) s = .next { s with pressed := ks } ∧
        ∀ j, j ∈ ks ↔ j = k.toNat ∨ j ∈ s.pressed) ∧
      (∃ ks, exec (.keyup k) s = .next { s with pressed := ks } ∧
        ∀ j, j ∈ ks ↔ j ∈ s.pressed ∧ j ≠ k.toNat) ∧
      (keysWf s.pressed = true → k.toNat ∈ s.pressed → exec (.keydn k) s = .next s) ∧
      (k.toNat ∉ s.pressed → exec (.keyup k) s = .next s)) ∧
    (40 ≤ k.toNat →
      exec (.keydn k) s = .next (markBad (encode (.keydn k)) s) ∧
      exec (.keyup k) s = .next (markBad (encode (.keyup k)) s))

/-- SETBORDER sets the border colour and emits its event; nothing else changes, powered or not
(43_ula_ports.md R189). -/
def Obligations.SetBorderSetsColourAndEmits : Prop :=
  ∀ (s : State) (c : BitVec 3), HostReady s →
    exec (.setborder c) s = .next { s with border := c, out := s.out ++ [.borderChanged c] }

/-- Every claimed port write and every SETBORDER appends exactly one border event, carrying the new border
colour, and leaves the pixel buffer; no other transaction appends one (43_ula_ports.md R182). -/
def Obligations.BorderEventAtEveryBorderWrite : Prop :=
  ∀ (i : Instr) (s t : State), exec i s = .next t → t.fault = none →
    ∃ es, t.out = s.out ++ es ∧
      (writesBorder i = true → es = [.borderChanged t.border] ∧ t.pixbuf = s.pixbuf) ∧
      (writesBorder i = false → borderEvents es = [])

/-- The border colour is written by the claimed port write, SETBORDER and power-on alone, and the pressed
keys by KEYDN and KEYUP alone (10_state.md R25, R30). -/
def Obligations.BorderAndKeysHaveNoOtherWriter : Prop :=
  ∀ (i : Instr) (s t : State), exec i s = .next t → t.fault = none →
    (writesBorder i = false → i ≠ .pwron → t.border = s.border) ∧
    ((∀ k, i ≠ .keydn k) → (∀ k, i ≠ .keyup k) → t.pressed = s.pressed)

/-! ### Power and construction -/

/-- PWRON's reset of the controller, powered or not: every field the rule lists takes its value, `powered`
is set, and memory, pixel buffer, sample buffer, pressed keys, output history and everything else but two of
the model's own fields, `powerLog` and `ticked`, are unchanged (70_reset_and_hazards.md R250). -/
def Obligations.PowerOnResetsTheController : Prop :=
  ∀ s : State, HostReady s →
    ∃ log tk, exec .pwron s = .next { s with
      C := 0, V := 0, F := 0, flash := false, stall := 0, fetching := false, intLine := false,
      border := 0#3, micLevel := false, speakerLevel := false,
      borderLatch := 0#3, bitmapLatch := 0#8, attrLatch := 0#8,
      audLevel := false, audCursor := 0, audLastTs := 0, powered := true,
      powerLog := log, ticked := tk }

/-- PWROFF clears `powered` and changes no other field but two of the model's own, `powerLog` and `ticked`;
while unpowered it changes nothing (41_bus.md R134; log entries 12 and 13). -/
def Obligations.PowerOffKeepsTheRest : Prop :=
  ∀ s : State, HostReady s →
    (s.powered = true → ∃ log tk, exec .pwroff s =
      .next { s with powered := false, powerLog := log, ticked := tk }) ∧
    (s.powered = false → exec .pwroff s = .next s)

/-- The order of the power notifications: PWRON tells the expansions in registration order, then resets the
controller, then tells the processor, powered or not; PWROFF runs the reverse order, and tells nobody while
unpowered (41_bus.md R133, R134, R135; the record of notifications is the model's, log entry 13). -/
def Obligations.PowerNotificationsInOrder : Prop :=
  ∀ s : State, HostReady s →
    (∃ t, exec .pwron s = .next t ∧ t.powerLog =
      s.powerLog ++ s.cfg.expansions.map .expansionOn ++ [.controllerReset, .processorOn]) ∧
    (∃ t, exec .pwroff s = .next t ∧ t.powerLog =
      s.powerLog ++ if s.powered then
        [.processorOff, .controllerStop] ++ s.cfg.expansions.reverse.map .expansionOff else [])

/-- Power-on after construction, whatever the fields that construction leaves open: the reset values, ROM
image, no key pressed and no event (70_reset_and_hazards.md R250, R251, R252). -/
def Obligations.PowerOnAfterConstructionGivesResetValues : Prop :=
  ∀ (cfg : Config) (image : List Byte) (s : State), JustConstructed cfg image s →
    ∃ t, exec .pwron s = .next t ∧ t.powered = true ∧ t.fault = none ∧
      t.C = 0 ∧ t.V = 0 ∧ t.F = 0 ∧ t.flash = false ∧ t.stall = 0 ∧ t.fetching = false ∧
      t.intLine = false ∧ t.border = 0#3 ∧ t.micLevel = false ∧ t.speakerLevel = false ∧
      t.borderLatch = 0#3 ∧ t.bitmapLatch = 0#8 ∧ t.attrLatch = 0#8 ∧
      t.audLevel = false ∧ t.audCursor = 0 ∧ t.audLastTs = 0 ∧
      t.pressed = [] ∧ t.out = [] ∧ t.vram = s.vram ∧ t.ram = s.ram ∧ t.pixbuf = s.pixbuf ∧
      ∀ k < 16384, t.rom.read k = image.getD k 0#8

/-- The construction checks, in their order, each with its error; when all pass, the machine is
unpowered, without fault, and its ROM is the image (60_exceptions.md R224; 41_bus.md R110). -/
def Obligations.ConstructionChecksInOrder : Prop :=
  ∀ u : Setup,
    (u.palette = none → construct u = .error .noPalette) ∧
    (u.palette ≠ none → u.bus = false → construct u = .error .noBus) ∧
    (u.palette ≠ none → u.bus = true → u.romImage = none → construct u = .error .noRom) ∧
    (∀ image, u.palette ≠ none → u.bus = true → u.romImage = some image →
      (image.length ≠ 16384 → construct u = .error (.romSize image.length)) ∧
      (image.length = 16384 → u.config.valid = false →
        ∃ c, u.config.meets c = false ∧ construct u = .error (.paramInvalid c)) ∧
      (image.length = 16384 → u.config.valid = true →
        ∃ cfg s, construct u = .ok s ∧ MayConstruct cfg image s ∧ u.palette = some cfg.palette ∧
          cfg = { u.config with palette := cfg.palette } ∧ s.rom.wf 16384 = true ∧
          ∀ k < 16384, s.rom.read k = image.getD k 0#8))

/-! ### The tick -/

/-- A tick while unpowered changes nothing (42_raster.md R141). -/
def Obligations.UnpoweredTickChangesNothing : Prop :=
  ∀ s : State, HostReady s → s.powered = false → exec .tick s = .next s

/-- Every powered tick completes and leaves `fetching` and `int_line` as the position it started from says
(42_raster.md R145, and the formula of R160). -/
def Obligations.TickSetsFetchingAndInterruptLine : Prop :=
  ∀ s : State, TickReady s →
    ∃ t, exec .tick s = .next t ∧
      (t.fetching = true ↔
        s.V < s.cfg.activeHeight ∧ s.cfg.leftBorder ≤ s.C ∧ s.C < s.cfg.leftBorder + 256) ∧
      (t.intLine = true ↔
        (s.cfg.activeHeight + s.cfg.bottomBorder) * s.cfg.hTotal ≤ s.V * s.cfg.hTotal + s.C ∧
        s.V * s.cfg.hTotal + s.C <
          (s.cfg.activeHeight + s.cfg.bottomBorder) * s.cfg.hTotal + 2 * s.cfg.intPulseCycles)

/-- Step 5 of a tick adds 1 to C, wrapping at `H_TOTAL` into V and at `V_TOTAL` to 0, so the linear position
goes up by one modulo `FRAME_TICKS`; a powered tick that grants no cycle or an idle one ends with step
5 (42_raster.md R155, R156; 10_state.md R45). After a cycle with accesses the same step 5 follows
the last access (`StepRunsTheDecodedTransaction`). -/
def Obligations.TickAdvancesTheRaster : Prop :=
  ∀ s : State, RasterOk s →
    ((advance s).C = (if s.C + 1 = s.cfg.hTotal then 0 else s.C + 1) ∧
      (advance s).V =
        (if s.C + 1 = s.cfg.hTotal then (if s.V + 1 = s.cfg.vTotal then 0 else s.V + 1) else s.V) ∧
      RasterOk (advance s) ∧
      s.cfg.position (advance s).V (advance s).C = (s.cfg.position s.V s.C + 1) % s.cfg.frameTicks) ∧
    (TickReady s → NoGrantOrIdleCycle s →
      ∃ t, exec .tick s = .next t ∧ t.fault = none ∧ t.grant = none ∧
        t.C = (advance s).C ∧ t.V = (advance s).V)

/-- At the frame's last position, and only there, step 5 counts the frame (F from 15 to 0 toggling `flash`)
and ends the synthesizer's frame once; a powered tick that grants no cycle or an idle one does so (42_raster.md R157, R158; 44_audio.md R205). -/
def Obligations.TickCountsFramesAndEndsAudioFrame : Prop :=
  ∀ s t : State, RasterOk s →
    (t = advance s ∨ TickReady s ∧ NoGrantOrIdleCycle s ∧ exec .tick s = .next t) →
    (s.C + 1 = s.cfg.hTotal ∧ s.V + 1 = s.cfg.vTotal →
      (s.F = 15 → t.F = 0 ∧ t.flash = !s.flash) ∧
      (s.F ≠ 15 → t.F.val = s.F.val + 1 ∧ t.flash = s.flash) ∧
      t.out = s.out ++ [.audioFrame t.audBuf] ∧ t.audCursor = 0 ∧ t.audLastTs = 0 ∧
      t.audBuf = fillSlots s.audBuf s.audCursor s.cfg.sampleCount s.audLevel) ∧
    (¬ (s.C + 1 = s.cfg.hTotal ∧ s.V + 1 = s.cfg.vTotal) →
      t.F = s.F ∧ t.flash = s.flash ∧ t.out = s.out ∧ t.audCursor = s.audCursor ∧
      t.audLastTs = s.audLastTs ∧ t.audBuf = s.audBuf)

/-- A border tick writes the sampled border colour, bright 0, into its one pixel, sampling at the start of
an 8-pixel chunk; every other pixel and the cell latches stay (42_raster.md R154, R153). -/
def Obligations.BorderTickRendersSampledBorder : Prop :=
  ∀ s : State, TickReady s → s.cfg.visible s.V s.C = true → s.cfg.fetchWindow s.V s.C = false →
    ∃ t y, exec .tick s = .next t ∧ s.cfg.row s.V = some y ∧
      t.borderLatch = (if s.C % 8 = 0 then s.border else s.borderLatch) ∧
      t.bitmapLatch = s.bitmapLatch ∧ t.attrLatch = s.attrLatch ∧
      ∀ k, Cells.read t.pixbuf k =
        if k = y * s.cfg.rasterWidth + s.C then 0#1 ++ t.borderLatch else Cells.read s.pixbuf k

/-- A bitmap tick fetches the cell's bytes at its first pixel and writes the pixel's palette index into its
one entry; every other pixel and the border latch stay (42_raster.md R150, R152, R153). -/
def Obligations.BitmapTickFetchesAndRendersCell : Prop :=
  ∀ s : State, TickReady s → s.cfg.fetchWindow s.V s.C = true →
    ∃ t, exec .tick s = .next t ∧
      (let i := (s.C - s.cfg.leftBorder) % 8
       let b := (s.C - s.cfg.leftBorder) / 8
       t.bitmapLatch =
         (if i = 0 then s.vram.read (s.cfg.bitmapAddr s.V b - 0x4000) else s.bitmapLatch) ∧
       t.attrLatch =
         (if i = 0 then s.vram.read (s.cfg.attrAddr s.V b - 0x4000) else s.attrLatch) ∧
       t.borderLatch = s.borderLatch ∧
       ∀ k, Cells.read t.pixbuf k =
         if k = (s.cfg.topBorder + s.V) * s.cfg.rasterWidth + s.C then
           BitVec.ofBool (t.attrLatch.getLsbD 6) ++
             (if t.bitmapLatch.getLsbD (7 - i) = (t.attrLatch.getLsbD 7 && s.flash) then
               t.attrLatch.extractLsb' 3 3 else t.attrLatch.extractLsb' 0 3)
         else Cells.read s.pixbuf k)

/-- The screen layout: the reference formulas on y's bits for every row and column, the tables' entries
otherwise, every address in VRAM, and the attribute address depending on y only through y >> 3 (42_raster.md
R151; that another layout is a pair of tables is log entry 15). -/
def Obligations.ScreenLayoutAddresses : Prop :=
  ∀ (cfg : Config) (y b : Nat),
    (cfg.layout = .reference →
      cfg.bitmapAddr y b =
        0x4000 + ((y >>> 6 &&& 3) <<< 11) + ((y &&& 7) <<< 8) + ((y >>> 3 &&& 7) <<< 5) + b ∧
      cfg.attrAddr y b = 0x5800 + (y >>> 3) * 32 + b) ∧
    (∀ bitmap attr, cfg.layout = .tables bitmap attr →
      (∀ o, bitmap[y * 32 + b]? = some o → cfg.bitmapAddr y b = 0x4000 + o.toNat) ∧
      (∀ o, attr[(y >>> 3) * 32 + b]? = some o → cfg.attrAddr y b = 0x4000 + o.toNat)) ∧
    (cfg.valid = true → y < cfg.activeHeight → b < 32 →
      0x4000 ≤ cfg.bitmapAddr y b ∧ cfg.bitmapAddr y b ≤ 0x7FFF ∧
      0x4000 ≤ cfg.attrAddr y b ∧ cfg.attrAddr y b ≤ 0x7FFF) ∧
    (∀ y', y >>> 3 = y' >>> 3 → cfg.attrAddr y b = cfg.attrAddr y' b)

/-- A tick in the horizontal blank or in vertical sync renders nothing and latches nothing (42_raster.md
R140, R142, R143). -/
def Obligations.BlankTickRendersNothing : Prop :=
  ∀ s : State, TickReady s → s.cfg.visible s.V s.C = false →
    ∃ t, exec .tick s = .next t ∧ t.pixbuf = s.pixbuf ∧ t.borderLatch = s.borderLatch ∧
      t.bitmapLatch = s.bitmapLatch ∧ t.attrLatch = s.attrLatch

/-- The processor-rate unit, in both contention modes: a credit is consumed, or a cycle is granted, taken
from the processor's script and offered the tick's interrupt line, or neither, and then the script is
untouched (42_raster.md R147, R148, with R146's parity and R161's offer; the script and the record of grants
are the model's, log entries 9 and 11). -/
def Obligations.TickConsumesCreditOrGrantsCycle : Prop :=
  ∀ s : State, TickReady s →
    ∃ t, exec .tick s = .next t ∧
      (s.cfg.contentionMode = .perProcessorUnit →
        (s.C % 2 = 0 → 0 < s.stall →
          t.stall = s.stall - 1 ∧ t.grants = s.grants ∧ t.proc = s.proc) ∧
        (s.C % 2 = 0 → s.stall = 0 →
          t.stall = 0 ∧ t.grants = s.grants ++ [t.intLine] ∧ t.proc = s.proc.tail) ∧
        (s.C % 2 = 1 → t.stall = s.stall ∧ t.grants = s.grants ∧ t.proc = s.proc)) ∧
      (s.cfg.contentionMode = .perTick →
        (0 < s.stall → t.stall = s.stall - 1 ∧ t.grants = s.grants ∧ t.proc = s.proc) ∧
        (s.stall = 0 → s.C % 2 = 0 →
          t.stall = 0 ∧ t.grants = s.grants ++ [t.intLine] ∧ t.proc = s.proc.tail) ∧
        (s.stall = 0 → s.C % 2 = 1 → t.stall = 0 ∧ t.grants = s.grants ∧ t.proc = s.proc))

/-- A granted cycle with accesses to issue stands at step 4, and its accesses wait; a cycle that issues none
and reports a count other than 1 is refused. Neither has done step 5: position, frame counter, flash, output
history and sample buffer are as they were (42_raster.md R140, R149; that the accesses are steps of their
own is log entry 10). -/
def Obligations.GrantedCycleWaitsOrIsRefused : Prop :=
  ∀ s : State, TickReady s → s.stall = 0 → s.C % 2 = 0 →
    (∀ w ws k, s.proc.headD ProcCycle.idle = ⟨w :: ws, k⟩ →
      ∃ t, exec .tick s = .next t ∧ t.fault = none ∧ t.grant = some ⟨w :: ws, k⟩ ∧
        t.proc = s.proc.tail ∧ BeforeStepFive s t) ∧
    (∀ k, k ≠ 1 → s.proc.headD ProcCycle.idle = ⟨[], k⟩ →
      ∃ t, exec .tick s = .next t ∧ t.fault = some (.procCycleCount k) ∧ BeforeStepFive s t)

/-- The frame of the tick: memory, border, MIC, speaker, pressed keys, power, the synthesizer's level, the
answers and the waiting requests are unchanged (42_raster.md R140). -/
def Obligations.TickLeavesTheRestUnchanged : Prop :=
  ∀ s : State, TickReady s →
    ∃ t, exec .tick s = .next t ∧
      (∀ a, busRead t a = busRead s a) ∧ t.rom = s.rom ∧ t.vram = s.vram ∧ t.ram = s.ram ∧
      t.border = s.border ∧ t.micLevel = s.micLevel ∧ t.speakerLevel = s.speakerLevel ∧
      t.pressed = s.pressed ∧ t.powered = true ∧ t.audLevel = s.audLevel ∧
      t.procReplies = s.procReplies ∧ t.hostReplies = s.hostReplies ∧ t.pending = s.pending ∧
      t.powerLog = s.powerLog ∧ t.draws = s.draws ∧ t.cfg = s.cfg

/-- The host reads the pixel buffer between frames exactly after the tick whose step 5 wrapped V to 0 and
before the next tick: step 5 opens the window at the frame's last position and closes it elsewhere, a cycle
in progress is outside it, every other transaction, a power-on among them, leaves it, and construction starts
outside it (70_reset_and_hazards.md R262; the mark is the model's, log entry 24). -/
def Obligations.PixelBufferReadOnlyBetweenFrames : Prop :=
  (∀ s : State, s.grant = none →
    (betweenFrames (advance s) = true ↔ s.C + 1 = s.cfg.hTotal ∧ s.V + 1 = s.cfg.vTotal)) ∧
  (∀ s t : State, TickReady s → exec .tick s = .next t → NoGrantOrIdleCycle s →
    betweenFrames t = betweenFrames (advance s)) ∧
  (∀ s : State, s.grant ≠ none → betweenFrames s = false) ∧
  (∀ (i : Instr) (s t : State), exec i s = .next t → t.fault = none → i ≠ .tick →
    betweenFrames t = betweenFrames s) ∧
  (∀ cfg image s, MayConstruct cfg image s → betweenFrames s = false)

/-- Only a tick and power-on write the raster's registers: counters, flash, fetching, interrupt line,
latches and pixel buffer (10_state.md R21 to R24, R29, R32 to R34, R41, R45). -/
def Obligations.RasterWrittenOnlyByTickAndPowerOn : Prop :=
  ∀ (i : Instr) (s t : State), exec i s = .next t → t.fault = none → i ≠ .tick → i ≠ .pwron →
    t.C = s.C ∧ t.V = s.V ∧ t.F = s.F ∧ t.flash = s.flash ∧ t.fetching = s.fetching ∧
    t.intLine = s.intLine ∧ t.borderLatch = s.borderLatch ∧ t.bitmapLatch = s.bitmapLatch ∧
    t.attrLatch = s.attrLatch ∧ t.pixbuf = s.pixbuf

/-- The processor never runs ahead of the controller: a step grants at most one cycle, only in a powered
tick at a processor-rate unit and never while a credit is pending (42_raster.md R165, R146; the record of
grants, which a fault keeps, is the model's, log entries 7 and 11). -/
def Obligations.ProcessorNeverRunsAhead : Prop :=
  ∀ s t : State, step s = .next t →
    t.grants = s.grants ∨
    (∃ level, t.grants = s.grants ++ [level]) ∧ s.grant = none ∧ s.powered = true ∧ s.stall = 0 ∧
      s.C % 2 = 0

/-! ### Facts of the frame -/

/-- One interrupt pulse a frame: of a frame's positions, exactly `INT_PULSE_TICKS`, one unbroken run, have
the line asserted (42_raster.md R160, from the bound of 00_scope.md R10). -/
def Obligations.OneInterruptPulsePerFrame : Prop :=
  ∀ cfg : Config, cfg.valid = true →
    ((List.range cfg.frameTicks).filter fun P => cfg.inPulse (P / cfg.hTotal) (P % cfg.hTotal)) =
      (List.range cfg.intPulseTicks).map (cfg.vs0 * cfg.hTotal + ·)

/-- `FRAME_CYCLES` processor-rate units a frame, and at the n-th of them the frame-relative cycle count is n
(42_raster.md R146, R159, R163). -/
def Obligations.ProcessorUnitsCountTheFrame : Prop :=
  ∀ s : State, s.cfg.valid = true → RasterOk s →
    ((List.range s.cfg.frameTicks).filter fun P => Config.processorUnit (P % s.cfg.hTotal)) =
      (List.range s.cfg.frameCycles).map (2 * ·) ∧
    (Config.processorUnit s.C = true → 2 * frameCycle s = s.cfg.position s.V s.C) ∧
    frameCycle s < s.cfg.frameCycles

/-- Every pixel-buffer entry is written at exactly one position of a frame (42_raster.md R153, from R142
and R143). -/
def Obligations.EveryPixelRenderedOncePerFrame : Prop :=
  ∀ cfg : Config, cfg.valid = true → ∀ k < cfg.rasterWidth * cfg.rasterHeight,
    ∃! P, P < cfg.frameTicks ∧ cfg.visible (P / cfg.hTotal) (P % cfg.hTotal) = true ∧
      ∃ y, cfg.row (P / cfg.hTotal) = some y ∧ y * cfg.rasterWidth + P % cfg.hTotal = k

/-- The flash flag swaps ink and paper of a flashing cell, which is what complementing its bitmap does, and
changes nothing of another cell; it never changes `bright` (42_raster.md R152). -/
def Obligations.FlashSwapsInkAndPaperOnly : Prop :=
  ∀ (bitmap attr : Byte) (i : Nat), i < 8 →
    (attr.getLsbD 7 = true →
      cellPixel bitmap attr true i = cellPixel (~~~bitmap) attr false i) ∧
    (attr.getLsbD 7 = false → cellPixel bitmap attr true i = cellPixel bitmap attr false i) ∧
    ∀ flash, (cellPixel bitmap attr flash i).getLsbD 3 = attr.getLsbD 6

/-! ### Audio -/

/-- `SampleIndex` is the floor of the exact product and is monotone (44_audio.md R200). -/
def Obligations.SampleIndexIsExactFloor : Prop :=
  ∀ cfg : Config, 1 ≤ cfg.cpuClockHz →
    (∀ t, cfg.sampleIndex t * cfg.cpuClockHz ≤ t * cfg.sampleRateHz ∧
      t * cfg.sampleRateHz < (cfg.sampleIndex t + 1) * cfg.cpuClockHz) ∧
    ∀ t u, t ≤ u → cfg.sampleIndex t ≤ cfg.sampleIndex u

/-- AUDLVL fills the slots from the cursor up to the new timestamp's with the previous level, then records
level and timestamp; a decreasing timestamp faults, then one past the frame's end (44_audio.md R204). -/
def Obligations.AudioLevelChangeFillsWithPreviousLevel : Prop :=
  ∀ (s : State) (level : Bool) (ts : BitVec 24), AudioReady s →
    (s.audLastTs ≤ ts.toNat → ts.toNat < s.cfg.frameCycles →
      ∃ buf, exec (.audlvl level ts) s = .next { s with
          audBuf := buf, audCursor := max s.audCursor (s.cfg.sampleIndex ts.toNat),
          audLevel := level, audLastTs := ts.toNat } ∧
        buf.length = s.audBuf.length ∧
        ∀ k < buf.length, buf[k]? =
          if s.audCursor ≤ k ∧ k < s.cfg.sampleIndex ts.toNat then some s.audLevel else s.audBuf[k]?) ∧
    (ts.toNat < s.audLastTs →
      ∃ t, exec (.audlvl level ts) s = .next t ∧
        t.fault = some (.audioTsDecreasing ts.toNat s.audLastTs)) ∧
    (s.audLastTs ≤ ts.toNat → s.cfg.frameCycles ≤ ts.toNat →
      ∃ t, exec (.audlvl level ts) s = .next t ∧ t.fault = some (.audioTsRange ts.toNat))

/-- AUDEND fills the slots from the cursor to N with the current level, delivers the buffer, resets cursor
and timestamp, and keeps the level (44_audio.md R205). -/
def Obligations.EndFrameDeliversTheFilledBuffer : Prop :=
  ∀ s : State, AudioReady s →
    ∃ buf, exec .audend s = .next { s with
        audBuf := buf, audCursor := 0, audLastTs := 0, out := s.out ++ [.audioFrame buf] } ∧
      buf.length = s.audBuf.length ∧
      ∀ k < buf.length, buf[k]? =
        if s.audCursor ≤ k ∧ k < s.cfg.sampleCount then some s.audLevel else s.audBuf[k]?

/-- The content of a delivered frame: from the start of a frame, any sequence of level changes with
non-decreasing timestamps inside the frame, then the frame's end, delivers N samples of which slot k holds
the level in effect after every change whose sample index is at most k, or the level carried in
(44_audio.md R207). -/
def Obligations.DeliveredFrameIsSampleAndHold : Prop :=
  ∀ (s : State) (changes : List (Bool × BitVec 24)), AudioReady s →
    s.audCursor = 0 → s.audLastTs = 0 → s.audBuf.length = s.cfg.sampleCount →
    (changes.map fun c => c.2.toNat).Pairwise (· ≤ ·) →
    (∀ c ∈ changes, c.2.toNat < s.cfg.frameCycles) →
    ∃ t samples, runAll (changes.map (fun c => .audlvl c.1 c.2) ++ [.audend]) s = some t ∧
      t.out = s.out ++ [.audioFrame samples] ∧ samples.length = s.cfg.sampleCount ∧
      ∀ k < s.cfg.sampleCount, samples[k]? = some (levelAtSlot s.cfg changes s.audLevel k)

/-! ### Invariants -/

/-- The reset state meets the invariant and holds the reset value of every field that has one
(70_reset_and_hazards.md R250, R252; its configuration and the contents the spec leaves as draws are the
model's, log entries 2, 3, 6). -/
def Obligations.ResetStateIsSound : Prop :=
  Inv State.reset ∧ State.reset.fault = none ∧ State.reset.powered = true ∧
    State.reset.C = 0 ∧ State.reset.V = 0 ∧ State.reset.F = 0 ∧ State.reset.flash = false ∧
    State.reset.stall = 0 ∧ State.reset.fetching = false ∧ State.reset.intLine = false ∧
    State.reset.border = 0#3 ∧ State.reset.micLevel = false ∧ State.reset.speakerLevel = false ∧
    State.reset.borderLatch = 0#3 ∧ State.reset.bitmapLatch = 0#8 ∧ State.reset.attrLatch = 0#8 ∧
    State.reset.audLevel = false ∧ State.reset.audCursor = 0 ∧ State.reset.audLastTs = 0 ∧
    State.reset.pressed = [] ∧ State.reset.out = []

/-- Every step keeps the invariant: counters in range, arrays canonical, keys and samples well-formed, a
granted cycle at its tick's step 4 (10_state.md R21, R22, R29, R30, R42; 42_raster.md R140). -/
def Obligations.StepKeepsTheInvariant : Prop :=
  ∀ s t : State, Inv s → step s = .next t → Inv t

/-- The controller never violates the timestamp rule: of a machine that no harness drives, no step faults
with an audio error, and the synthesizer's last timestamp never passes the frame-relative cycle count
(44_audio.md R206). -/
def Obligations.ControllerTimestampsNeverDecrease : Prop :=
  ∀ s t : State, Sound s → HostDriven s → TimestampOk s → step s = .next t →
    (∀ n m, t.fault ≠ some (.audioTsDecreasing n m)) ∧ (∀ n, t.fault ≠ some (.audioTsRange n)) ∧
    (faulted t = false → HostDriven t ∧ TimestampOk t)

/-- The output history is empty at construction and never shortened, by a fault neither (10_state.md R44; what
a fault keeps is log entry 7). -/
def Obligations.OutputHistoryOnlyGrows : Prop :=
  (∀ cfg image s, MayConstruct cfg image s → s.out = []) ∧
  ∀ s t : State, step s = .next t → ∃ es, t.out = s.out ++ es
end

