-- ==== Sys2Proof/Laws/Cells.lean ====
section
/-!
SUPPORT. The laws of arrays: read after write, what a write leaves alone, and that every operation keeps
the canonical form.
-/

namespace Sys2Proof.Machine.Cells

variable {w : Nat} (m : Cells w) (a b : Nat) (v : BitVec w)

@[simp] theorem read_nil : read ([] : Cells w) a = unlisted w := rfl

theorem read_erase_same : read (erase m a) a = unlisted w := by
  induction m with
  | nil => rfl
  | cons c m ih =>
    obtain ⟨k, u⟩ := c
    by_cases h : k = a <;> simp [erase, read, h, ih]

theorem read_erase_other (h : b ≠ a) : read (erase m a) b = read m b := by
  induction m with
  | nil => rfl
  | cons c m ih =>
    obtain ⟨k, u⟩ := c
    by_cases hk : k = a
    · subst hk; simp [erase, read, ih, Ne.symm h]
    · simp [erase, read, hk, ih]

theorem read_insert_other (h : b ≠ a) : read (insert m a v) b = read m b := by
  induction m with
  | nil => simp [insert, read, Ne.symm h]
  | cons c m ih =>
    obtain ⟨k, u⟩ := c
    by_cases hk : a < k
    · simp [insert, read, hk, Ne.symm h]
    · simp [insert, read, hk, ih]

theorem read_insert_erase_same : read (insert (erase m a) a v) a = v := by
  induction m with
  | nil => simp [erase, insert, read]
  | cons c m ih =>
    obtain ⟨k, u⟩ := c
    by_cases hk : k = a
    · simp [erase, hk, ih]
    · by_cases hl : a < k <;> simp [erase, insert, read, hk, hl, ih]

/-- Read after write, the same index. -/
@[simp] theorem read_write_same : read (write m a v) a = v := by
  by_cases h : v = unlisted w
  · simp [write, h, read_erase_same]
  · simp [write, h, read_insert_erase_same]

/-- A write leaves every other index alone. -/
theorem read_write_other (h : b ≠ a) : read (write m a v) b = read m b := by
  by_cases hv : v = unlisted w
  · simp [write, hv, read_erase_other m a b h]
  · simp [write, hv, read_insert_other _ a b v h, read_erase_other m a b h]

/-- Read after write, at any index. -/
theorem read_write : read (write m a v) b = if b = a then v else read m b := by
  by_cases h : b = a
  · simp [h]
  · simp [h, read_write_other m a b v h]

/-! ### The canonical form -/

theorem wf_iff (size : Nat) : wf size m = true ↔
    (m.map Prod.fst).Pairwise (· < ·) ∧ ∀ c ∈ m, c.1 < size ∧ c.2 ≠ unlisted w := by
  simp [wf]

theorem wf_nil (size : Nat) : wf size ([] : Cells w) = true := by simp [wf]

theorem mem_erase {c : Nat × BitVec w} (h : c ∈ erase m a) : c ∈ m ∧ c.1 ≠ a := by
  induction m with
  | nil => simp [erase] at h
  | cons d m ih =>
    obtain ⟨k, u⟩ := d
    by_cases hk : k = a
    · simp only [erase, hk, if_true] at h
      exact ⟨List.mem_cons_of_mem _ (ih h).1, (ih h).2⟩
    · simp only [erase, hk, if_false, List.mem_cons] at h
      rcases h with rfl | h
      · exact ⟨List.mem_cons_self, hk⟩
      · exact ⟨List.mem_cons_of_mem _ (ih h).1, (ih h).2⟩

theorem mem_insert {c : Nat × BitVec w} (h : c ∈ insert m a v) : c = (a, v) ∨ c ∈ m := by
  induction m with
  | nil => simpa [insert] using h
  | cons d m ih =>
    obtain ⟨k, u⟩ := d
    by_cases hk : a < k
    · simpa [insert, hk] using h
    · simp only [insert, hk, if_false, List.mem_cons] at h
      rcases h with rfl | h
      · simp
      · rcases ih h with h | h <;> simp [h]

theorem pairwise_erase (h : (m.map Prod.fst).Pairwise (· < ·)) :
    ((erase m a).map Prod.fst).Pairwise (· < ·) := by
  induction m with
  | nil => simp [erase]
  | cons d m ih =>
    obtain ⟨k, u⟩ := d
    simp only [List.map_cons, List.pairwise_cons] at h
    by_cases hk : k = a
    · simpa [erase, hk] using ih h.2
    · simp only [erase, hk, if_false, List.map_cons, List.pairwise_cons]
      refine ⟨fun x hx => ?_, ih h.2⟩
      obtain ⟨c, hc, rfl⟩ := List.mem_map.1 hx
      exact h.1 _ (List.mem_map.2 ⟨c, (mem_erase m a hc).1, rfl⟩)

theorem pairwise_insert (h : (m.map Prod.fst).Pairwise (· < ·)) (ha : ∀ c ∈ m, c.1 ≠ a) :
    ((insert m a v).map Prod.fst).Pairwise (· < ·) := by
  induction m with
  | nil => simp [insert]
  | cons d m ih =>
    obtain ⟨k, u⟩ := d
    simp only [List.map_cons, List.pairwise_cons] at h
    have hk : k ≠ a := ha _ List.mem_cons_self
    by_cases hl : a < k
    · simp only [insert, hl, if_true, List.map_cons, List.pairwise_cons, List.mem_cons]
      refine ⟨fun x hx => ?_, h.1, h.2⟩
      rcases hx with rfl | hx
      · exact hl
      · exact hl.trans (h.1 x hx)
    · simp only [insert, hl, if_false, List.map_cons, List.pairwise_cons]
      refine ⟨fun x hx => ?_, ih h.2 fun c hc => ha c (List.mem_cons_of_mem _ hc)⟩
      obtain ⟨c, hc, rfl⟩ := List.mem_map.1 hx
      rcases mem_insert m a v hc with rfl | hc
      · exact lt_of_le_of_ne (not_lt.1 hl) hk
      · exact h.1 _ (List.mem_map.2 ⟨c, hc, rfl⟩)

/-- A write below the array's size keeps the canonical form. -/
theorem wf_write {size : Nat} (h : wf size m = true) (ha : a < size) :
    wf size (write m a v) = true := by
  rw [wf_iff] at h ⊢
  by_cases hv : v = unlisted w
  · simp only [write, hv, if_true]
    exact ⟨pairwise_erase m a h.1, fun c hc => h.2 c (mem_erase m a hc).1⟩
  · simp only [write, hv, if_false]
    refine ⟨pairwise_insert _ a v (pairwise_erase m a h.1) fun c hc => (mem_erase m a hc).2,
      fun c hc => ?_⟩
    rcases mem_insert _ a v hc with rfl | hc
    · exact ⟨ha, hv⟩
    · exact h.2 c (mem_erase m a hc).1

/-- Two arrays in canonical form that read alike everywhere are the same data. -/
theorem ext_of_read {size : Nat} {m n : Cells w} (hm : wf size m = true) (hn : wf size n = true)
    (h : ∀ k, read m k = read n k) : m = n := by
  rw [wf_iff] at hm hn
  induction m generalizing n with
  | nil =>
    cases n with
    | nil => rfl
    | cons d n =>
      have := h d.1
      simp only [read, if_true] at this
      exact absurd this.symm (hn.2 d List.mem_cons_self).2
  | cons c m ih =>
    have unread : ∀ (l : Cells w) (k : Nat), (∀ x ∈ l.map Prod.fst, k < x) → read l k = unlisted w := by
      intro l k hl
      induction l with
      | nil => rfl
      | cons e l ihl =>
        simp only [List.map_cons, List.mem_cons, forall_eq_or_imp] at hl
        simp [read, (ne_of_gt hl.1), ihl hl.2]
    simp only [List.map_cons, List.pairwise_cons] at hm
    cases n with
    | nil =>
      have := h c.1
      simp only [read, if_true] at this
      exact absurd this (hm.2 c List.mem_cons_self).2
    | cons d n =>
      simp only [List.map_cons, List.pairwise_cons] at hn
      have hcd : c.1 = d.1 := by
        rcases Nat.lt_trichotomy c.1 d.1 with hlt | heq | hgt
        · have := h c.1
          rw [unread (d :: n) c.1 (by
            simp only [List.map_cons, List.mem_cons, forall_eq_or_imp]
            exact ⟨hlt, fun x hx => hlt.trans (hn.1.1 x hx)⟩)] at this
          simp only [read, if_true] at this
          exact absurd this (hm.2 c List.mem_cons_self).2
        · exact heq
        · have := h d.1
          rw [unread (c :: m) d.1 (by
            simp only [List.map_cons, List.mem_cons, forall_eq_or_imp]
            exact ⟨hgt, fun x hx => hgt.trans (hm.1.1 x hx)⟩)] at this
          simp only [read, if_true] at this
          exact absurd this.symm (hn.2 d List.mem_cons_self).2
      have hv : c.2 = d.2 := by
        have := h c.1
        simpa [read, hcd] using this
      have htail : m = n := by
        refine ih ⟨hm.1.2, fun e he => hm.2 e (List.mem_cons_of_mem _ he)⟩
          ⟨hn.1.2, fun e he => hn.2 e (List.mem_cons_of_mem _ he)⟩ fun k => ?_
        by_cases hk : c.1 = k
        · rw [unread m k (fun x hx => hk ▸ hm.1.1 x hx),
            unread n k (fun x hx => hk ▸ hcd ▸ hn.1.1 x hx)]
        · have := h k
          simpa [read, hk, hcd ▸ hk] using this
      rw [htail, Prod.ext hcd hv]

/-- `ofList base vs` lists `vs[k - base]` at `k` and nothing else. -/
theorem read_ofList (vs : List (BitVec w)) (base k : Nat) :
    read (ofList base vs) k = if base ≤ k then vs.getD (k - base) (unlisted w) else unlisted w := by
  induction vs generalizing base with
  | nil => simp [ofList]
  | cons u vs ih =>
    have hrec : read (ofList base (u :: vs)) k = if base = k then u else read (ofList (base + 1) vs) k := by
      by_cases hu : u = unlisted w
      · by_cases hb : base = k
        · subst hb; simp [ofList, hu, ih]
        · simp [ofList, hu, hb]
      · simp [ofList, hu, read]
    rw [hrec, ih]
    by_cases hb : base = k
    · subst hb; simp
    · by_cases hle : base ≤ k
      · obtain ⟨n, rfl⟩ : ∃ n, k = base + 1 + n := ⟨k - base - 1, by omega⟩
        have h1 : base + 1 + n - (base + 1) = n := by omega
        have h2 : base + 1 + n - base = n + 1 := by omega
        rw [if_neg hb, if_pos (by omega), if_pos hle, h1, h2, List.getD_cons_succ]
      · rw [if_neg hb, if_neg (by omega), if_neg hle]

theorem mem_ofList {vs : List (BitVec w)} {base : Nat} {c : Nat × BitVec w}
    (h : c ∈ ofList base vs) : base ≤ c.1 ∧ c.1 < base + vs.length ∧ c.2 ≠ unlisted w := by
  induction vs generalizing base with
  | nil => simp [ofList] at h
  | cons u vs ih =>
    simp only [ofList] at h
    split at h
    · obtain ⟨h1, h2, h3⟩ := ih h
      simp only [List.length_cons]
      exact ⟨by omega, by omega, h3⟩
    · rename_i hu
      rcases List.mem_cons.1 h with rfl | h
      · simp [hu]
      · obtain ⟨h1, h2, h3⟩ := ih h
        simp only [List.length_cons]
        exact ⟨by omega, by omega, h3⟩

/-- The array of a list is in canonical form. -/
theorem wf_ofList (vs : List (BitVec w)) (base : Nat) : wf (base + vs.length) (ofList base vs) = true := by
  rw [wf_iff]
  refine ⟨?_, fun c hc => ⟨(mem_ofList hc).2.1, (mem_ofList hc).2.2⟩⟩
  induction vs generalizing base with
  | nil => simp [ofList]
  | cons u vs ih =>
    simp only [ofList]
    split
    · exact ih _
    · simp only [List.map_cons, List.pairwise_cons]
      refine ⟨fun x hx => ?_, ih _⟩
      obtain ⟨c, hc, rfl⟩ := List.mem_map.1 hx
      have := (mem_ofList hc).1
      omega

end Sys2Proof.Machine.Cells

namespace Sys2Proof.Machine.Memory

variable (m : Memory) (a b : Nat) (v : Byte)

/-- Read after write, at any offset. -/
theorem read_write : (m.write a v).read b = if b = a then v else m.read b :=
  Cells.read_write m a b v

/-- A write below the region's size keeps the canonical form. -/
theorem wf_write {size : Nat} (h : m.wf size = true) (ha : a < size) : (m.write a v).wf size = true :=
  Cells.wf_write m a v h ha

end Sys2Proof.Machine.Memory
end

