-- ==== Sys2Proof/Laws/Decode.lean ====
section
/-!
SUPPORT. The fields of an encoded word, and the selections of an encoded address, so that no proof reads
a word bit by bit.
-/

namespace Sys2Proof

/-- Concatenation is multiplication and addition. -/
theorem toNat_append' {m n : Nat} (x : BitVec m) (y : BitVec n) :
    (x ++ y).toNat = x.toNat * 2 ^ n + y.toNat := by
  rw [BitVec.toNat_append, ← Nat.shiftLeft_add_eq_or_of_lt y.isLt, Nat.shiftLeft_eq]

/-! ### Fields of a format T word -/

section
variable (kind : BitVec 4) (a : Addr) (d : Byte)

theorem toNat_wordT : (wordT kind a d).toNat = kind.toNat * 2 ^ 28 + a.toNat * 2 ^ 8 + d.toNat := by
  unfold wordT
  rw [toNat_append', toNat_append', toNat_append', BitVec.toNat_ofNat]
  omega

@[simp] theorem kindOf_wordT : kindOf (wordT kind a d) = kind := by
  apply BitVec.eq_of_toNat_eq
  have := kind.isLt; have := a.isLt; have := d.isLt
  simp only [kindOf, BitVec.extractLsb'_toNat, toNat_wordT, Nat.shiftRight_eq_div_pow]
  omega

@[simp] theorem subOf_wordT : subOf (wordT kind a d) = 0#4 := by
  apply BitVec.eq_of_toNat_eq
  have := kind.isLt; have := a.isLt; have := d.isLt
  simp only [subOf, BitVec.extractLsb'_toNat, toNat_wordT, Nat.shiftRight_eq_div_pow, BitVec.toNat_ofNat]
  omega

@[simp] theorem addrOf_wordT : addrOf (wordT kind a d) = a := by
  apply BitVec.eq_of_toNat_eq
  have := kind.isLt; have := a.isLt; have := d.isLt
  simp only [addrOf, BitVec.extractLsb'_toNat, toNat_wordT, Nat.shiftRight_eq_div_pow]
  omega

@[simp] theorem dataOf_wordT : dataOf (wordT kind a d) = d := by
  apply BitVec.eq_of_toNat_eq
  have := kind.isLt; have := a.isLt; have := d.isLt
  simp only [dataOf, BitVec.extractLsb'_toNat, toNat_wordT, Nat.shiftRight_eq_div_pow]
  omega

/-- A word is the format T word of its own fields, if its `SUB` is zero. -/
theorem wordT_of_fields (w : TransWord) (h : subOf w = 0#4) :
    wordT (kindOf w) (addrOf w) (dataOf w) = w := by
  apply BitVec.eq_of_toNat_eq
  have hs := congrArg BitVec.toNat h
  have := w.isLt
  simp only [subOf, BitVec.extractLsb'_toNat, Nat.shiftRight_eq_div_pow, BitVec.toNat_ofNat] at hs
  rw [toNat_wordT]
  simp only [kindOf, addrOf, dataOf, BitVec.extractLsb'_toNat, Nat.shiftRight_eq_div_pow]
  omega

end

/-! ### Fields of a format A word -/

section
variable (lvl : Bool) (ts : BitVec 24)

theorem toNat_encode_audlvl : (encode (.audlvl lvl ts)).toNat =
    0xD * 2 ^ 28 + lvl.toNat * 2 ^ 24 + ts.toNat := by
  have h : encode (.audlvl lvl ts) = 0xD#4 ++ 0#3 ++ BitVec.ofBool lvl ++ ts := rfl
  rw [h, toNat_append', toNat_append', toNat_append', BitVec.toNat_ofNat, BitVec.toNat_ofNat,
    BitVec.toNat_ofBool]
  omega

@[simp] theorem kindOf_audlvl : kindOf (encode (.audlvl lvl ts)) = 0xD#4 := by
  apply BitVec.eq_of_toNat_eq
  have := ts.isLt; have := lvl.toNat_lt
  simp only [kindOf, BitVec.extractLsb'_toNat, toNat_encode_audlvl, Nat.shiftRight_eq_div_pow,
    BitVec.toNat_ofNat]
  omega

@[simp] theorem subAOf_audlvl : subAOf (encode (.audlvl lvl ts)) = 0#3 := by
  apply BitVec.eq_of_toNat_eq
  have := ts.isLt; have := lvl.toNat_lt
  simp only [subAOf, BitVec.extractLsb'_toNat, toNat_encode_audlvl, Nat.shiftRight_eq_div_pow,
    BitVec.toNat_ofNat]
  omega

@[simp] theorem tsOf_audlvl : tsOf (encode (.audlvl lvl ts)) = ts := by
  apply BitVec.eq_of_toNat_eq
  have := ts.isLt; have := lvl.toNat_lt
  simp only [tsOf, BitVec.extractLsb'_toNat, toNat_encode_audlvl, Nat.shiftRight_eq_div_pow]
  omega

@[simp] theorem lvlOf_audlvl : lvlOf (encode (.audlvl lvl ts)) = lvl := by
  have := ts.isLt
  simp only [lvlOf, BitVec.getLsbD, toNat_encode_audlvl, Nat.testBit, Nat.shiftRight_eq_div_pow,
    Nat.and_comm 1, Nat.and_one_is_mod]
  cases lvl
  · simp only [Bool.toNat_false]
    rw [show (0xD * 2 ^ 28 + 0 * 2 ^ 24 + ts.toNat) / 2 ^ 24 % 2 = 0 by omega]; rfl
  · simp only [Bool.toNat_true]
    rw [show (0xD * 2 ^ 28 + 1 * 2 ^ 24 + ts.toNat) / 2 ^ 24 % 2 = 1 by omega]; rfl

end

/-! ### Encoded addresses -/

theorem toNat_romAddr (o : BitVec 14) : (romAddr o).toNat = o.toNat := by
  unfold romAddr; rw [toNat_append']; simp

theorem toNat_vramAddr (o : BitVec 14) : (vramAddr o).toNat = 0x4000 + o.toNat := by
  unfold vramAddr; rw [toNat_append']; simp

theorem toNat_ramAddr (o : BitVec 15) : (ramAddr o).toNat = 0x8000 + o.toNat := by
  unfold ramAddr; rw [toNat_append']; simp

theorem toNat_ulaPort (p : BitVec 15) : (ulaPort p).toNat = p.toNat * 2 := by
  unfold ulaPort; rw [toNat_append']; simp

theorem toNat_otherPort (p : BitVec 15) : (otherPort p).toNat = p.toNat * 2 + 1 := by
  unfold otherPort; rw [toNat_append']; simp

section
variable {α : Type} (rom vram : BitVec 14 → α) (ram : BitVec 15 → α) (ula other : BitVec 15 → α)

theorem getLsbD_eq_mod (n : Nat) (x : BitVec n) (i : Nat) :
    x.getLsbD i = decide (x.toNat / 2 ^ i % 2 = 1) := by
  rw [BitVec.getLsbD, Nat.testBit_eq_decide_div_mod_eq]

/-- `byRegion` by the address's value. -/
theorem byRegion_of_toNat (a : Addr) : byRegion a rom vram ram =
    if 0x8000 ≤ a.toNat then ram (a.extractLsb' 0 15)
    else if 0x4000 ≤ a.toNat then vram (a.extractLsb' 0 14) else rom (a.extractLsb' 0 14) := by
  have := a.isLt
  unfold byRegion
  rw [getLsbD_eq_mod, getLsbD_eq_mod]
  simp only [decide_eq_true_eq, Nat.reducePow]
  by_cases h1 : 0x8000 ≤ a.toNat
  · rw [if_pos h1, if_pos (by omega)]
  · rw [if_neg h1, if_neg (by omega)]
    by_cases h2 : 0x4000 ≤ a.toNat
    · rw [if_pos h2, if_pos (by omega)]
    · rw [if_neg h2, if_neg (by omega)]

@[simp] theorem byRegion_romAddr (o : BitVec 14) : byRegion (romAddr o) rom vram ram = rom o := by
  have ho := o.isLt
  have h := toNat_romAddr o
  rw [byRegion_of_toNat, if_neg (by omega), if_neg (by omega)]
  congr 1
  apply BitVec.eq_of_toNat_eq
  simp only [BitVec.extractLsb'_toNat, h, Nat.shiftRight_zero]
  omega

@[simp] theorem byRegion_vramAddr (o : BitVec 14) : byRegion (vramAddr o) rom vram ram = vram o := by
  have ho := o.isLt
  have h := toNat_vramAddr o
  rw [byRegion_of_toNat, if_neg (by omega), if_pos (by omega)]
  congr 1
  apply BitVec.eq_of_toNat_eq
  simp only [BitVec.extractLsb'_toNat, h, Nat.shiftRight_zero]
  omega

@[simp] theorem byRegion_ramAddr (o : BitVec 15) : byRegion (ramAddr o) rom vram ram = ram o := by
  have ho := o.isLt
  have h := toNat_ramAddr o
  rw [byRegion_of_toNat, if_pos (by omega)]
  congr 1
  apply BitVec.eq_of_toNat_eq
  simp only [BitVec.extractLsb'_toNat, h, Nat.shiftRight_zero]
  omega

@[simp] theorem byClaim_ulaPort (p : BitVec 15) : byClaim (ulaPort p) ula other = ula p := by
  have hp := p.isLt
  have h := toNat_ulaPort p
  unfold byClaim
  rw [getLsbD_eq_mod, h, if_neg (by simp only [decide_eq_true_eq]; omega)]
  congr 1
  apply BitVec.eq_of_toNat_eq
  simp only [BitVec.extractLsb'_toNat, h, Nat.shiftRight_eq_div_pow]
  omega

@[simp] theorem byClaim_otherPort (p : BitVec 15) : byClaim (otherPort p) ula other = other p := by
  have hp := p.isLt
  have h := toNat_otherPort p
  unfold byClaim
  rw [getLsbD_eq_mod, h, if_pos (by simp only [decide_eq_true_eq]; omega)]
  congr 1
  apply BitVec.eq_of_toNat_eq
  simp only [BitVec.extractLsb'_toNat, h, Nat.shiftRight_eq_div_pow]
  omega

end

/-! ### Bits of an encoded word, for the opcode table's masks -/

theorem getLsbD_wordT (kind : BitVec 4) (a : Addr) (d : Byte) (i : Nat) :
    (wordT kind a d).getLsbD i =
      if i < 8 then d.getLsbD i else if i < 24 then a.getLsbD (i - 8)
      else if i < 28 then false else kind.getLsbD (i - 28) := by
  unfold wordT
  rw [BitVec.getLsbD_append, BitVec.getLsbD_append, BitVec.getLsbD_append]
  by_cases h1 : i < 8
  · simp [h1]
  · by_cases h2 : i < 24
    · simp [h1, h2, show i - 8 < 16 by omega]
    · by_cases h3 : i < 28
      · simp [h1, h2, h3, show ¬ i - 8 < 16 by omega, show i - 8 - 16 < 4 by omega]
      · simp [h1, h2, h3, show ¬ i - 8 < 16 by omega, show ¬ i - 8 - 16 < 4 by omega,
          show i - 8 - 16 - 4 = i - 28 by omega]

theorem getLsbD_romAddr (o : BitVec 14) (i : Nat) :
    (romAddr o).getLsbD i = if i < 14 then o.getLsbD i else (0b00#2).getLsbD (i - 14) := by
  unfold romAddr; rw [BitVec.getLsbD_append]

theorem getLsbD_vramAddr (o : BitVec 14) (i : Nat) :
    (vramAddr o).getLsbD i = if i < 14 then o.getLsbD i else (0b01#2).getLsbD (i - 14) := by
  unfold vramAddr; rw [BitVec.getLsbD_append]

theorem getLsbD_ramAddr (o : BitVec 15) (i : Nat) :
    (ramAddr o).getLsbD i = if i < 15 then o.getLsbD i else (0b1#1).getLsbD (i - 15) := by
  unfold ramAddr; rw [BitVec.getLsbD_append]

theorem getLsbD_ulaPort (p : BitVec 15) (i : Nat) :
    (ulaPort p).getLsbD i = if i < 1 then (0#1).getLsbD i else p.getLsbD (i - 1) := by
  unfold ulaPort; rw [BitVec.getLsbD_append]

theorem getLsbD_otherPort (p : BitVec 15) (i : Nat) :
    (otherPort p).getLsbD i = if i < 1 then (1#1).getLsbD i else p.getLsbD (i - 1) := by
  unfold otherPort; rw [BitVec.getLsbD_append]

/-- A word is a row's exactly when it agrees with the row's value at every bit of the row's mask. -/
theorem has_iff (r : OpcodeRow) (w : TransWord) :
    r.has w = true ↔ ∀ i < 32, (w.getLsbD i && r.mask.getLsbD i) = r.value.getLsbD i := by
  simp only [OpcodeRow.has, decide_eq_true_eq, ← BitVec.getLsbD_and]
  exact ⟨fun h i _ => by rw [h], BitVec.eq_of_getLsbD_eq⟩

/-- A must-be-zero field lets the transaction through exactly when it is zero. -/
theorem needZero_ok {n : Nat} {x : BitVec n} {e : DecodeError} {r : Except DecodeError Instr} {i : Instr} :
    needZero x e r = .ok i ↔ x = 0#n ∧ r = .ok i := by
  unfold needZero
  split <;> simp_all

end Sys2Proof
end

