-- ==== Sys2Proof/Laws/Operands.lean ====
section
/-!
SUPPORT. The laws of operand forms: where the memory map sends each form's address, what the port address
forms are, and the set laws of the pressed keys.
-/

namespace Sys2Proof.Machine

/-! ### The memory map -/

theorem mapAddr_of_toNat (a : Addr) :
    mapAddr a =
      if a.toNat < 0x4000 then (.rom, a.toNat, .readOnly)
      else if a.toNat < 0x8000 then (.vram, a.toNat - 0x4000, .readWrite)
      else (.ram, a.toNat - 0x8000, .readWrite) := by
  have hlt := a.isLt
  unfold mapAddr
  simp only [← BitVec.toNat_inj, BitVec.extractLsb'_toNat, BitVec.toNat_ofNat, Nat.shiftRight_eq_div_pow]
  split
  · rw [if_pos (by omega)]; simp only [Prod.mk.injEq, true_and, and_true]; omega
  · split
    · rw [if_neg (by omega), if_pos (by omega)]; simp only [Prod.mk.injEq, true_and, and_true]; omega
    · rw [if_neg (by omega), if_neg (by omega)]; simp only [Prod.mk.injEq, true_and, and_true]; omega

@[simp] theorem mapAddr_romAddr (o : BitVec 14) : mapAddr (romAddr o) = (.rom, o.toNat, .readOnly) := by
  rw [mapAddr_of_toNat, toNat_romAddr, if_pos (by have := o.isLt; omega)]

@[simp] theorem mapAddr_vramAddr (o : BitVec 14) :
    mapAddr (vramAddr o) = (.vram, o.toNat, .readWrite) := by
  have := o.isLt
  rw [mapAddr_of_toNat, toNat_vramAddr, if_neg (by omega), if_pos (by omega)]
  simp only [Prod.mk.injEq, true_and, and_true]; omega

@[simp] theorem mapAddr_ramAddr (o : BitVec 15) : mapAddr (ramAddr o) = (.ram, o.toNat, .readWrite) := by
  have := o.isLt
  rw [mapAddr_of_toNat, toNat_ramAddr, if_neg (by omega), if_neg (by omega)]
  simp only [Prod.mk.injEq, true_and, and_true]; omega

@[simp] theorem contended_romAddr (o : BitVec 14) : contended (romAddr o) = false := by
  have := o.isLt
  simp only [contended, toNat_romAddr, Bool.and_eq_false_iff, decide_eq_false_iff_not]
  omega

@[simp] theorem contended_vramAddr (o : BitVec 14) : contended (vramAddr o) = true := by
  have := o.isLt
  simp only [contended, toNat_vramAddr, Bool.and_eq_true, decide_eq_true_eq]
  omega

@[simp] theorem contended_ramAddr (o : BitVec 15) : contended (ramAddr o) = false := by
  have := o.isLt
  simp only [contended, toNat_ramAddr, Bool.and_eq_false_iff, decide_eq_false_iff_not]
  omega

/-- The map's offset lies in its region. -/
theorem mapAddr_offset_lt (a : Addr) : (mapAddr a).2.1 < (mapAddr a).1.size := by
  have := a.isLt
  rw [mapAddr_of_toNat]
  split
  · simpa [Region.size]
  · split <;> simp only [Region.size] <;> omega

/-- Two addresses with one region and one offset are the same address. -/
theorem mapAddr_inj {a b : Addr} (hr : (mapAddr a).1 = (mapAddr b).1)
    (ho : (mapAddr a).2.1 = (mapAddr b).2.1) : a = b := by
  have ha := a.isLt
  have hb := b.isLt
  rw [mapAddr_of_toNat, mapAddr_of_toNat] at hr ho
  apply BitVec.eq_of_toNat_eq
  split at hr <;> split at hr <;> (try split at hr) <;> (try split at hr) <;>
    simp_all <;> omega

/-! ### Keys -/

theorem mem_insertKey {k j : Nat} {ks : List Nat} : j ∈ insertKey k ks ↔ j = k ∨ j ∈ ks := by
  induction ks with
  | nil => simp [insertKey]
  | cons i ks ih =>
    by_cases h1 : k < i
    · simp [insertKey, h1]
    · by_cases h2 : k = i
      · simp [insertKey, h2]
      · simp only [insertKey, h1, h2, if_false, List.mem_cons, ih]
        tauto

theorem mem_removeKey {k j : Nat} {ks : List Nat} : j ∈ removeKey k ks ↔ j ∈ ks ∧ j ≠ k := by
  simp [removeKey]

theorem keysWf_iff (ks : List Nat) :
    keysWf ks = true ↔ ks.Pairwise (· < ·) ∧ ∀ k ∈ ks, k < keyCount := by
  simp [keysWf]

theorem keysWf_insertKey {k : Nat} {ks : List Nat} (h : keysWf ks = true) (hk : k < keyCount) :
    keysWf (insertKey k ks) = true := by
  rw [keysWf_iff] at h ⊢
  refine ⟨?_, fun j hj => ?_⟩
  · obtain ⟨hp, -⟩ := h
    induction ks with
    | nil => simp [insertKey]
    | cons i ks ih =>
      rw [List.pairwise_cons] at hp
      by_cases h1 : k < i
      · simp only [insertKey, h1, if_true, List.pairwise_cons, List.mem_cons]
        exact ⟨fun x hx => hx.elim (fun h => h ▸ h1) fun h => h1.trans (hp.1 x h), hp⟩
      · by_cases h2 : k = i
        · simpa [insertKey, h2] using hp
        · simp only [insertKey, h1, h2, if_false, List.pairwise_cons]
          refine ⟨fun x hx => ?_, ih hp.2⟩
          rcases mem_insertKey.1 hx with rfl | hx
          · omega
          · exact hp.1 x hx
  · rcases mem_insertKey.1 hj with rfl | hj
    · exact hk
    · exact h.2 j hj

theorem keysWf_removeKey {k : Nat} {ks : List Nat} (h : keysWf ks = true) :
    keysWf (removeKey k ks) = true := by
  rw [keysWf_iff] at h ⊢
  exact ⟨h.1.filter _, fun j hj => h.2 j (mem_removeKey.1 hj).1⟩

theorem insertKey_of_mem {ks : List Nat} (h : keysWf ks = true) {k : Nat} (hk : k ∈ ks) :
    insertKey k ks = ks := by
  rw [keysWf_iff] at h
  obtain ⟨hp, -⟩ := h
  induction ks with
  | nil => simp at hk
  | cons i ks ih =>
    rw [List.pairwise_cons] at hp
    rcases List.mem_cons.1 hk with rfl | hk
    · simp [insertKey]
    · have := hp.1 k hk
      simp [insertKey, show ¬ k < i by omega, show k ≠ i by omega, ih hk hp.2]

end Sys2Proof.Machine
end

