-- ==== Sys2Proof/Laws/State.lean ====
section
/-!
SUPPORT. One lemma per field for each plain update of the state, so that no proof unfolds one.
-/

namespace Sys2Proof.Machine

variable (s : State)

/-! ### `emit` -/

@[simp] theorem emit_cfg (e : Event) : (emit e s).cfg = s.cfg := rfl
@[simp] theorem emit_C (e : Event) : (emit e s).C = s.C := rfl
@[simp] theorem emit_V (e : Event) : (emit e s).V = s.V := rfl
@[simp] theorem emit_F (e : Event) : (emit e s).F = s.F := rfl
@[simp] theorem emit_flash (e : Event) : (emit e s).flash = s.flash := rfl
@[simp] theorem emit_border (e : Event) : (emit e s).border = s.border := rfl
@[simp] theorem emit_speakerLevel (e : Event) : (emit e s).speakerLevel = s.speakerLevel := rfl
@[simp] theorem emit_micLevel (e : Event) : (emit e s).micLevel = s.micLevel := rfl
@[simp] theorem emit_stall (e : Event) : (emit e s).stall = s.stall := rfl
@[simp] theorem emit_fetching (e : Event) : (emit e s).fetching = s.fetching := rfl
@[simp] theorem emit_pressed (e : Event) : (emit e s).pressed = s.pressed := rfl
@[simp] theorem emit_intLine (e : Event) : (emit e s).intLine = s.intLine := rfl
@[simp] theorem emit_borderLatch (e : Event) : (emit e s).borderLatch = s.borderLatch := rfl
@[simp] theorem emit_bitmapLatch (e : Event) : (emit e s).bitmapLatch = s.bitmapLatch := rfl
@[simp] theorem emit_attrLatch (e : Event) : (emit e s).attrLatch = s.attrLatch := rfl
@[simp] theorem emit_powered (e : Event) : (emit e s).powered = s.powered := rfl
@[simp] theorem emit_fault (e : Event) : (emit e s).fault = s.fault := rfl
@[simp] theorem emit_rom (e : Event) : (emit e s).rom = s.rom := rfl
@[simp] theorem emit_vram (e : Event) : (emit e s).vram = s.vram := rfl
@[simp] theorem emit_ram (e : Event) : (emit e s).ram = s.ram := rfl
@[simp] theorem emit_pixbuf (e : Event) : (emit e s).pixbuf = s.pixbuf := rfl
@[simp] theorem emit_audLevel (e : Event) : (emit e s).audLevel = s.audLevel := rfl
@[simp] theorem emit_audLastTs (e : Event) : (emit e s).audLastTs = s.audLastTs := rfl
@[simp] theorem emit_audCursor (e : Event) : (emit e s).audCursor = s.audCursor := rfl
@[simp] theorem emit_audBuf (e : Event) : (emit e s).audBuf = s.audBuf := rfl
@[simp] theorem emit_out (e : Event) : (emit e s).out = s.out ++ [e] := rfl
@[simp] theorem emit_issuer (e : Event) : (emit e s).issuer = s.issuer := rfl
@[simp] theorem emit_pending (e : Event) : (emit e s).pending = s.pending := rfl
@[simp] theorem emit_proc (e : Event) : (emit e s).proc = s.proc := rfl
@[simp] theorem emit_grant (e : Event) : (emit e s).grant = s.grant := rfl
@[simp] theorem emit_grants (e : Event) : (emit e s).grants = s.grants := rfl
@[simp] theorem emit_procReplies (e : Event) : (emit e s).procReplies = s.procReplies := rfl
@[simp] theorem emit_hostReplies (e : Event) : (emit e s).hostReplies = s.hostReplies := rfl
@[simp] theorem emit_powerLog (e : Event) : (emit e s).powerLog = s.powerLog := rfl
@[simp] theorem emit_frameEnded (e : Event) : (emit e s).frameEnded = s.frameEnded := rfl
@[simp] theorem emit_ticked (e : Event) : (emit e s).ticked = s.ticked := rfl
@[simp] theorem emit_draws (e : Event) : (emit e s).draws = s.draws := rfl

/-! ### `answerProc` -/

@[simp] theorem answerProc_cfg (v : Byte) : (answerProc v s).cfg = s.cfg := rfl
@[simp] theorem answerProc_C (v : Byte) : (answerProc v s).C = s.C := rfl
@[simp] theorem answerProc_V (v : Byte) : (answerProc v s).V = s.V := rfl
@[simp] theorem answerProc_F (v : Byte) : (answerProc v s).F = s.F := rfl
@[simp] theorem answerProc_flash (v : Byte) : (answerProc v s).flash = s.flash := rfl
@[simp] theorem answerProc_border (v : Byte) : (answerProc v s).border = s.border := rfl
@[simp] theorem answerProc_speakerLevel (v : Byte) : (answerProc v s).speakerLevel = s.speakerLevel := rfl
@[simp] theorem answerProc_micLevel (v : Byte) : (answerProc v s).micLevel = s.micLevel := rfl
@[simp] theorem answerProc_stall (v : Byte) : (answerProc v s).stall = s.stall := rfl
@[simp] theorem answerProc_fetching (v : Byte) : (answerProc v s).fetching = s.fetching := rfl
@[simp] theorem answerProc_pressed (v : Byte) : (answerProc v s).pressed = s.pressed := rfl
@[simp] theorem answerProc_intLine (v : Byte) : (answerProc v s).intLine = s.intLine := rfl
@[simp] theorem answerProc_borderLatch (v : Byte) : (answerProc v s).borderLatch = s.borderLatch := rfl
@[simp] theorem answerProc_bitmapLatch (v : Byte) : (answerProc v s).bitmapLatch = s.bitmapLatch := rfl
@[simp] theorem answerProc_attrLatch (v : Byte) : (answerProc v s).attrLatch = s.attrLatch := rfl
@[simp] theorem answerProc_powered (v : Byte) : (answerProc v s).powered = s.powered := rfl
@[simp] theorem answerProc_fault (v : Byte) : (answerProc v s).fault = s.fault := rfl
@[simp] theorem answerProc_rom (v : Byte) : (answerProc v s).rom = s.rom := rfl
@[simp] theorem answerProc_vram (v : Byte) : (answerProc v s).vram = s.vram := rfl
@[simp] theorem answerProc_ram (v : Byte) : (answerProc v s).ram = s.ram := rfl
@[simp] theorem answerProc_pixbuf (v : Byte) : (answerProc v s).pixbuf = s.pixbuf := rfl
@[simp] theorem answerProc_audLevel (v : Byte) : (answerProc v s).audLevel = s.audLevel := rfl
@[simp] theorem answerProc_audLastTs (v : Byte) : (answerProc v s).audLastTs = s.audLastTs := rfl
@[simp] theorem answerProc_audCursor (v : Byte) : (answerProc v s).audCursor = s.audCursor := rfl
@[simp] theorem answerProc_audBuf (v : Byte) : (answerProc v s).audBuf = s.audBuf := rfl
@[simp] theorem answerProc_out (v : Byte) : (answerProc v s).out = s.out := rfl
@[simp] theorem answerProc_issuer (v : Byte) : (answerProc v s).issuer = s.issuer := rfl
@[simp] theorem answerProc_pending (v : Byte) : (answerProc v s).pending = s.pending := rfl
@[simp] theorem answerProc_proc (v : Byte) : (answerProc v s).proc = s.proc := rfl
@[simp] theorem answerProc_grant (v : Byte) : (answerProc v s).grant = s.grant := rfl
@[simp] theorem answerProc_grants (v : Byte) : (answerProc v s).grants = s.grants := rfl
@[simp] theorem answerProc_procReplies (v : Byte) : (answerProc v s).procReplies = s.procReplies ++ [v] := rfl
@[simp] theorem answerProc_hostReplies (v : Byte) : (answerProc v s).hostReplies = s.hostReplies := rfl
@[simp] theorem answerProc_powerLog (v : Byte) : (answerProc v s).powerLog = s.powerLog := rfl
@[simp] theorem answerProc_frameEnded (v : Byte) : (answerProc v s).frameEnded = s.frameEnded := rfl
@[simp] theorem answerProc_ticked (v : Byte) : (answerProc v s).ticked = s.ticked := rfl
@[simp] theorem answerProc_draws (v : Byte) : (answerProc v s).draws = s.draws := rfl

/-! ### `answerHost` -/

@[simp] theorem answerHost_cfg (v : Byte) : (answerHost v s).cfg = s.cfg := rfl
@[simp] theorem answerHost_C (v : Byte) : (answerHost v s).C = s.C := rfl
@[simp] theorem answerHost_V (v : Byte) : (answerHost v s).V = s.V := rfl
@[simp] theorem answerHost_F (v : Byte) : (answerHost v s).F = s.F := rfl
@[simp] theorem answerHost_flash (v : Byte) : (answerHost v s).flash = s.flash := rfl
@[simp] theorem answerHost_border (v : Byte) : (answerHost v s).border = s.border := rfl
@[simp] theorem answerHost_speakerLevel (v : Byte) : (answerHost v s).speakerLevel = s.speakerLevel := rfl
@[simp] theorem answerHost_micLevel (v : Byte) : (answerHost v s).micLevel = s.micLevel := rfl
@[simp] theorem answerHost_stall (v : Byte) : (answerHost v s).stall = s.stall := rfl
@[simp] theorem answerHost_fetching (v : Byte) : (answerHost v s).fetching = s.fetching := rfl
@[simp] theorem answerHost_pressed (v : Byte) : (answerHost v s).pressed = s.pressed := rfl
@[simp] theorem answerHost_intLine (v : Byte) : (answerHost v s).intLine = s.intLine := rfl
@[simp] theorem answerHost_borderLatch (v : Byte) : (answerHost v s).borderLatch = s.borderLatch := rfl
@[simp] theorem answerHost_bitmapLatch (v : Byte) : (answerHost v s).bitmapLatch = s.bitmapLatch := rfl
@[simp] theorem answerHost_attrLatch (v : Byte) : (answerHost v s).attrLatch = s.attrLatch := rfl
@[simp] theorem answerHost_powered (v : Byte) : (answerHost v s).powered = s.powered := rfl
@[simp] theorem answerHost_fault (v : Byte) : (answerHost v s).fault = s.fault := rfl
@[simp] theorem answerHost_rom (v : Byte) : (answerHost v s).rom = s.rom := rfl
@[simp] theorem answerHost_vram (v : Byte) : (answerHost v s).vram = s.vram := rfl
@[simp] theorem answerHost_ram (v : Byte) : (answerHost v s).ram = s.ram := rfl
@[simp] theorem answerHost_pixbuf (v : Byte) : (answerHost v s).pixbuf = s.pixbuf := rfl
@[simp] theorem answerHost_audLevel (v : Byte) : (answerHost v s).audLevel = s.audLevel := rfl
@[simp] theorem answerHost_audLastTs (v : Byte) : (answerHost v s).audLastTs = s.audLastTs := rfl
@[simp] theorem answerHost_audCursor (v : Byte) : (answerHost v s).audCursor = s.audCursor := rfl
@[simp] theorem answerHost_audBuf (v : Byte) : (answerHost v s).audBuf = s.audBuf := rfl
@[simp] theorem answerHost_out (v : Byte) : (answerHost v s).out = s.out := rfl
@[simp] theorem answerHost_issuer (v : Byte) : (answerHost v s).issuer = s.issuer := rfl
@[simp] theorem answerHost_pending (v : Byte) : (answerHost v s).pending = s.pending := rfl
@[simp] theorem answerHost_proc (v : Byte) : (answerHost v s).proc = s.proc := rfl
@[simp] theorem answerHost_grant (v : Byte) : (answerHost v s).grant = s.grant := rfl
@[simp] theorem answerHost_grants (v : Byte) : (answerHost v s).grants = s.grants := rfl
@[simp] theorem answerHost_procReplies (v : Byte) : (answerHost v s).procReplies = s.procReplies := rfl
@[simp] theorem answerHost_hostReplies (v : Byte) : (answerHost v s).hostReplies = s.hostReplies ++ [v] := rfl
@[simp] theorem answerHost_powerLog (v : Byte) : (answerHost v s).powerLog = s.powerLog := rfl
@[simp] theorem answerHost_frameEnded (v : Byte) : (answerHost v s).frameEnded = s.frameEnded := rfl
@[simp] theorem answerHost_ticked (v : Byte) : (answerHost v s).ticked = s.ticked := rfl
@[simp] theorem answerHost_draws (v : Byte) : (answerHost v s).draws = s.draws := rfl

/-! ### `notify` -/

@[simp] theorem notify_cfg (ns : List PowerNotice) : (notify ns s).cfg = s.cfg := rfl
@[simp] theorem notify_C (ns : List PowerNotice) : (notify ns s).C = s.C := rfl
@[simp] theorem notify_V (ns : List PowerNotice) : (notify ns s).V = s.V := rfl
@[simp] theorem notify_F (ns : List PowerNotice) : (notify ns s).F = s.F := rfl
@[simp] theorem notify_flash (ns : List PowerNotice) : (notify ns s).flash = s.flash := rfl
@[simp] theorem notify_border (ns : List PowerNotice) : (notify ns s).border = s.border := rfl
@[simp] theorem notify_speakerLevel (ns : List PowerNotice) : (notify ns s).speakerLevel = s.speakerLevel := rfl
@[simp] theorem notify_micLevel (ns : List PowerNotice) : (notify ns s).micLevel = s.micLevel := rfl
@[simp] theorem notify_stall (ns : List PowerNotice) : (notify ns s).stall = s.stall := rfl
@[simp] theorem notify_fetching (ns : List PowerNotice) : (notify ns s).fetching = s.fetching := rfl
@[simp] theorem notify_pressed (ns : List PowerNotice) : (notify ns s).pressed = s.pressed := rfl
@[simp] theorem notify_intLine (ns : List PowerNotice) : (notify ns s).intLine = s.intLine := rfl
@[simp] theorem notify_borderLatch (ns : List PowerNotice) : (notify ns s).borderLatch = s.borderLatch := rfl
@[simp] theorem notify_bitmapLatch (ns : List PowerNotice) : (notify ns s).bitmapLatch = s.bitmapLatch := rfl
@[simp] theorem notify_attrLatch (ns : List PowerNotice) : (notify ns s).attrLatch = s.attrLatch := rfl
@[simp] theorem notify_powered (ns : List PowerNotice) : (notify ns s).powered = s.powered := rfl
@[simp] theorem notify_fault (ns : List PowerNotice) : (notify ns s).fault = s.fault := rfl
@[simp] theorem notify_rom (ns : List PowerNotice) : (notify ns s).rom = s.rom := rfl
@[simp] theorem notify_vram (ns : List PowerNotice) : (notify ns s).vram = s.vram := rfl
@[simp] theorem notify_ram (ns : List PowerNotice) : (notify ns s).ram = s.ram := rfl
@[simp] theorem notify_pixbuf (ns : List PowerNotice) : (notify ns s).pixbuf = s.pixbuf := rfl
@[simp] theorem notify_audLevel (ns : List PowerNotice) : (notify ns s).audLevel = s.audLevel := rfl
@[simp] theorem notify_audLastTs (ns : List PowerNotice) : (notify ns s).audLastTs = s.audLastTs := rfl
@[simp] theorem notify_audCursor (ns : List PowerNotice) : (notify ns s).audCursor = s.audCursor := rfl
@[simp] theorem notify_audBuf (ns : List PowerNotice) : (notify ns s).audBuf = s.audBuf := rfl
@[simp] theorem notify_out (ns : List PowerNotice) : (notify ns s).out = s.out := rfl
@[simp] theorem notify_issuer (ns : List PowerNotice) : (notify ns s).issuer = s.issuer := rfl
@[simp] theorem notify_pending (ns : List PowerNotice) : (notify ns s).pending = s.pending := rfl
@[simp] theorem notify_proc (ns : List PowerNotice) : (notify ns s).proc = s.proc := rfl
@[simp] theorem notify_grant (ns : List PowerNotice) : (notify ns s).grant = s.grant := rfl
@[simp] theorem notify_grants (ns : List PowerNotice) : (notify ns s).grants = s.grants := rfl
@[simp] theorem notify_procReplies (ns : List PowerNotice) : (notify ns s).procReplies = s.procReplies := rfl
@[simp] theorem notify_hostReplies (ns : List PowerNotice) : (notify ns s).hostReplies = s.hostReplies := rfl
@[simp] theorem notify_powerLog (ns : List PowerNotice) : (notify ns s).powerLog = s.powerLog ++ ns := rfl
@[simp] theorem notify_frameEnded (ns : List PowerNotice) : (notify ns s).frameEnded = s.frameEnded := rfl
@[simp] theorem notify_ticked (ns : List PowerNotice) : (notify ns s).ticked = s.ticked := rfl
@[simp] theorem notify_draws (ns : List PowerNotice) : (notify ns s).draws = s.draws := rfl

/-! ### `setFetching` -/

@[simp] theorem setFetching_cfg : (setFetching s).cfg = s.cfg := rfl
@[simp] theorem setFetching_C : (setFetching s).C = s.C := rfl
@[simp] theorem setFetching_V : (setFetching s).V = s.V := rfl
@[simp] theorem setFetching_F : (setFetching s).F = s.F := rfl
@[simp] theorem setFetching_flash : (setFetching s).flash = s.flash := rfl
@[simp] theorem setFetching_border : (setFetching s).border = s.border := rfl
@[simp] theorem setFetching_speakerLevel : (setFetching s).speakerLevel = s.speakerLevel := rfl
@[simp] theorem setFetching_micLevel : (setFetching s).micLevel = s.micLevel := rfl
@[simp] theorem setFetching_stall : (setFetching s).stall = s.stall := rfl
@[simp] theorem setFetching_fetching : (setFetching s).fetching = s.cfg.fetchWindow s.V s.C := rfl
@[simp] theorem setFetching_pressed : (setFetching s).pressed = s.pressed := rfl
@[simp] theorem setFetching_intLine : (setFetching s).intLine = s.intLine := rfl
@[simp] theorem setFetching_borderLatch : (setFetching s).borderLatch = s.borderLatch := rfl
@[simp] theorem setFetching_bitmapLatch : (setFetching s).bitmapLatch = s.bitmapLatch := rfl
@[simp] theorem setFetching_attrLatch : (setFetching s).attrLatch = s.attrLatch := rfl
@[simp] theorem setFetching_powered : (setFetching s).powered = s.powered := rfl
@[simp] theorem setFetching_fault : (setFetching s).fault = s.fault := rfl
@[simp] theorem setFetching_rom : (setFetching s).rom = s.rom := rfl
@[simp] theorem setFetching_vram : (setFetching s).vram = s.vram := rfl
@[simp] theorem setFetching_ram : (setFetching s).ram = s.ram := rfl
@[simp] theorem setFetching_pixbuf : (setFetching s).pixbuf = s.pixbuf := rfl
@[simp] theorem setFetching_audLevel : (setFetching s).audLevel = s.audLevel := rfl
@[simp] theorem setFetching_audLastTs : (setFetching s).audLastTs = s.audLastTs := rfl
@[simp] theorem setFetching_audCursor : (setFetching s).audCursor = s.audCursor := rfl
@[simp] theorem setFetching_audBuf : (setFetching s).audBuf = s.audBuf := rfl
@[simp] theorem setFetching_out : (setFetching s).out = s.out := rfl
@[simp] theorem setFetching_issuer : (setFetching s).issuer = s.issuer := rfl
@[simp] theorem setFetching_pending : (setFetching s).pending = s.pending := rfl
@[simp] theorem setFetching_proc : (setFetching s).proc = s.proc := rfl
@[simp] theorem setFetching_grant : (setFetching s).grant = s.grant := rfl
@[simp] theorem setFetching_grants : (setFetching s).grants = s.grants := rfl
@[simp] theorem setFetching_procReplies : (setFetching s).procReplies = s.procReplies := rfl
@[simp] theorem setFetching_hostReplies : (setFetching s).hostReplies = s.hostReplies := rfl
@[simp] theorem setFetching_powerLog : (setFetching s).powerLog = s.powerLog := rfl
@[simp] theorem setFetching_frameEnded : (setFetching s).frameEnded = s.frameEnded := rfl
@[simp] theorem setFetching_ticked : (setFetching s).ticked = s.ticked := rfl
@[simp] theorem setFetching_draws : (setFetching s).draws = s.draws := rfl

/-! ### `setIntLine` -/

@[simp] theorem setIntLine_cfg : (setIntLine s).cfg = s.cfg := rfl
@[simp] theorem setIntLine_C : (setIntLine s).C = s.C := rfl
@[simp] theorem setIntLine_V : (setIntLine s).V = s.V := rfl
@[simp] theorem setIntLine_F : (setIntLine s).F = s.F := rfl
@[simp] theorem setIntLine_flash : (setIntLine s).flash = s.flash := rfl
@[simp] theorem setIntLine_border : (setIntLine s).border = s.border := rfl
@[simp] theorem setIntLine_speakerLevel : (setIntLine s).speakerLevel = s.speakerLevel := rfl
@[simp] theorem setIntLine_micLevel : (setIntLine s).micLevel = s.micLevel := rfl
@[simp] theorem setIntLine_stall : (setIntLine s).stall = s.stall := rfl
@[simp] theorem setIntLine_fetching : (setIntLine s).fetching = s.fetching := rfl
@[simp] theorem setIntLine_pressed : (setIntLine s).pressed = s.pressed := rfl
@[simp] theorem setIntLine_intLine : (setIntLine s).intLine = s.cfg.inPulse s.V s.C := rfl
@[simp] theorem setIntLine_borderLatch : (setIntLine s).borderLatch = s.borderLatch := rfl
@[simp] theorem setIntLine_bitmapLatch : (setIntLine s).bitmapLatch = s.bitmapLatch := rfl
@[simp] theorem setIntLine_attrLatch : (setIntLine s).attrLatch = s.attrLatch := rfl
@[simp] theorem setIntLine_powered : (setIntLine s).powered = s.powered := rfl
@[simp] theorem setIntLine_fault : (setIntLine s).fault = s.fault := rfl
@[simp] theorem setIntLine_rom : (setIntLine s).rom = s.rom := rfl
@[simp] theorem setIntLine_vram : (setIntLine s).vram = s.vram := rfl
@[simp] theorem setIntLine_ram : (setIntLine s).ram = s.ram := rfl
@[simp] theorem setIntLine_pixbuf : (setIntLine s).pixbuf = s.pixbuf := rfl
@[simp] theorem setIntLine_audLevel : (setIntLine s).audLevel = s.audLevel := rfl
@[simp] theorem setIntLine_audLastTs : (setIntLine s).audLastTs = s.audLastTs := rfl
@[simp] theorem setIntLine_audCursor : (setIntLine s).audCursor = s.audCursor := rfl
@[simp] theorem setIntLine_audBuf : (setIntLine s).audBuf = s.audBuf := rfl
@[simp] theorem setIntLine_out : (setIntLine s).out = s.out := rfl
@[simp] theorem setIntLine_issuer : (setIntLine s).issuer = s.issuer := rfl
@[simp] theorem setIntLine_pending : (setIntLine s).pending = s.pending := rfl
@[simp] theorem setIntLine_proc : (setIntLine s).proc = s.proc := rfl
@[simp] theorem setIntLine_grant : (setIntLine s).grant = s.grant := rfl
@[simp] theorem setIntLine_grants : (setIntLine s).grants = s.grants := rfl
@[simp] theorem setIntLine_procReplies : (setIntLine s).procReplies = s.procReplies := rfl
@[simp] theorem setIntLine_hostReplies : (setIntLine s).hostReplies = s.hostReplies := rfl
@[simp] theorem setIntLine_powerLog : (setIntLine s).powerLog = s.powerLog := rfl
@[simp] theorem setIntLine_frameEnded : (setIntLine s).frameEnded = s.frameEnded := rfl
@[simp] theorem setIntLine_ticked : (setIntLine s).ticked = s.ticked := rfl
@[simp] theorem setIntLine_draws : (setIntLine s).draws = s.draws := rfl

/-! ### `grantCycle` -/

@[simp] theorem grantCycle_cfg : (grantCycle s).cfg = s.cfg := rfl
@[simp] theorem grantCycle_C : (grantCycle s).C = s.C := rfl
@[simp] theorem grantCycle_V : (grantCycle s).V = s.V := rfl
@[simp] theorem grantCycle_F : (grantCycle s).F = s.F := rfl
@[simp] theorem grantCycle_flash : (grantCycle s).flash = s.flash := rfl
@[simp] theorem grantCycle_border : (grantCycle s).border = s.border := rfl
@[simp] theorem grantCycle_speakerLevel : (grantCycle s).speakerLevel = s.speakerLevel := rfl
@[simp] theorem grantCycle_micLevel : (grantCycle s).micLevel = s.micLevel := rfl
@[simp] theorem grantCycle_stall : (grantCycle s).stall = s.stall := rfl
@[simp] theorem grantCycle_fetching : (grantCycle s).fetching = s.fetching := rfl
@[simp] theorem grantCycle_pressed : (grantCycle s).pressed = s.pressed := rfl
@[simp] theorem grantCycle_intLine : (grantCycle s).intLine = s.intLine := rfl
@[simp] theorem grantCycle_borderLatch : (grantCycle s).borderLatch = s.borderLatch := rfl
@[simp] theorem grantCycle_bitmapLatch : (grantCycle s).bitmapLatch = s.bitmapLatch := rfl
@[simp] theorem grantCycle_attrLatch : (grantCycle s).attrLatch = s.attrLatch := rfl
@[simp] theorem grantCycle_powered : (grantCycle s).powered = s.powered := rfl
@[simp] theorem grantCycle_fault : (grantCycle s).fault = s.fault := rfl
@[simp] theorem grantCycle_rom : (grantCycle s).rom = s.rom := rfl
@[simp] theorem grantCycle_vram : (grantCycle s).vram = s.vram := rfl
@[simp] theorem grantCycle_ram : (grantCycle s).ram = s.ram := rfl
@[simp] theorem grantCycle_pixbuf : (grantCycle s).pixbuf = s.pixbuf := rfl
@[simp] theorem grantCycle_audLevel : (grantCycle s).audLevel = s.audLevel := rfl
@[simp] theorem grantCycle_audLastTs : (grantCycle s).audLastTs = s.audLastTs := rfl
@[simp] theorem grantCycle_audCursor : (grantCycle s).audCursor = s.audCursor := rfl
@[simp] theorem grantCycle_audBuf : (grantCycle s).audBuf = s.audBuf := rfl
@[simp] theorem grantCycle_out : (grantCycle s).out = s.out := rfl
@[simp] theorem grantCycle_issuer : (grantCycle s).issuer = s.issuer := rfl
@[simp] theorem grantCycle_pending : (grantCycle s).pending = s.pending := rfl
@[simp] theorem grantCycle_proc : (grantCycle s).proc = s.proc.tail := rfl
@[simp] theorem grantCycle_grant : (grantCycle s).grant = some (s.proc.headD ProcCycle.idle) := rfl
@[simp] theorem grantCycle_grants : (grantCycle s).grants = s.grants ++ [s.intLine] := rfl
@[simp] theorem grantCycle_procReplies : (grantCycle s).procReplies = s.procReplies := rfl
@[simp] theorem grantCycle_hostReplies : (grantCycle s).hostReplies = s.hostReplies := rfl
@[simp] theorem grantCycle_powerLog : (grantCycle s).powerLog = s.powerLog := rfl
@[simp] theorem grantCycle_frameEnded : (grantCycle s).frameEnded = s.frameEnded := rfl
@[simp] theorem grantCycle_ticked : (grantCycle s).ticked = s.ticked := rfl
@[simp] theorem grantCycle_draws : (grantCycle s).draws = s.draws := rfl

end Sys2Proof.Machine
end

