-- ==== Sys2Proof/Laws/Ops.lean ====
section
/-!
SUPPORT. One lemma for each shared operation that says once everything it can do: as an equation with a
record update where the operation is one, so that its frame is read off the fields not named.
-/

namespace Sys2Proof.Machine

variable (s t : State)

/-! ### Guard, faults, refusals -/

theorem transact_turn {turn : State → Bool} {i : Instr} {body : State → Result}
    (hf : s.fault = none) (ht : turn s = true) : transact turn i s body = body s := by
  simp [transact, hf, ht]

theorem transact_wrong_turn {turn : State → Bool} {i : Instr} {body : State → Result}
    (hf : s.fault = none) (ht : turn s = false) :
    transact turn i s body = .next { s with fault := some (.badTransaction (encode i)) } := by
  simp [transact, hf, ht, refuse]

theorem transact_faulted {turn : State → Bool} {i : Instr} {body : State → Result} {e : Error}
    (hf : s.fault = some e) : transact turn i s body = stuck e := by
  simp [transact, hf]

/-- Everything a guarded transaction can do. -/
theorem transact_cases (turn : State → Bool) (i : Instr) (body : State → Result) :
    (∃ e, s.fault = some e ∧ transact turn i s body = stuck e) ∨
    (s.fault = none ∧ turn s = false ∧
      transact turn i s body = .next { s with fault := some (.badTransaction (encode i)) }) ∨
    (s.fault = none ∧ turn s = true ∧ transact turn i s body = body s) := by
  cases hf : s.fault with
  | some e => exact .inl ⟨e, rfl, transact_faulted s hf⟩
  | none =>
    cases ht : turn s with
    | false => exact .inr (.inl ⟨rfl, rfl, transact_wrong_turn s hf ht⟩)
    | true => exact .inr (.inr ⟨rfl, rfl, transact_turn s hf ht⟩)

/-- A stuck machine has no next state. -/
theorem stuck_ne_next (e : Error) : stuck e ≠ .next t := by
  unfold stuck; split <;> simp

/-- Fault entry sets `fault`, keeps what no transaction writes and what agents have been given, and leaves
the output history any extension of what it was. -/
theorem raise_spec (e : Error) : ∃ u es, raise e s = .next u ∧ u.fault = some e ∧ u.cfg = s.cfg ∧
    u.rom = s.rom ∧ u.out = s.out ++ es ∧ u.grants = s.grants ∧ u.procReplies = s.procReplies ∧
    u.hostReplies = s.hostReplies ∧ u.powerLog = s.powerLog ∧ u.draws = s.draws + 1 :=
  ⟨_, _, rfl, rfl, rfl, rfl, rfl, rfl, rfl, rfl, rfl, rfl⟩

theorem hostTurn_iff : hostTurn s = true ↔ s.issuer = .host ∧ s.grant = none := by
  simp [hostTurn]

theorem processorTurn_iff : processorTurn s = true ↔ s.issuer = .processor ∧ s.grant.isSome = true := by
  simp [processorTurn]

theorem audioTurn_iff : audioTurn s = true ↔
    s.issuer = .harness ∧ s.grant = none ∧ s.ticked = false := by
  simp [audioTurn, and_assoc]

/-! ### Bus and contention -/

theorem contend_eq (a : Addr) : contend a s =
    { s with stall := if s.fetching && contended a then s.stall + contentionCredits else s.stall } := by
  unfold contend; split <;> rfl

@[simp] theorem busRead_romAddr (o : BitVec 14) : busRead s (romAddr o) = s.rom.read o.toNat := by
  simp [busRead]

@[simp] theorem busRead_vramAddr (o : BitVec 14) : busRead s (vramAddr o) = s.vram.read o.toNat := by
  simp [busRead]

@[simp] theorem busRead_ramAddr (o : BitVec 15) : busRead s (ramAddr o) = s.ram.read o.toNat := by
  simp [busRead]

@[simp] theorem busWrite_romAddr (o : BitVec 14) (v : Byte) : busWrite s (romAddr o) v = s := by
  simp [busWrite]

@[simp] theorem busWrite_vramAddr (o : BitVec 14) (v : Byte) :
    busWrite s (vramAddr o) v = { s with vram := s.vram.write o.toNat v } := by
  simp [busWrite]

@[simp] theorem busWrite_ramAddr (o : BitVec 15) (v : Byte) :
    busWrite s (ramAddr o) v = { s with ram := s.ram.write o.toNat v } := by
  simp [busWrite]

/-- `busRead` by the address's value. -/
theorem busRead_of_toNat (a : Addr) : busRead s a =
    if a.toNat < 0x4000 then s.rom.read a.toNat
    else if a.toNat < 0x8000 then s.vram.read (a.toNat - 0x4000)
    else s.ram.read (a.toNat - 0x8000) := by
  unfold busRead
  rw [mapAddr_of_toNat]
  by_cases h1 : a.toNat < 0x4000
  · simp [h1]
  · by_cases h2 : a.toNat < 0x8000 <;> simp [h1, h2]

/-- `busWrite` by the address's value. -/
theorem busWrite_of_toNat (a : Addr) (v : Byte) : busWrite s a v =
    if a.toNat < 0x4000 then s
    else if a.toNat < 0x8000 then { s with vram := s.vram.write (a.toNat - 0x4000) v }
    else { s with ram := s.ram.write (a.toNat - 0x8000) v } := by
  unfold busWrite
  rw [mapAddr_of_toNat]
  by_cases h1 : a.toNat < 0x4000
  · simp [h1]
  · by_cases h2 : a.toNat < 0x8000 <;> simp [h1, h2]

/-- A bus write changes VRAM and RAM at most. -/
theorem busWrite_eq (a : Addr) (v : Byte) :
    ∃ vram ram, busWrite s a v = { s with vram := vram, ram := ram } := by
  rw [busWrite_of_toNat]
  split
  · exact ⟨s.vram, s.ram, rfl⟩
  · split <;> exact ⟨_, _, rfl⟩

/-- Read after write on the bus: ROM keeps its bytes, every other address takes the byte written. -/
theorem busRead_busWrite (a b : Addr) (v : Byte) :
    busRead (busWrite s a v) b = if b = a ∧ 0x4000 ≤ a.toNat then v else busRead s b := by
  have ha := a.isLt
  have hb := b.isLt
  have hab : b = a ↔ b.toNat = a.toNat := by rw [BitVec.toNat_inj]
  rw [busWrite_of_toNat, busRead_of_toNat, busRead_of_toNat]
  simp only [hab]
  by_cases h1 : a.toNat < 0x4000
  · rw [if_pos h1, if_neg (show ¬ (b.toNat = a.toNat ∧ 0x4000 ≤ a.toNat) by omega)]
  · rw [if_neg h1]
    by_cases h2 : a.toNat < 0x8000
    · rw [if_pos h2]
      by_cases h3 : b.toNat < 0x4000
      · rw [if_pos h3, if_pos h3, if_neg (by omega)]
      · rw [if_neg h3, if_neg h3]
        by_cases h4 : b.toNat < 0x8000
        · rw [if_pos h4, if_pos h4, Memory.read_write]
          split <;> split <;> first | rfl | omega
        · rw [if_neg h4, if_neg h4, if_neg (by omega)]
    · rw [if_neg h2]
      by_cases h3 : b.toNat < 0x4000
      · rw [if_pos h3, if_pos h3, if_neg (by omega)]
      · rw [if_neg h3, if_neg h3]
        by_cases h4 : b.toNat < 0x8000
        · rw [if_pos h4, if_pos h4, if_neg (by omega)]
        · rw [if_neg h4, if_neg h4, Memory.read_write]
          split <;> split <;> first | rfl | omega

/-- Every bus write keeps every region's canonical form. -/
theorem busWrite_wf (a : Addr) (v : Byte) (hv : s.vram.wf Region.vram.size = true)
    (hr : s.ram.wf Region.ram.size = true) :
    (busWrite s a v).vram.wf Region.vram.size = true ∧ (busWrite s a v).ram.wf Region.ram.size = true := by
  have ha := a.isLt
  rw [busWrite_of_toNat]
  split
  · exact ⟨hv, hr⟩
  · split
    · exact ⟨Memory.wf_write _ _ _ hv (by simp only [Region.size]; omega), hr⟩
    · exact ⟨hv, Memory.wf_write _ _ _ hr (by simp only [Region.size]; omega)⟩

/-! ### The synthesizer -/

@[simp] theorem length_fillSlots (bs : List Bool) (lo hi : Nat) (v : Bool) :
    (fillSlots bs lo hi v).length = bs.length := by
  induction bs generalizing lo hi with
  | nil => simp [fillSlots]
  | cons b bs ih => cases lo <;> simp [fillSlots, ih]

/-- A fill writes the slots of `[lo, hi)` and no other. -/
theorem getElem?_fillSlots (bs : List Bool) (lo hi k : Nat) (v : Bool) :
    (fillSlots bs lo hi v)[k]? = if lo ≤ k ∧ k < hi ∧ k < bs.length then some v else bs[k]? := by
  induction bs generalizing lo hi k with
  | nil => simp [fillSlots]
  | cons b bs ih =>
    cases lo with
    | zero =>
      cases k with
      | zero => by_cases h : 0 < hi <;> simp [fillSlots, h]
      | succ k =>
        simp only [fillSlots, List.getElem?_cons_succ, ih, List.length_cons]
        congr 1
        simp only [eq_iff_iff]
        omega
    | succ lo =>
      cases k with
      | zero => simp [fillSlots]
      | succ k =>
        simp only [fillSlots, List.getElem?_cons_succ, ih, List.length_cons]
        congr 1
        simp only [eq_iff_iff]
        omega

theorem audioError_decreasing {n : Nat} (h : n < s.audLastTs) :
    audioError n s = some (.audioTsDecreasing n s.audLastTs) := by
  simp [audioError, h]

theorem audioError_range {n : Nat} (h : s.audLastTs ≤ n) (hn : s.cfg.frameCycles ≤ n) :
    audioError n s = some (.audioTsRange n) := by
  simp [audioError, Nat.not_lt.2 h, hn]

theorem audioError_none_iff (n : Nat) :
    audioError n s = none ↔ s.audLastTs ≤ n ∧ n < s.cfg.frameCycles := by
  unfold audioError
  split
  · simp; omega
  · split <;> simp <;> omega

theorem audioLevelChange_decreasing (level : Bool) {n : Nat} (h : n < s.audLastTs) :
    audioLevelChange level n s = raise (.audioTsDecreasing n s.audLastTs) s := by
  simp [audioLevelChange, audioError_decreasing s h]

theorem audioLevelChange_range (level : Bool) {n : Nat} (h : s.audLastTs ≤ n)
    (hn : s.cfg.frameCycles ≤ n) : audioLevelChange level n s = raise (.audioTsRange n) s := by
  simp [audioLevelChange, audioError_range s h hn]

theorem audioLevelChange_ok (level : Bool) {n : Nat} (h : s.audLastTs ≤ n)
    (hn : n < s.cfg.frameCycles) :
    audioLevelChange level n s = .next (audioFill level n s) := by
  simp [audioLevelChange, (audioError_none_iff s n).2 ⟨h, hn⟩]

theorem endFrame_eq : endFrame s = { s with
    audBuf := fillSlots s.audBuf s.audCursor s.cfg.sampleCount s.audLevel,
    audCursor := 0, audLastTs := 0,
    out := s.out ++ [.audioFrame (fillSlots s.audBuf s.audCursor s.cfg.sampleCount s.audLevel)] } := rfl

/-! ### Counters -/

theorem countFrame_eq : countFrame s = { s with
    F := if s.F = 15 then 0 else s.F + 1, flash := if s.F = 15 then !s.flash else s.flash } := by
  unfold countFrame; split <;> rfl

/-- The advance inside a line. -/
theorem advance_in_line (h : s.C + 1 ≠ s.cfg.hTotal) :
    advance s = { s with C := s.C + 1, frameEnded := false, ticked := true } := by
  simp [advance, h]

/-- The advance at the end of a line that is not the frame's last. -/
theorem advance_line_end (h : s.C + 1 = s.cfg.hTotal) (hv : s.V + 1 ≠ s.cfg.vTotal) :
    advance s = { s with C := 0, V := s.V + 1, frameEnded := false, ticked := true } := by
  simp [advance, h, hv]

/-- The advance at the end of the frame. -/
theorem advance_frame_end (h : s.C + 1 = s.cfg.hTotal) (hv : s.V + 1 = s.cfg.vTotal) :
    advance s =
      endFrame (countFrame { s with C := 0, V := 0, frameEnded := true, ticked := true }) := by
  simp [advance, h, hv, frameWrap]

/-- What the advance may write: the counters, the flash flag, the marks of a completed tick and of a frame's
end, and the synthesizer's frame with its event. -/
theorem advance_eq : ∃ c v f fl fe buf cursor ts es, advance s = { s with
    C := c, V := v, F := f, flash := fl, frameEnded := fe, ticked := true, audBuf := buf,
    audCursor := cursor, audLastTs := ts, out := s.out ++ es } := by
  by_cases h : s.C + 1 = s.cfg.hTotal
  · by_cases hv : s.V + 1 = s.cfg.vTotal
    · rw [advance_frame_end s h hv, endFrame_eq, countFrame_eq]
      exact ⟨_, _, _, _, _, _, _, _, _, rfl⟩
    · refine ⟨0, s.V + 1, s.F, s.flash, false, s.audBuf, s.audCursor, s.audLastTs, [], ?_⟩
      rw [advance_line_end s h hv, List.append_nil]
  · refine ⟨s.C + 1, s.V, s.F, s.flash, false, s.audBuf, s.audCursor, s.audLastTs, [], ?_⟩
    rw [advance_in_line s h, List.append_nil]

/-! ### The end of a granted cycle -/

theorem closeCycle_done (hf : s.fault = none) (hg : s.grant = some ⟨[], 1⟩) :
    closeCycle s = .next (advance { s with grant := none }) := by
  simp [closeCycle, hf, hg]

theorem closeCycle_count {k : Nat} (hk : k ≠ 1) (hf : s.fault = none) (hg : s.grant = some ⟨[], k⟩) :
    closeCycle s = .next { s with fault := some (.procCycleCount k) } := by
  simp [closeCycle, hf, hg, hk, refuse]

theorem closeCycle_open {w : TransWord} {ws : List TransWord} {k : Nat}
    (hg : s.grant = some ⟨w :: ws, k⟩) : closeCycle s = .next s := by
  unfold closeCycle; rw [hg]; cases s.fault <;> rfl

/-- Everything the closing of a cycle can do. -/
theorem closeCycle_cases :
    (closeCycle s = .next s ∧ (s.fault ≠ none ∨ ∀ k, s.grant ≠ some ⟨[], k⟩)) ∨
    (s.fault = none ∧ s.grant = some ⟨[], 1⟩ ∧ closeCycle s = .next (advance { s with grant := none })) ∨
    (s.fault = none ∧ ∃ k, k ≠ 1 ∧ s.grant = some ⟨[], k⟩ ∧
      closeCycle s = .next { s with fault := some (.procCycleCount k) }) := by
  unfold closeCycle
  cases hf : s.fault with
  | some e => exact .inl ⟨rfl, .inl (by simp)⟩
  | none =>
    rcases hg : s.grant with _ | ⟨_ | ⟨w, ws⟩, k⟩
    · exact .inl ⟨rfl, .inr (by simp)⟩
    · by_cases hk : k = 1
      · subst hk; exact .inr (.inl ⟨rfl, rfl, by simp⟩)
      · exact .inr (.inr ⟨rfl, k, hk, rfl, by simp [hk, refuse, hg]⟩)
    · exact .inl ⟨rfl, .inr (by simp)⟩

@[simp] theorem closeCycle_between (h : s.grant = none) : closeCycle s = .next s := by
  rcases closeCycle_cases s with ⟨h', -⟩ | ⟨-, hg, -⟩ | ⟨-, k, -, hg, -⟩
  · exact h'
  · simp [h] at hg
  · simp [h] at hg

theorem closeCycle_fault {e : Error} (h : s.fault = some e) : closeCycle s = .next s := by
  simp [closeCycle, h]

end Sys2Proof.Machine
end

