-- ==== Sys2Proof/Laws/Tick.lean ====
section
/-!
SUPPORT. What each part of the tick can do: rendering writes the pixel buffer and the latches, the
processor-rate unit the stall counter or the grant; and where a cell's pixel goes.
-/

namespace Sys2Proof.Machine

variable (s t : State)

/-! ### Position classes -/

theorem visible_iff (p : Config) (v c : Nat) :
    p.visible v c = true ↔ (p.row v).isSome = true ∧ c < p.rasterWidth := by
  have hw : p.rasterWidth = p.leftBorder + Config.activeWidth + p.rightBorder := rfl
  simp only [Config.visible, Config.row, Config.hSegment, Config.vSegment]
  repeat' split
  all_goals simp_all <;> omega

theorem fetchWindow_iff (p : Config) (v c : Nat) : p.fetchWindow v c = true ↔
    v < p.activeHeight ∧ p.leftBorder ≤ c ∧ c < p.leftBorder + Config.activeWidth := by
  simp [Config.fetchWindow, and_assoc]

/-- Every bitmap tick is visible. -/
theorem visible_of_fetchWindow {p : Config} {v c : Nat} (h : p.fetchWindow v c = true) :
    p.visible v c = true := by
  rw [fetchWindow_iff] at h
  rw [visible_iff]
  refine ⟨by simp [Config.row, Config.vSegment, h.1], ?_⟩
  simp only [Config.rasterWidth]
  omega

theorem row_lt {p : Config} {v y : Nat} (hv : v < p.vTotal) (h : p.row v = some y) :
    y < p.rasterHeight := by
  have hH : p.rasterHeight = p.topBorder + p.activeHeight + p.bottomBorder := rfl
  have h0 : p.vs0 = p.activeHeight + p.bottomBorder := rfl
  have hT : p.vTotal = p.tb0 + p.topBorder := rfl
  unfold Config.row Config.vSegment at h
  by_cases h1 : v < p.activeHeight
  · simp [h1] at h; omega
  · by_cases h2 : v < p.vs0
    · simp [h1, h2] at h; omega
    · by_cases h3 : v < p.tb0
      · simp [h1, h2, h3] at h
      · simp [h1, h2, h3] at h; omega

/-! ### Rendering -/

theorem putPixel_eq (index : BitVec 4) : putPixel index s = { s with pixbuf :=
    ((s.cfg.row s.V).elim s.pixbuf fun y =>
      Cells.write s.pixbuf (y * s.cfg.rasterWidth + s.C) index) } := by
  unfold putPixel; split <;> simp_all

theorem fetchCell_eq : fetchCell s = { s with
    bitmapLatch := if (s.C - s.cfg.leftBorder) % 8 = 0 then
      s.vram.read (s.cfg.bitmapAddr s.V ((s.C - s.cfg.leftBorder) / 8) - 0x4000) else s.bitmapLatch,
    attrLatch := if (s.C - s.cfg.leftBorder) % 8 = 0 then
      s.vram.read (s.cfg.attrAddr s.V ((s.C - s.cfg.leftBorder) / 8) - 0x4000) else s.attrLatch } := by
  unfold fetchCell; dsimp only; split <;> rfl

theorem sampleBorder_eq : sampleBorder s =
    { s with borderLatch := if s.C % 8 = 0 then s.border else s.borderLatch } := by
  unfold sampleBorder; split <;> rfl

/-- Rendering writes the pixel buffer and the three latches at most. -/
theorem render_eq : ∃ px bl bm la, render s =
    { s with pixbuf := px, borderLatch := bl, bitmapLatch := bm, attrLatch := la } := by
  unfold render renderBitmap renderBorder drawBitmap drawBorder
  rw [putPixel_eq, putPixel_eq, fetchCell_eq, sampleBorder_eq]
  split
  · split <;> exact ⟨_, _, _, _, rfl⟩
  · exact ⟨_, _, _, _, rfl⟩

/-- Steps 1 to 3 write the two flags, the pixel buffer and the latches. -/
theorem video_eq : ∃ px bl bm la, video s = { s with
    pixbuf := px, borderLatch := bl, bitmapLatch := bm, attrLatch := la,
    fetching := s.cfg.fetchWindow s.V s.C, intLine := s.cfg.inPulse s.V s.C } := by
  obtain ⟨px, bl, bm, la, h⟩ := render_eq (setFetching s)
  exact ⟨px, bl, bm, la, by unfold video; rw [h]; rfl⟩

/-- Rendering keeps the pixel buffer's canonical form at every position of the raster. -/
theorem wf_render (hr : RasterOk s)
    (h : Cells.wf (s.cfg.rasterWidth * s.cfg.rasterHeight) s.pixbuf = true) :
    Cells.wf (s.cfg.rasterWidth * s.cfg.rasterHeight) (render s).pixbuf = true := by
  have key : s.cfg.visible s.V s.C = true → ∀ ix, Cells.wf (s.cfg.rasterWidth * s.cfg.rasterHeight)
      ((s.cfg.row s.V).elim s.pixbuf fun y =>
        Cells.write s.pixbuf (y * s.cfg.rasterWidth + s.C) ix) = true := by
    intro hvis ix
    obtain ⟨-, hc⟩ := (visible_iff _ _ _).1 hvis
    rcases hy : s.cfg.row s.V with _ | y
    · exact h
    · refine Cells.wf_write _ _ _ h ?_
      have hy' := row_lt hr.2 hy
      calc y * s.cfg.rasterWidth + s.C < (y + 1) * s.cfg.rasterWidth := by rw [Nat.succ_mul]; omega
        _ ≤ s.cfg.rasterHeight * s.cfg.rasterWidth := Nat.mul_le_mul_right _ hy'
        _ = _ := Nat.mul_comm _ _
  unfold render
  split
  · rename_i hvis
    split
    · unfold renderBitmap drawBitmap
      rw [putPixel_eq, fetchCell_eq]
      exact key hvis _
    · unfold renderBorder drawBorder
      rw [putPixel_eq, sampleBorder_eq]
      exact key hvis _
  · exact h

/-! ### The processor-rate unit -/

/-- Everything the processor-rate unit can do: nothing, consume a credit, or grant a cycle. -/
theorem processorUnit_cases :
    processorUnit s = s ∨
    (0 < s.stall ∧ processorUnit s = { s with stall := s.stall - 1 }) ∨
    (s.stall = 0 ∧ Config.processorUnit s.C = true ∧ processorUnit s = grantCycle s) := by
  unfold processorUnit
  split
  · split
    · split
      · exact .inr (.inl ⟨‹_›, rfl⟩)
      · exact .inr (.inr ⟨by omega, ‹_›, rfl⟩)
    · exact .inl rfl
  · split
    · exact .inr (.inl ⟨‹_›, rfl⟩)
    · split
      · exact .inr (.inr ⟨by omega, ‹_›, rfl⟩)
      · exact .inl rfl

/-- A tick grants no cycle unless it is a processor-rate unit with no credit pending. -/
theorem processorUnit_grant (h : s.grant = none) :
    (processorUnit s).grant = none ∨
    (s.stall = 0 ∧ Config.processorUnit s.C = true ∧ processorUnit s = grantCycle s) := by
  rcases processorUnit_cases s with h' | ⟨-, h'⟩ | h'
  · exact .inl (by rw [h', h])
  · exact .inl (by rw [h', h])
  · exact .inr h'

/-- Everything steps 4 and 5 can do between ticks: advance without a grant; advance after an idle cycle;
stand in the granted cycle; or be refused for the reported count. -/
theorem unitAndAdvance_cases (hf : s.fault = none) (hg : s.grant = none) :
    ((processorUnit s).grant = none ∧ unitAndAdvance s = .next (advance (processorUnit s))) ∨
    (s.stall = 0 ∧ Config.processorUnit s.C = true ∧
      ((s.proc.headD .idle = ⟨[], 1⟩ ∧
          unitAndAdvance s = .next (advance { grantCycle s with grant := none })) ∨
       ((∃ w ws k, s.proc.headD .idle = ⟨w :: ws, k⟩) ∧ unitAndAdvance s = .next (grantCycle s)) ∨
       (∃ k, k ≠ 1 ∧ s.proc.headD .idle = ⟨[], k⟩ ∧
          unitAndAdvance s = .next { grantCycle s with fault := some (.procCycleCount k) }))) := by
  rcases processorUnit_grant s hg with h | ⟨h1, h2, h3⟩
  · left
    refine ⟨h, ?_⟩
    unfold unitAndAdvance
    simp [h]
  · right
    refine ⟨h1, h2, ?_⟩
    have hu : unitAndAdvance s = closeCycle (grantCycle s) := by
      unfold unitAndAdvance
      simp [h3]
    rw [hu]
    rcases hh : s.proc.headD ProcCycle.idle with ⟨_ | ⟨w, ws⟩, k⟩
    · by_cases hk : k = 1
      · subst hk
        exact .inl ⟨rfl, closeCycle_done _ hf (congrArg some hh)⟩
      · exact .inr (.inr ⟨k, hk, rfl, closeCycle_count _ hk hf (congrArg some hh)⟩)
    · exact .inr (.inl ⟨⟨w, ws, k, rfl⟩, closeCycle_open _ (congrArg some hh)⟩)

end Sys2Proof.Machine
end

