-- ==== Sys2Proof/Laws/Exec.lean ====
section
/-!
SUPPORT. `exec` in one equation: the guard of every transaction (60_exceptions.md R228) around its own
effect, and the three things that follow from it for every transaction at once.
-/

namespace Sys2Proof.Machine

/-- A transaction's own effect, once its guard has let it through. -/
def effect : Instr → State → Result
  | .tick, s => if s.powered then poweredTick s else .next s
  | .mrdRom o, s => .next (processorRead (romAddr o) s)
  | .mrdVram o, s => .next (processorRead (vramAddr o) s)
  | .mrdRam o, s => .next (processorRead (ramAddr o) s)
  | .mwrRom o v, s => .next (processorWrite (romAddr o) v s)
  | .mwrVram o v, s => .next (processorWrite (vramAddr o) v s)
  | .mwrRam o v, s => .next (processorWrite (ramAddr o) v s)
  | .iordUla p, s => .next (keyboardRead (ulaPort p) s)
  | .iordOther p, s => .next (answerProc (otherPortByte s.cfg (otherPort p)) s)
  | .iowrUla _ v, s => ulaWrite v s
  | .iowrOther _ _, s => .next s
  | .peek a, s => .next (answerHost (busRead s a) s)
  | .poke a v, s => .next (busWrite s a v)
  | .keydn k, s =>
    if k.toNat < keyCount then .next { s with pressed := insertKey k.toNat s.pressed }
    else refuse (.badTransaction (encode (.keydn k))) s
  | .keyup k, s =>
    if k.toNat < keyCount then .next { s with pressed := removeKey k.toNat s.pressed }
    else refuse (.badTransaction (encode (.keyup k))) s
  | .pwron, s => .next (powerOn s)
  | .pwroff, s => .next (powerOff s)
  | .loadRom o _, s => whenPowered (romAddr o) s fun s => raise (.loadRomOverwrite (romAddr o)) s
  | .loadMemVram o v, s => whenPowered (vramAddr o) s fun s => .next (busWrite s (vramAddr o) v)
  | .loadMemRam o v, s => whenPowered (ramAddr o) s fun s => .next (busWrite s (ramAddr o) v)
  | .setborder c, s => .next (emit (.borderChanged c) { s with border := c })
  | .audlvl lvl ts, s => audioLevelChange lvl ts.toNat s
  | .audend, s => .next (endFrame s)

/-- Every meaning is the guard around its effect. -/
theorem exec_eq (i : Instr) (s : State) : exec i s = transact (turnOf i) i s (effect i) := by
  cases i <;> rfl

/-- In its issuer's turn a transaction has its own effect. -/
theorem exec_turn {i : Instr} {s : State} (hf : s.fault = none) (ht : turnOf i s = true) :
    exec i s = effect i s := by
  rw [exec_eq, transact_turn s hf ht]

/-- A powered tick is its steps 1 to 3, then its steps 4 and 5. -/
theorem exec_tick {s : State} (h : HostReady s) (hp : s.powered = true) :
    exec .tick s = unitAndAdvance (video s) := by
  rw [exec_turn h.1 (by simp [turnOf, hostTurn, h.2.1, h.2.2])]
  simp [effect, hp, poweredTick]

/-- `effect` answers a next state whatever the state. -/
theorem effect_next (i : Instr) (s : State) : ∃ t, effect i s = .next t := by
  cases i
  case tick =>
    simp only [effect]
    split
    · unfold poweredTick unitAndAdvance
      dsimp only
      split
      · rcases closeCycle_cases (processorUnit (video s)) with h | ⟨_, _, h⟩ | ⟨_, k, _, _, h⟩
        · exact ⟨_, h.1⟩
        · exact ⟨_, h⟩
        · exact ⟨_, h⟩
      · exact ⟨_, rfl⟩
    · exact ⟨_, rfl⟩
  case iowrUla =>
    simp only [effect, ulaWrite]
    split <;> exact ⟨_, rfl⟩
  case audlvl =>
    simp only [effect, audioLevelChange]
    split <;> exact ⟨_, rfl⟩
  case keydn => simp only [effect]; split <;> exact ⟨_, rfl⟩
  case keyup => simp only [effect]; split <;> exact ⟨_, rfl⟩
  case loadRom => simp only [effect, whenPowered]; split <;> exact ⟨_, rfl⟩
  case loadMemVram => simp only [effect, whenPowered]; split <;> exact ⟨_, rfl⟩
  case loadMemRam => simp only [effect, whenPowered]; split <;> exact ⟨_, rfl⟩
  all_goals exact ⟨_, rfl⟩

/-- Everything a transaction can do. -/
theorem exec_cases (i : Instr) (s : State) :
    (∃ e, s.fault = some e ∧ exec i s = stuck e) ∨
    (s.fault = none ∧ turnOf i s = false ∧
      exec i s = .next { s with fault := some (.badTransaction (encode i)) }) ∨
    (s.fault = none ∧ turnOf i s = true ∧ exec i s = effect i s) := by
  rw [exec_eq]
  exact transact_cases s _ _ _

end Sys2Proof.Machine
end

