-- ==== Sys2Proof/Laws/PerInstr.lean ====
section
/-!
SUPPORT. Statements made of every transaction, one lemma per constructor.
-/

namespace Sys2Proof.Laws.EncodesRow

/-- The encoded word has the fixed bits of its row of spec/opcode_table.json (30_encoding.md R97). -/
def Statement (i : Instr) : Prop := (rowOf i).has (encode i) = true

theorem tick : Statement (.tick) := by unfold Statement; decide

theorem mrdRom (o : BitVec 14) : Statement (.mrdRom o) := by
  unfold Statement
  rw [has_iff]
  intro i hi
  simp only [rowOf, encode, getLsbD_wordT, getLsbD_romAddr]
  interval_cases i <;> simp

theorem mrdVram (o : BitVec 14) : Statement (.mrdVram o) := by
  unfold Statement
  rw [has_iff]
  intro i hi
  simp only [rowOf, encode, getLsbD_wordT, getLsbD_vramAddr]
  interval_cases i <;> simp

theorem mrdRam (o : BitVec 15) : Statement (.mrdRam o) := by
  unfold Statement
  rw [has_iff]
  intro i hi
  simp only [rowOf, encode, getLsbD_wordT, getLsbD_ramAddr]
  interval_cases i <;> simp

theorem mwrRom (o : BitVec 14) (v : Byte) : Statement (.mwrRom o v) := by
  unfold Statement
  rw [has_iff]
  intro i hi
  simp only [rowOf, encode, getLsbD_wordT, getLsbD_romAddr]
  interval_cases i <;> simp

theorem mwrVram (o : BitVec 14) (v : Byte) : Statement (.mwrVram o v) := by
  unfold Statement
  rw [has_iff]
  intro i hi
  simp only [rowOf, encode, getLsbD_wordT, getLsbD_vramAddr]
  interval_cases i <;> simp

theorem mwrRam (o : BitVec 15) (v : Byte) : Statement (.mwrRam o v) := by
  unfold Statement
  rw [has_iff]
  intro i hi
  simp only [rowOf, encode, getLsbD_wordT, getLsbD_ramAddr]
  interval_cases i <;> simp

theorem iordUla (p : BitVec 15) : Statement (.iordUla p) := by
  unfold Statement
  rw [has_iff]
  intro i hi
  simp only [rowOf, encode, getLsbD_wordT, getLsbD_ulaPort]
  interval_cases i <;> simp

theorem iordOther (p : BitVec 15) : Statement (.iordOther p) := by
  unfold Statement
  rw [has_iff]
  intro i hi
  simp only [rowOf, encode, getLsbD_wordT, getLsbD_otherPort]
  interval_cases i <;> simp

theorem iowrUla (p : BitVec 15) (v : Byte) : Statement (.iowrUla p v) := by
  unfold Statement
  rw [has_iff]
  intro i hi
  simp only [rowOf, encode, getLsbD_wordT, getLsbD_ulaPort]
  interval_cases i <;> simp

theorem iowrOther (p : BitVec 15) (v : Byte) : Statement (.iowrOther p v) := by
  unfold Statement
  rw [has_iff]
  intro i hi
  simp only [rowOf, encode, getLsbD_wordT, getLsbD_otherPort]
  interval_cases i <;> simp

theorem peek (a : Addr) : Statement (.peek a) := by
  unfold Statement
  rw [has_iff]
  intro i hi
  simp only [rowOf, encode, getLsbD_wordT]
  interval_cases i <;> simp

theorem poke (a : Addr) (v : Byte) : Statement (.poke a v) := by
  unfold Statement
  rw [has_iff]
  intro i hi
  simp only [rowOf, encode, getLsbD_wordT]
  interval_cases i <;> simp

theorem keydn (k : BitVec 6) : Statement (.keydn k) := by
  unfold Statement
  rw [has_iff]
  intro i hi
  simp only [rowOf, encode, getLsbD_wordT, BitVec.getLsbD_append]
  interval_cases i <;> simp

theorem keyup (k : BitVec 6) : Statement (.keyup k) := by
  unfold Statement
  rw [has_iff]
  intro i hi
  simp only [rowOf, encode, getLsbD_wordT, BitVec.getLsbD_append]
  interval_cases i <;> simp

theorem pwron : Statement (.pwron) := by unfold Statement; decide

theorem pwroff : Statement (.pwroff) := by unfold Statement; decide

theorem loadRom (o : BitVec 14) (v : Byte) : Statement (.loadRom o v) := by
  unfold Statement
  rw [has_iff]
  intro i hi
  simp only [rowOf, encode, getLsbD_wordT, getLsbD_romAddr]
  interval_cases i <;> simp

theorem loadMemVram (o : BitVec 14) (v : Byte) : Statement (.loadMemVram o v) := by
  unfold Statement
  rw [has_iff]
  intro i hi
  simp only [rowOf, encode, getLsbD_wordT, getLsbD_vramAddr]
  interval_cases i <;> simp

theorem loadMemRam (o : BitVec 15) (v : Byte) : Statement (.loadMemRam o v) := by
  unfold Statement
  rw [has_iff]
  intro i hi
  simp only [rowOf, encode, getLsbD_wordT, getLsbD_ramAddr]
  interval_cases i <;> simp

theorem setborder (c : BitVec 3) : Statement (.setborder c) := by
  unfold Statement
  rw [has_iff]
  intro i hi
  simp only [rowOf, encode, getLsbD_wordT, BitVec.getLsbD_append]
  interval_cases i <;> simp

theorem audlvl (lvl : Bool) (ts : BitVec 24) : Statement (.audlvl lvl ts) := by
  unfold Statement
  rw [has_iff]
  intro i hi
  simp only [rowOf, encode]
  rw [BitVec.getLsbD_append, BitVec.getLsbD_append]
  interval_cases i <;> simp

theorem audend : Statement (.audend) := by unfold Statement; decide

end Sys2Proof.Laws.EncodesRow
end

