-- ==== Sys2Proof/Laws/Ports.lean ====
section
/-!
SUPPORT. What the port, power and key operations can do, each as one equation or one case list.
-/

namespace Sys2Proof.Machine

variable (s : State)

/-- A keyboard read answers one byte and makes one draw. -/
theorem keyboardRead_eq (p : Addr) : keyboardRead p s = { s with
    procReplies := s.procReplies ++ [keyboardByte s.pressed p (Config.earIn s.draws)],
    draws := s.draws + 1 } := rfl

/-- Everything a claimed port write can do: an audio fault with none of its effect, or all of it. -/
theorem ulaWrite_cases (v : Byte) :
    (∃ e, audioError (frameCycle s) s = some e ∧ ulaWrite v s = raise e s) ∨
    (s.audLastTs ≤ frameCycle s ∧ frameCycle s < s.cfg.frameCycles ∧
      ulaWrite v s = .next (audioFill (speakerField v) (frameCycle s)
        { s with
          border := borderField v, micLevel := micField v, speakerLevel := speakerField v,
          out := s.out ++ [.borderChanged (borderField v)] })) := by
  unfold ulaWrite
  split
  · exact .inl ⟨_, ‹_›, rfl⟩
  · obtain ⟨h1, h2⟩ := (audioError_none_iff s _).1 ‹_›
    exact .inr ⟨h1, h2, rfl⟩

/-- Power-on writes the fields of R250, `powered`, the mark of a completed tick and the record of
notifications. -/
theorem powerOn_eq : ∃ log, powerOn s = { s with
    C := 0, V := 0, F := 0, flash := false, stall := 0, fetching := false, intLine := false,
    border := 0#3, micLevel := false, speakerLevel := false,
    borderLatch := 0#3, bitmapLatch := 0#8, attrLatch := 0#8,
    audLevel := false, audCursor := 0, audLastTs := 0, powered := true, ticked := false,
    powerLog := log } :=
  ⟨_, rfl⟩

/-- Power-off writes `powered`, the mark of a completed tick and the record of notifications. -/
theorem powerOff_eq : ∃ log tk, powerOff s =
    { s with powered := false, ticked := tk, powerLog := log } := by
  unfold powerOff
  split
  · exact ⟨_, _, rfl⟩
  · rename_i h
    exact ⟨s.powerLog, s.ticked, by rw [← Bool.eq_false_iff.2 h]⟩

end Sys2Proof.Machine
end

