-- ==== Sys2Proof/Laws/Step.lean ====
section
/-!
SUPPORT. `step` in cases: which word it takes, what the decoder makes of it, and the closing of a granted
cycle around `exec`.
-/

namespace Sys2Proof.Machine

variable (s t u : State)

/-- Which word is taken and how: a granted cycle's next access, or the oldest waiting request. -/
theorem fetch_cases {w : TransWord} (h : fetch s = some (w, t)) :
    (∃ ws k, s.grant = some ⟨w :: ws, k⟩ ∧
      t = { s with issuer := .processor, grant := some ⟨ws, k⟩ }) ∨
    (s.grant = none ∧ ∃ r rs, s.pending = r :: rs ∧ w = r.word ∧
      t = { s with issuer := r.issuer, pending := rs }) := by
  unfold fetch at h
  rcases hg : s.grant with _ | ⟨_ | ⟨v, ws⟩, k⟩ <;> simp only [hg] at h
  · rcases hp : s.pending with _ | ⟨r, rs⟩ <;> simp only [hp] at h
    · exact absurd h (by simp)
    · simp only [Option.some.injEq, Prod.mk.injEq] at h
      exact .inr ⟨rfl, r, rs, rfl, h.1.symm, h.2.symm⟩
  · exact absurd h (by simp)
  · simp only [Option.some.injEq, Prod.mk.injEq] at h
    obtain ⟨rfl, rfl⟩ := h
    exact .inl ⟨ws, k, rfl, rfl⟩

/-- Everything a step can do. -/
theorem step_cases :
    (∃ e, s.fault = some e ∧ step s = stuck e) ∨
    (s.fault = none ∧ ∃ w u, fetch s = some (w, u) ∧
      ((∃ i, decode w = .ok i ∧ step s = settle (exec i u)) ∨
       (∃ e, decode w = .error e ∧ step s = .next { u with fault := some (.badTransaction w) }))) ∨
    (s.fault = none ∧ s.grant.isSome = true ∧ fetch s = none ∧ step s = closeCycle s) ∨
    (s.fault = none ∧ s.grant = none ∧ fetch s = none ∧ step s = .refused .noTransaction) := by
  unfold step
  rcases hf : s.fault with _ | e
  · rcases hw : fetch s with _ | ⟨w, u⟩
    · rcases hg : s.grant with _ | g
      · exact .inr (.inr (.inr ⟨rfl, rfl, rfl, by simp [noWord, hg]⟩))
      · exact .inr (.inr (.inl ⟨rfl, rfl, rfl, by simp [noWord, hg]⟩))
    · refine .inr (.inl ⟨rfl, w, u, rfl, ?_⟩)
      dsimp only
      rcases hd : decode w with e | i
      · exact .inr ⟨e, rfl, by simp [runWord, hd, refuse]⟩
      · exact .inl ⟨i, rfl, by simp [runWord, hd]⟩
  · exact .inl ⟨e, rfl, rfl⟩

/-- A transaction with no fault or mark before it always answers a next state. -/
theorem exec_next (i : Instr) (h : s.fault = none) : ∃ t, exec i s = .next t := by
  rcases exec_cases i s with ⟨e, he, -⟩ | ⟨-, -, h'⟩ | ⟨-, -, h'⟩
  · simp [h] at he
  · exact ⟨_, h'⟩
  · rw [h']; exact effect_next i s

/-- `settle` of a next state closes the cycle. -/
@[simp] theorem settle_next : settle (.next s) = closeCycle s := rfl

end Sys2Proof.Machine
end

