-- ==== Sys2Proof/Tests/Slice0.lean ====
section
/-!
SUPPORT. Tests with expected results from spec/95_test_vectors.md (its section is named beside each) and
the witnesses of the obligations: for every obligation with hypotheses a concrete state and operands that
meet them.
-/

namespace Sys2Proof.Tests

open Sys2Proof Sys2Proof.Machine

/-! ### Small states -/

/-- The host's turn, right after PWRON. -/
abbrev host : State := State.reset

/-- The processor's turn inside a granted cycle. -/
abbrev proc : State := { State.reset with issuer := .processor, grant := some ⟨[], 1⟩ }

/-- The same while the controller fetches. -/
abbrev procFetching : State := { proc with fetching := true }

/-- A harness drives the synthesizer alone. -/
abbrev audio : State := { State.reset with issuer := .harness }

/-- The host's turn at a raster position. -/
abbrev at' (v c : Nat) : State := { State.reset with V := v, C := c }

/-- Not powered. -/
abbrev unpowered : State := { State.reset with powered := false }

/-- One field of the next state. -/
def after {α : Type} (r : Result) (f : State → α) : Option α :=
  match r with
  | .next s => some (f s)
  | .fault _ => none
  | .refused _ => none

/-! ### WellFormed: an ill-formed term for each check -/

theorem test_keydn_40_ill_formed : (Instr.keydn 40#6).wellFormed = false := by decide
theorem test_keyup_40_ill_formed : (Instr.keyup 40#6).wellFormed = false := by decide
theorem test_keydn_39_well_formed : (Instr.keydn 39#6).wellFormed = true := by decide
theorem test_keyup_39_well_formed : (Instr.keyup 39#6).wellFormed = true := by decide

/-! ### Decoding, one constructor each (95_test_vectors.md 2.1; words written out from R97) -/

theorem test_decode_tick : decode 0x00000000#32 = .ok (.tick) := by decide
theorem test_decode_mrd_rom : decode 0x103FFF00#32 = .ok (.mrdRom 0x3FFF#14) := by decide
theorem test_decode_mrd_vram : decode 0x10500000#32 = .ok (.mrdVram 0x1000#14) := by decide
theorem test_decode_mrd_ram : decode 0x10900000#32 = .ok (.mrdRam 0x1000#15) := by decide
theorem test_decode_mwr_rom : decode 0x200000AA#32 = .ok (.mwrRom 0#14 0xAA#8) := by decide
theorem test_decode_mwr_vram : decode 0x204000FF#32 = .ok (.mwrVram 0#14 0xFF#8) := by decide
theorem test_decode_mwr_ram : decode 0b00100000111111111111111100010010#32 = .ok (.mwrRam 0x7FFF#15 0x12#8) := by decide
theorem test_decode_iord_ula : decode 0x30FEFE00#32 = .ok (.iordUla 0x7F7F#15) := by decide
theorem test_decode_iord_other : decode 0x3000FF00#32 = .ok (.iordOther 0x007F#15) := by decide
theorem test_decode_iowr_ula : decode 0x4000FE10#32 = .ok (.iowrUla 0x007F#15 0x10#8) := by decide
theorem test_decode_iowr_other : decode 0x40001F00#32 = .ok (.iowrOther 0x000F#15 0#8) := by decide
theorem test_decode_peek : decode 0x50400000#32 = .ok (.peek 0x4000#16) := by decide
theorem test_decode_poke : decode 0x604000AA#32 = .ok (.poke 0x4000#16 0xAA#8) := by decide
theorem test_decode_keydn : decode 0x70000027#32 = .ok (.keydn 39#6) := by decide
theorem test_decode_keyup : decode 0x80000005#32 = .ok (.keyup 5#6) := by decide
theorem test_decode_pwron : decode 0x90000000#32 = .ok (.pwron) := by decide
theorem test_decode_pwroff : decode 0xA0000000#32 = .ok (.pwroff) := by decide
theorem test_decode_load_rom : decode 0xB03FFF01#32 = .ok (.loadRom 0x3FFF#14 0x01#8) := by decide
theorem test_decode_load_mem_vram : decode 0xB04000AA#32 = .ok (.loadMemVram 0#14 0xAA#8) := by decide
theorem test_decode_load_mem_ram : decode 0xB0C00055#32 = .ok (.loadMemRam 0x4000#15 0x55#8) := by decide
theorem test_decode_setborder : decode 0xC0000005#32 = .ok (.setborder 5#3) := by decide
theorem test_decode_audlvl : decode 0xD1000000#32 = .ok (.audlvl true 0#24) := by decide
theorem test_decode_audlvl_ts : decode 0xD00003E8#32 = .ok (.audlvl false 1000#24) := by decide
theorem test_decode_audend : decode 0xE0000000#32 = .ok (.audend) := by decide

/-- The illegal words of 2.1, each with its reason. -/
theorem test_decode_illegal :
    decode 0xF0000000#32 = .error .reservedKind ∧ decode 0x01000000#32 = .error .subNotZero ∧
    decode 0x00000001#32 = .error .dataNotZero ∧ decode 0x10400001#32 = .error .dataNotZero ∧
    decode 0x70000028#32 = .error .keyOutOfRange ∧ decode 0x70000040#32 = .error .dataNotZero ∧
    decode 0xC0000008#32 = .error .dataNotZero ∧ decode 0x70010000#32 = .error .addrNotZero ∧
    decode 0xD2000000#32 = .error .subNotZero := by decide

/-- The encoder gives the words of 2.1. -/
theorem test_encode_words :
    encode (.mrdVram 0x1000#14) = 0x10500000#32 ∧ encode (.iordUla 0x7F7F#15) = 0x30FEFE00#32 ∧
    encode (.loadMemRam 0x4000#15 0x55#8) = 0xB0C00055#32 ∧
    encode (.audlvl false 1000#24) = 0xD00003E8#32 := by decide

/-! ### Formulas (00_scope.md R8; 95_test_vectors.md 0, 2.7 to 2.9, 2.12) -/

theorem test_reference_geometry :
    Config.reference.rasterWidth = 352 ∧ Config.reference.rasterHeight = 296 ∧
    Config.reference.vs0 = 248 ∧ Config.reference.tb0 = 264 ∧ Config.reference.vTotal = 312 ∧
    Config.reference.frameTicks = 139776 ∧ Config.reference.frameCycles = 69888 ∧
    Config.reference.intPulseTicks = 64 ∧ Config.reference.sampleCount = 880 := by decide

theorem test_reference_valid : Config.reference.valid = true := by decide

theorem test_rows :
    Config.reference.row 0 = some 48 ∧ Config.reference.row 191 = some 239 ∧
    Config.reference.row 192 = some 240 ∧ Config.reference.row 247 = some 295 ∧
    Config.reference.row 248 = none ∧ Config.reference.row 263 = none ∧
    Config.reference.row 264 = some 0 ∧ Config.reference.row 311 = some 47 := by decide

theorem test_visible :
    Config.reference.visible 0 351 = true ∧ Config.reference.visible 0 352 = false ∧
    Config.reference.visible 248 100 = false ∧ Config.reference.visible 264 0 = true := by decide

theorem test_fetch_window :
    Config.reference.fetchWindow 0 47 = false ∧ Config.reference.fetchWindow 0 48 = true ∧
    Config.reference.fetchWindow 0 303 = true ∧ Config.reference.fetchWindow 0 304 = false ∧
    Config.reference.fetchWindow 191 48 = true ∧ Config.reference.fetchWindow 192 48 = false := by decide

theorem test_pulse :
    Config.reference.inPulse 247 447 = false ∧ Config.reference.inPulse 248 0 = true ∧
    Config.reference.inPulse 248 63 = true ∧ Config.reference.inPulse 248 64 = false := by decide

theorem test_screen_addresses :
    Config.reference.bitmapAddr 0 31 = 0x401F ∧ Config.reference.bitmapAddr 1 0 = 0x4100 ∧
    Config.reference.bitmapAddr 8 0 = 0x4020 ∧ Config.reference.bitmapAddr 63 0 = 0x47E0 ∧
    Config.reference.bitmapAddr 64 0 = 0x4800 ∧ Config.reference.bitmapAddr 191 31 = 0x57FF ∧
    Config.reference.attrAddr 7 0 = 0x5800 ∧ Config.reference.attrAddr 8 0 = 0x5820 ∧
    Config.reference.attrAddr 191 31 = 0x5AFF := by decide

theorem test_sample_index :
    Config.reference.sampleIndex 0 = 0 ∧ Config.reference.sampleIndex 79 = 0 ∧
    Config.reference.sampleIndex 80 = 1 ∧ Config.reference.sampleIndex 1000 = 12 ∧
    Config.reference.sampleIndex 69887 = 880 ∧ Config.reference.sampleIndex 69888 = 880 := by decide

theorem test_frame_cycle :
    frameCycle (at' 0 1) = 0 ∧ frameCycle (at' 0 447) = 223 ∧ frameCycle (at' 1 0) = 224 ∧
    frameCycle (at' 4 208) = 1000 ∧ frameCycle (at' 311 447) = 69887 := by decide

/-- Bitmap byte 0x80, pixels 0 and 1, for the attributes of 2.8. -/
theorem test_cell_pixels :
    cellPixel 0x80#8 0x38#8 false 0 = 0#4 ∧ cellPixel 0x80#8 0x38#8 false 1 = 7#4 ∧
    cellPixel 0x80#8 0x47#8 false 0 = 15#4 ∧ cellPixel 0x80#8 0x47#8 false 7 = 8#4 ∧
    cellPixel 0x80#8 0x87#8 false 0 = 7#4 ∧ cellPixel 0x80#8 0x87#8 true 0 = 0#4 ∧
    cellPixel 0x80#8 0xC7#8 true 0 = 8#4 ∧ cellPixel 0x80#8 0xC7#8 true 1 = 15#4 := by decide

/-- Keyboard bytes of 2.6 with `EAR_IN = 1`. -/
theorem test_keyboard_bytes_ear_high :
    keyboardByte [] 0x00FE#16 true = 0xFF#8 ∧ keyboardByte [0] 0xFEFE#16 true = 0xFE#8 ∧
    keyboardByte [0] 0xFDFE#16 true = 0xFF#8 ∧ keyboardByte [0] 0xFFFE#16 true = 0xFF#8 ∧
    keyboardByte [6] 0xFDFE#16 true = 0xFD#8 ∧ keyboardByte [0, 6] 0xFCFE#16 true = 0xFC#8 ∧
    keyboardByte [39] 0x7FFE#16 true = 0xEF#8 ∧ keyboardByte [0] 0xFE00#16 true = 0xFE#8 ∧
    keyboardByte [35, 36, 37, 38, 39] 0x7FFE#16 true = 0xE0#8 := by decide

/-- Keyboard bytes of 2.6 with `EAR_IN = 0`. -/
theorem test_keyboard_bytes_ear_low :
    keyboardByte [] 0xFEFE#16 false = 0xBF#8 ∧ keyboardByte [0] 0x00FE#16 false = 0xBE#8 ∧
    keyboardByte [35, 36, 37, 38, 39] 0x7FFE#16 false = 0xA0#8 := by decide

/-! ### Memory operations -/

theorem test_write_keeps_order :
    Memory.write [(1, 0x11#8), (5, 0x55#8)] 3 0x33#8 = [(1, 0x11#8), (3, 0x33#8), (5, 0x55#8)] := by decide

theorem test_write_zero_removes : Memory.write [(1, 0x11#8), (5, 0x55#8)] 1 0#8 = [(5, 0x55#8)] := by
  decide

theorem test_reset_memory_wf :
    State.reset.rom.wf Region.rom.size = true ∧ State.reset.vram.wf Region.vram.size = true ∧
    State.reset.ram.wf Region.ram.size = true := by decide

/-! ### One step of every instruction -/

/-- R140's example, the first TICK after PWRON; P6 at its 49th tick, bitmap 0x80 and attribute 0x47. -/
theorem test_tick_renders :
    after (exec .tick host) (fun s => ((s.C, s.V, s.intLine), s.grants, pixel s 48 0)) =
      some ((1, 0, false), [false], 0#4) ∧
    after (exec .tick { at' 0 48 with vram := [(0, 0x80#8), (0x1800, 0x47#8)] })
      (fun s => (pixel s 48 48, s.bitmapLatch, s.attrLatch, s.fetching)) =
      some (15#4, 0x80#8, 0x47#8, true) := by decide

/-- 2.9, (311, 447, 15, false) gives (0, 0, 0, true) and one AudioFrame; 2.10, mode B consumes a credit at an
odd tick, and a report of two cycles is refused. -/
theorem test_tick_wraps_and_grants :
    after (exec .tick { at' 311 447 with F := 15 })
      (fun s => (s.C, s.V, s.F, s.flash, s.out.length)) = some (0, 0, 0, true, 1) ∧
    after (exec .tick { at' 0 49 with
        stall := 6, cfg := { Config.reference with contentionMode := .perTick } })
      (fun s => (s.stall, s.grants)) = some (5, []) ∧
    after (exec .tick { host with proc := [⟨[], 2⟩] }) (fun s => (s.fault, s.C)) =
      some (some (.procCycleCount 2), 0) := by decide

/-- R112's example. -/
theorem test_mrd_rom :
    after (exec (.mrdRom 0x0038#14) { procFetching with rom := [(0x0038, 0xF5#8)] })
      (fun s => (s.procReplies, s.stall)) = some ([0xF5#8], 0) := by decide

/-- R113's example, fetching. -/
theorem test_mrd_vram_contended :
    after (exec (.mrdVram 0x1000#14) { procFetching with vram := [(0x1000, 0x3C#8)] })
      (fun s => (s.procReplies, s.stall)) = some ([0x3C#8], 6) := by decide

/-- R113's example, not fetching. -/
theorem test_mrd_vram_free :
    after (exec (.mrdVram 0x1000#14) { proc with vram := [(0x1000, 0x3C#8)] })
      (fun s => (s.procReplies, s.stall)) = some ([0x3C#8], 0) := by decide

/-- R114's example. -/
theorem test_mrd_ram :
    after (exec (.mrdRam 0x1000#15) { procFetching with ram := [(0x1000, 0x77#8)] })
      (fun s => (s.procReplies, s.stall)) = some ([0x77#8], 0) := by decide

/-- E1: a ROM write is a no-op. -/
theorem test_mwr_rom :
    after (exec (.mwrRom 0#14 0xAA#8) { procFetching with rom := [(0, 0xF3#8)] })
      (fun s => (s.rom, s.stall)) = some ([(0, 0xF3#8)], 0) := by decide

/-- 2.2: MWR 0x7FFF while fetching. -/
theorem test_mwr_vram :
    after (exec (.mwrVram 0x3FFF#14 0x22#8) procFetching) (fun s => (s.vram, s.stall)) =
      some ([(0x3FFF, 0x22#8)], 6) := by decide

/-- R117's example. -/
theorem test_mwr_ram :
    after (exec (.mwrRam 0x7FFF#15 0x12#8) procFetching) (fun s => (s.ram, s.stall)) =
      some ([(0x7FFF, 0x12#8)], 0) := by decide

/-- The answer is the keyboard byte of the port, its bit 6 the draw. -/
theorem test_iord_ula :
    exec (.iordUla 0x7F7F#15) { proc with pressed := [0] } =
      .next { proc with
        pressed := [0], draws := 1,
        procReplies := [keyboardByte [0] 0xFEFE#16 (Config.earIn 0)] } := by rfl

/-- R121's example. -/
theorem test_iord_other_default :
    after (exec (.iordOther 0x007F#15) proc) (fun s => s.procReplies) = some [0xFF#8] := by decide

/-- An attached expansion supplies the byte of its port. -/
theorem test_iord_other_expansion :
    after (exec (.iordOther 0x000F#15)
        { proc with cfg := { Config.reference with expansions := [7], expReadTable := [(0x1F, 0x05#8)] } })
      (fun s => s.procReplies) = some [0x05#8] := by decide

/-- R181's example: at V = 4, C = 208, OUT 0x00FE, 0x15. -/
theorem test_iowr_ula :
    after (exec (.iowrUla 0x007F#15 0x15#8) { proc with V := 4, C := 208 })
      (fun s => ((s.border, s.micLevel, s.speakerLevel), s.out, s.audLevel, s.audLastTs)) =
      some ((5#3, false, true), [.borderChanged 5#3], true, 1000) := by decide

/-- 2.5: OUT 0xFF, bits 7..5 ignored. -/
theorem test_iowr_ula_ignored_bits :
    after (exec (.iowrUla 0x007F#15 0xFF#8) proc)
      (fun s => (s.border, s.micLevel, s.speakerLevel, s.audCursor, s.audLastTs)) =
      some (7#3, true, true, 0, 0) := by decide

/-- R123's example. -/
theorem test_iowr_other :
    after (exec (.iowrOther 0x007F#15 0x07#8) proc) (fun s => (s.border, s.micLevel, s.out)) =
      some (0#3, false, []) := by decide

/-- E1 and R118: PEEK of ROM, powered or not. -/
theorem test_peek :
    after (exec (.peek 0#16) { unpowered with rom := [(0, 0xF3#8)] }) (fun s => s.hostReplies) =
      some [0xF3#8] := by decide

/-- E2. -/
theorem test_poke_ram :
    after (exec (.poke 0xFFFF#16 0x78#8) host) (fun s => (busRead s 0xFFFF#16, s.vram)) =
      some (0x78#8, []) := by decide

/-- R119: POKE to ROM is ignored. -/
theorem test_poke_rom :
    after (exec (.poke 0x3FFF#16 0x78#8) host) (fun s => (s.rom, s.vram, s.ram, s.fault)) =
      some ([], [], [], none) := by decide

/-- 2.6: KEYDN on a set that has the key already. -/
theorem test_keydn :
    after (exec (.keydn 5#6) { host with pressed := [0, 5, 6] }) (fun s => s.pressed) =
      some [0, 5, 6] := by decide

/-- 2.6: KEYDN 40 is refused. -/
theorem test_keydn_40 :
    after (exec (.keydn 40#6) host) (fun s => (s.pressed, s.fault)) =
      some ([], some (.badTransaction 0x70000028#32)) := by decide

/-- R191's example. -/
theorem test_keyup :
    after (exec (.keyup 0#6) { host with pressed := [0, 5] }) (fun s => s.pressed) = some [5] := by decide

/-- 2.4: PWRON while powered resets again, and keeps the keys. -/
theorem test_pwron :
    after (exec .pwron { at' 100 7 with F := 3, stall := 4, border := 5#3, pressed := [1] })
      (fun s => ((s.C, s.V, s.F), s.stall, s.border, s.pressed)) = some ((0, 0, 0), 0, 0#3, [1]) := by decide

/-- R135: the order of the notifications. -/
theorem test_pwron_order :
    after (exec .pwron { unpowered with
        cfg := { Config.reference with expansions := [2, 1] }, powerLog := [] }) (fun s => s.powerLog) =
      some [.expansionOn 2, .expansionOn 1, .controllerReset, .processorOn] := by decide

/-- 2.4: PWROFF keeps V. -/
theorem test_pwroff :
    after (exec .pwroff (at' 100 7)) (fun s => (s.powered, s.V, s.C)) = some (false, 100, 7) := by decide

/-- 2.4: PWROFF while unpowered changes nothing. -/
theorem test_pwroff_unpowered :
    after (exec .pwroff { unpowered with powerLog := [] }) (fun s => (s.powered, s.powerLog)) =
      some (false, []) := by decide

/-- V-LD2. -/
theorem test_load_rom :
    after (exec (.loadRom 0x3FFF#14 0x11#8) host) (fun s => (s.fault, s.rom)) =
      some (some (.loadRomOverwrite 0x3FFF#16), []) := by decide

/-- V-LD3: power is checked before the address. -/
theorem test_load_rom_unpowered :
    after (exec (.loadRom 0#14 0x11#8) unpowered) (fun s => s.fault) =
      some (some (.loadNotPowered 0#16)) := by decide

/-- V-LD4. -/
theorem test_load_mem_vram :
    after (exec (.loadMemVram 0#14 0x11#8) host) (fun s => (s.vram, s.out, s.fault)) =
      some ([(0, 0x11#8)], [], none) := by decide

/-- V-LD1. -/
theorem test_load_mem_vram_unpowered :
    after (exec (.loadMemVram 0#14 0x11#8) unpowered) (fun s => s.fault) =
      some (some (.loadNotPowered 0x4000#16)) := by decide

/-- V-LD5. -/
theorem test_load_mem_ram :
    after (exec (.loadMemRam 0x7FFF#15 0x22#8) host) (fun s => s.ram) =
      some [(0x7FFF, 0x22#8)] := by decide

/-- 2.5: SETBORDER 3, no audio call. -/
theorem test_setborder :
    after (exec (.setborder 3#3) { unpowered with audLastTs := 9 })
      (fun s => (s.border, s.out, s.audLastTs)) = some (3#3, [.borderChanged 3#3], 9) := by decide

/-- 2.12: (0, 1, 0), AudioLevelChange(0, 1000). -/
theorem test_audlvl :
    after (exec (.audlvl false 1000#24) { audio with audLevel := true })
      (fun s => (s.audBuf.take 14, s.audCursor, s.audLevel, s.audLastTs)) =
      some (List.replicate 12 true ++ [false, false], 12, false, 1000) := by decide

/-- 2.12: a decreasing timestamp, and one past the frame. -/
theorem test_audlvl_faults :
    after (exec (.audlvl true 999#24) { audio with audCursor := 12, audLastTs := 1000 })
      (fun s => s.fault) = some (some (.audioTsDecreasing 999 1000)) ∧
    after (exec (.audlvl true 69888#24) { audio with audCursor := 12, audLastTs := 1000 })
      (fun s => s.fault) = some (some (.audioTsRange 69888)) := by decide

/-- 2.12: the level is kept, cursor and timestamp are reset, one frame is delivered. -/
theorem test_audend :
    after (exec .audend { audio with audLevel := true, audCursor := 880, audLastTs := 69887 })
      (fun s => (s.audLevel, s.audCursor, s.audLastTs, s.out.length)) = some (true, 0, 0, 1) := by decide

/-- R205's fill, on a short buffer. -/
theorem test_fill :
    fillSlots [true, true, true, true, true] 2 4 false = [true, true, false, false, true] := by decide

/-! ### Turns, modes, construction -/

/-- R262: not after a power-on in mid-frame, but after the wrap tick, a later power-on among them. -/
theorem test_between_frames :
    after (exec .pwron (at' 100 7)) betweenFrames = some false ∧
    after (exec .tick (at' 311 447)) betweenFrames = some true ∧
    after (exec .tick { host with frameEnded := true }) betweenFrames = some false ∧
    after (exec .pwron { host with frameEnded := true }) betweenFrames = some true := by decide

/-- 2.1: TICK from the processor inside its cycle is refused. -/
theorem test_tick_wrong_issuer :
    after (exec .tick proc) (fun s => (s.fault, s.C)) =
      some (some (.badTransaction 0#32), 0) := by decide

/-- R82: a harness's AUDEND inside a granted cycle, one after a tick, and a waiting one of the controller are
refused. -/
theorem test_audend_wrong_time :
    after (exec .audend { proc with issuer := .harness }) (fun s => (s.fault, s.out)) =
      some (some (.badTransaction 0xE0000000#32), []) ∧
    after (exec .audend { audio with ticked := true }) (fun s => (s.fault, s.out)) =
      some (some (.badTransaction 0xE0000000#32), []) ∧
    after (step { host with pending := [⟨.controller, 0xE0000000#32⟩] }) (fun s => (s.fault, s.out)) =
      some (some (.badTransaction 0xE0000000#32), []) := by decide

/-- R82: a tick ends a harness's driving alone, and a power-on starts it anew. -/
theorem test_ticked :
    after (exec .tick host) (fun s => s.ticked) = some true ∧
    after (exec .pwron { host with ticked := true }) (fun s => s.ticked) = some false := by decide

/-- P1, cycle 0: the access of the granted cycle, then step 5 of its tick. -/
theorem test_step_runs_access_and_closes :
    after (step { proc with grant := some ⟨[0x4000FE02#32], 1⟩ })
      (fun s => (s.border, s.grant.isNone, s.C, s.out)) =
      some (2#3, true, 1, [.borderChanged 2#3]) := by decide

/-- A word placed by `withFetchWord` is the one the next step runs. -/
theorem test_step_runs_placed_word :
    after (step (State.reset.withFetchWord 32 0x604000AA)) (fun s => (s.vram, s.pending)) =
      some ([(0, 0xAA#8)], []) := by decide

/-- A harness's word placed by `withFetchWord` runs too, after ticks as well. -/
theorem test_step_runs_placed_harness_word :
    after (step ({ host with ticked := true }.withFetchWord 32 0xD00003E8))
      (fun s => (s.fault, s.audCursor, s.audLastTs)) = some (none, 12, 1000) := by decide

theorem test_step_without_transaction :
    step State.reset = .refused .noTransaction := by rfl

/-- 2.1: an illegal word changes nothing but the mark. -/
theorem test_step_illegal_word :
    after (step { host with pending := [⟨.host, 0xF0000000#32⟩] }) (fun s => (s.fault, s.C)) =
      some (some (.badTransaction 0xF0000000#32), 0) := by decide

theorem test_step_after_fault :
    step { host with fault := some (.loadRomOverwrite 0#16) } =
      .fault (.faulted (.loadRomOverwrite 0#16)) ∧
    step { host with fault := some (.procCycleCount 2) } =
      .refused (.marked (.procCycleCount 2)) := ⟨rfl, rfl⟩

/-- The error of a construction, none where it yields a machine. -/
def constructError (u : Setup) : Option ConfigError :=
  match construct u with
  | .error e => some e
  | .ok _ => none

/-- A palette, a bus and the reference configuration. -/
abbrev setup (image : Option (List Byte)) (cfg : Config) : Setup :=
  ⟨some Config.reference.palette, true, image, cfg⟩

/-- R224's order: each check comes before the next. -/
theorem test_construct_errors :
    constructError ⟨none, false, none, Config.reference⟩ = some .noPalette ∧
    constructError ⟨some Config.reference.palette, false, none, Config.reference⟩ = some .noBus ∧
    constructError (setup none Config.reference) = some .noRom ∧
    constructError (setup (some [0#8]) { Config.reference with hTotal := 447 }) =
      some (.romSize 1) := by decide

/-- Log entry 25: of two failing constraints the one R10 lists first is recorded (the model's choice). -/
theorem test_first_violated :
    { Config.reference with hTotal := 447, cpuClockHz := 0 }.firstViolated = some .hTotalEven ∧
    Config.reference.firstViolated = none := by decide

/-! ### Witnesses of the obligations' hypotheses -/

theorem witness_DecodeOfEncodeIsIdentity : (Instr.keydn 39#6).wellFormed = true := by decide

theorem witness_DecodedWordEncodesBack : decode 0x70000027#32 = .ok (.keydn 39#6) := by decide

/-- Both sides hold of the highest key identifier and fail of the next. -/
theorem witness_DecoderAcceptsExactlyTheTable :
    (decode 0x80000027#32 = .ok (.keyup 39#6) ∧ opcodeRows.any (·.has 0x80000027#32) = true) ∧
    (decode 0x80000028#32 = .error .keyOutOfRange ∧ opcodeRows.any (·.has 0x80000028#32) = true) ∧
    opcodeRows.any (·.has 0xF0000000#32) = false := by decide

/-- The last address of ROM, both ends of VRAM, both ends and the middle of RAM. -/
theorem witness_RegionSelectedByTopAddressBits :
    BitVec.extractLsb' 14 2 0x3FFF#16 = 0b00#2 ∧ BitVec.extractLsb' 14 2 0x4000#16 = 0b01#2 ∧
    BitVec.extractLsb' 14 2 0x7FFF#16 = 0b01#2 ∧ BitVec.extractLsb' 14 2 0x8000#16 = 0b10#2 ∧
    BitVec.extractLsb' 14 2 0xC000#16 = 0b11#2 ∧ BitVec.extractLsb' 14 2 0xFFFF#16 = 0b11#2 := by decide

theorem witness_PortClaimedByBitZero :
    BitVec.getLsbD 0xFFFE#16 0 = false ∧ BitVec.getLsbD 0xFFFF#16 0 = true := by decide

/-- A waiting request; a granted cycle with an access; the two ends of a cycle; an open cycle; a fault and a
refusal after a cycle's last access. -/
theorem witness_StepRunsTheDecodedTransaction :
    (host.fault = none ∧ host.grant = none ∧ decode (0x00000000#32) = .ok .tick) ∧
    (∃ s : State, s.fault = none ∧ s.grant = none ∧ s.pending = [⟨.host, 0#32⟩]) ∧
    (∃ s : State, s.fault = none ∧ s.grant = some ⟨[0x10500000#32], 1⟩ ∧
      decode 0x10500000#32 = .ok (.mrdVram 0x1000#14)) ∧
    (proc.fault = none ∧ proc.grant = some ⟨[], 1⟩) ∧
    (∃ s : State, s.fault = none ∧ s.grant = some ⟨[], 0⟩) ∧
    (host.fault = none ∧ ∀ k, host.grant ≠ some ⟨[], k⟩) ∧
    { proc with fault := some (.audioTsRange 69888) }.fault ≠ none ∧
    { proc with fault := some (.badTransaction 0#32) }.fault ≠ none :=
  ⟨⟨rfl, rfl, by decide⟩, ⟨{ host with pending := [⟨.host, 0#32⟩] }, rfl, rfl, rfl⟩,
    ⟨{ proc with grant := some ⟨[0x10500000#32], 1⟩ }, rfl, rfl, by decide⟩, ⟨rfl, rfl⟩,
    ⟨{ proc with grant := some ⟨[], 0⟩ }, rfl, rfl⟩, ⟨rfl, fun _ h => by cases h⟩,
    by simp, by simp⟩

theorem witness_IllegalWordRefusedWithoutEffect :
    (∃ s : State, s.fault = none ∧ s.grant = none ∧ s.pending = [⟨.host, 0xF0000000#32⟩]) ∧
    (∃ s : State, s.fault = none ∧ s.grant = some ⟨[0xF0000000#32], 1⟩) ∧
    decode 0xF0000000#32 = .error .reservedKind :=
  ⟨⟨{ host with pending := [⟨.host, 0xF0000000#32⟩] }, rfl, rfl, rfl⟩,
    ⟨{ proc with grant := some ⟨[0xF0000000#32], 1⟩ }, rfl, rfl⟩, by decide⟩

theorem witness_NoStepAfterFaultOrRefusal :
    (∃ s : State, s.fault = some (.loadRomOverwrite 0#16)) ∧
    (∃ s : State, s.fault = some (.procCycleCount 2)) :=
  ⟨⟨{ host with fault := some (.loadRomOverwrite 0#16) }, rfl⟩,
    ⟨{ host with fault := some (.procCycleCount 2) }, rfl⟩⟩

/-- The lowest and the highest kind of each group, at a wrong issuer or time: for AUDLVL and AUDEND a harness
inside a granted cycle, one after a tick, and the controller; a power event, and a transaction that is none. -/
theorem witness_WrongIssuerOrTimeRefused :
    ((kindOf (encode (.mrdRom 0#14))).toNat = 1 ∧ (kindOf (encode (.iowrUla 0#15 0#8))).toNat = 4 ∧
      ¬ (host.issuer = .processor ∧ host.grant.isSome = true)) ∧
    ((kindOf (encode .tick)).toNat = 0 ∧ (kindOf (encode (.peek 0#16))).toNat = 5 ∧
      (kindOf (encode (.setborder 0#3))).toNat = 0xC ∧
      ¬ (proc.issuer = .host ∧ proc.grant = none)) ∧
    ((kindOf (encode (.audlvl false 0#24))).toNat = 0xD ∧ (kindOf (encode .audend)).toNat = 0xE ∧
      ¬ ({ proc with issuer := .harness }.issuer = .harness ∧ { proc with issuer := .harness }.grant = none) ∧
      ¬ ({ audio with ticked := true }.issuer = .harness ∧ { audio with ticked := true }.ticked = false) ∧
      ¬ ({ host with issuer := .controller }.issuer = .harness)) := by decide

/-- A power event, and a transaction that is none. -/
theorem witness_WrongIssuerOrTimeRefused_mark :
    (∃ t, exec .pwron { host with ticked := true } = .next t ∧ t.fault = none) ∧
    (∃ t, exec .pwroff { host with ticked := true } = .next t ∧ t.fault = none ∧ host.powered = true) ∧
    (∃ t, exec .audend audio = .next t ∧ t.fault = none) :=
  ⟨⟨_, rfl, rfl⟩, ⟨_, rfl, rfl, rfl⟩, ⟨_, rfl, rfl⟩⟩

theorem witness_host_ready : HostReady host := ⟨rfl, rfl, rfl⟩
theorem witness_host_ready_unpowered : HostReady unpowered ∧ unpowered.powered = false :=
  ⟨⟨rfl, rfl, rfl⟩, rfl⟩
theorem witness_processor_ready : ProcessorReady procFetching := ⟨rfl, rfl, rfl⟩
theorem witness_audio_ready : AudioReady audio := ⟨rfl, rfl, rfl, rfl⟩
theorem witness_tick_ready : TickReady host ∧ RasterOk host ∧ NoGrantOrIdleCycle host :=
  ⟨⟨⟨rfl, rfl, rfl⟩, rfl⟩, by decide, .inr (.inr rfl)⟩

/-- The processor's turn, and its absence between ticks. -/
theorem witness_ProcessorReadsReturnByteAndContend :
    ProcessorReady proc ∧ host.fault = none ∧ host.grant = none := ⟨⟨rfl, rfl, rfl⟩, rfl, rfl⟩

theorem witness_ProcessorWritesStoreByteAndContend : ProcessorReady procFetching := ⟨rfl, rfl, rfl⟩

/-- A consumed credit, a cleared counter and a contended access. -/
theorem witness_StallWrittenOnlyByContentionTickAndPowerOn :
    (∃ t, exec .tick { host with stall := 1 } = .next t ∧ t.fault = none ∧ t.stall = 0) ∧
    (∃ t, exec .pwron { host with stall := 1 } = .next t ∧ t.fault = none ∧ t.stall = 0) ∧
    (∃ t, exec (.mrdVram 0#14) procFetching = .next t ∧ t.fault = none ∧ t.stall = 6) :=
  ⟨⟨_, rfl, rfl, rfl⟩, ⟨_, rfl, rfl, rfl⟩, ⟨_, rfl, rfl, rfl⟩⟩

/-- The ends of the three ranges. -/
theorem witness_MemoryMapOfThreeFixedRanges :
    (0x3FFF#16).toNat < 0x4000 ∧ 0x4000 ≤ (0x4000#16).toNat ∧ (0x7FFF#16).toNat < 0x8000 ∧
    0x8000 ≤ (0x8000#16).toNat ∧ 0x8000 ≤ (0xFFFF#16).toNat := by decide

theorem witness_PeekReturnsTheByte : HostReady unpowered := ⟨rfl, rfl, rfl⟩

theorem witness_PokeThenPeekReturnsThePokedByte : HostReady host := ⟨rfl, rfl, rfl⟩

/-- A store, and a transaction that stores nothing. -/
theorem witness_StoresChangeOnlyTheirByte :
    (∃ t, exec (.mwrVram 0x3FFF#14 0x22#8) proc = .next t ∧ t.fault = none ∧
      storeOf (.mwrVram 0x3FFF#14 0x22#8) = some (0x7FFF#16, 0x22#8)) ∧
    (∃ t, exec (.poke 0x3FFF#16 0x22#8) host = .next t ∧ t.fault = none ∧
      storeOf (.poke 0x3FFF#16 0x22#8) = none) ∧
    storeOf (.poke 0x4000#16 0x22#8) = some (0x4000#16, 0x22#8) :=
  ⟨⟨_, rfl, rfl, rfl⟩, ⟨_, rfl, rfl, rfl⟩, rfl⟩

theorem witness_RomAndConfigurationNeverChange :
    ∃ t, step (State.reset.withFetchWord 32 0xB0000011) = .next t := ⟨_, rfl⟩

theorem witness_LoadMemWritesWhenPowered :
    (HostReady host ∧ host.powered = true) ∧ HostReady unpowered ∧ unpowered.powered = false :=
  ⟨⟨⟨rfl, rfl, rfl⟩, rfl⟩, ⟨rfl, rfl, rfl⟩, rfl⟩

theorem witness_LoadRomTakesTheFault : HostReady host ∧ HostReady unpowered :=
  ⟨⟨rfl, rfl, rfl⟩, ⟨rfl, rfl, rfl⟩⟩

/-- A pressed key of a selected half-row, first and last column and half-row. -/
theorem witness_ClaimedPortReadReturnsKeyboard :
    ProcessorReady { proc with pressed := [0, 39] } ∧
    (ulaPort 0x3F7F#15).getLsbD (8 + 0) = false ∧ 5 * 0 + 0 ∈ [0, 39] ∧
    (ulaPort 0x3F7F#15).getLsbD (8 + 7) = false ∧ 5 * 7 + 4 ∈ [0, 39] := by decide

theorem witness_UnclaimedPortReadReturnsExpansionOrDefault :
    ProcessorReady proc ∧ proc.cfg.expansions = [] := ⟨⟨rfl, rfl, rfl⟩, rfl⟩

/-- At the frame's first and last units, at a timestamp equal to the last one, one below it, and past the
frame. -/
theorem witness_ClaimedPortWriteSetsBorderMicSpeaker :
    (ProcessorReady proc ∧ proc.audLastTs ≤ (proc.V * proc.cfg.hTotal + proc.C) / 2 ∧
      (proc.V * proc.cfg.hTotal + proc.C) / 2 < proc.cfg.frameCycles) ∧
    (311 * 448 + 446) / 2 < Config.reference.frameCycles ∧
    (ProcessorReady { proc with audLastTs := 1 } ∧ (proc.V * proc.cfg.hTotal + proc.C) / 2 < 1) ∧
    (ProcessorReady { proc with V := 312 } ∧ proc.audLastTs ≤ 312 * 448 / 2 ∧
      proc.cfg.frameCycles ≤ (312 * proc.cfg.hTotal + proc.C) / 2) := by decide

theorem witness_UnclaimedPortWriteChangesNothing : ProcessorReady proc := ⟨rfl, rfl, rfl⟩

/-- The highest identifier, the first refused one, a pressed key and a key not pressed. -/
theorem witness_KeyEventsInsertAndRemove :
    HostReady { host with pressed := [39] } ∧ (39#6).toNat < 40 ∧ 40 ≤ (40#6).toNat ∧
    keysWf [39] = true ∧ (39#6).toNat ∈ [39] ∧ (0#6).toNat ∉ [39] :=
  ⟨⟨rfl, rfl, rfl⟩, by decide⟩

theorem witness_SetBorderSetsColourAndEmits : HostReady unpowered := ⟨rfl, rfl, rfl⟩

theorem witness_BorderEventAtEveryBorderWrite :
    (∃ t, exec (.setborder 5#3) host = .next t ∧ t.fault = none ∧ writesBorder (.setborder 5#3) = true) ∧
    (∃ t, exec (.iowrUla 0#15 7#8) proc = .next t ∧ t.fault = none ∧
      writesBorder (.iowrUla 0#15 7#8) = true) ∧
    (∃ t, exec .tick (at' 311 447) = .next t ∧ t.fault = none ∧ writesBorder .tick = false) :=
  ⟨⟨_, rfl, rfl, rfl⟩, ⟨_, rfl, rfl, rfl⟩, ⟨_, rfl, rfl, rfl⟩⟩

theorem witness_BorderAndKeysHaveNoOtherWriter :
    ∃ t, exec .pwroff host = .next t ∧ t.fault = none ∧ writesBorder .pwroff = false :=
  ⟨_, rfl, rfl, rfl⟩

theorem witness_PowerOnResetsTheController : HostReady unpowered := ⟨rfl, rfl, rfl⟩

theorem witness_PowerOffKeepsTheRest :
    (HostReady host ∧ host.powered = true) ∧ HostReady unpowered ∧ unpowered.powered = false :=
  ⟨⟨⟨rfl, rfl, rfl⟩, rfl⟩, ⟨rfl, rfl, rfl⟩, rfl⟩

theorem witness_PowerNotificationsInOrder : HostReady host ∧ HostReady unpowered :=
  ⟨⟨rfl, rfl, rfl⟩, ⟨rfl, rfl, rfl⟩⟩

/-- The machine that construction yields from the reference configuration and any image. -/
theorem witness_JustConstructed (image : List Byte) :
    JustConstructed Config.reference image (constructed Config.reference image) :=
  ⟨⟨rfl, rfl, rfl, rfl, rfl, rfl, List.length_replicate, rfl, rfl, rfl⟩, rfl⟩

theorem witness_PowerOnAfterConstructionGivesResetValues :
    JustConstructed Config.reference [0xF3#8] (constructed Config.reference [0xF3#8]) :=
  witness_JustConstructed _

/-- One setup for each check, and one that passes them all. -/
theorem witness_ConstructionChecksInOrder :
    (List.replicate 16383 (0#8)).length ≠ 16384 ∧ (List.replicate 16384 (0#8)).length = 16384 ∧
    { Config.reference with hTotal := 447 }.valid = false ∧ Config.reference.valid = true ∧
    (setup (some (List.replicate 16384 0#8)) Config.reference).palette ≠ none ∧
    (setup (some (List.replicate 16384 0#8)) Config.reference).bus = true := by
  refine ⟨?_, List.length_replicate, by decide, by decide, by simp, rfl⟩
  rw [List.length_replicate]; decide

theorem witness_UnpoweredTickChangesNothing : HostReady unpowered ∧ unpowered.powered = false :=
  ⟨⟨rfl, rfl, rfl⟩, rfl⟩

theorem witness_TickSetsFetchingAndInterruptLine : TickReady (at' 248 0) := ⟨⟨rfl, rfl, rfl⟩, rfl⟩

/-- Inside a line, at a line's end and at the frame's end; an idle cycle, none at an odd C, and none with a
credit pending, the script's next cycle issuing an access. -/
theorem witness_TickAdvancesTheRaster :
    (TickReady host ∧ RasterOk host ∧ NoGrantOrIdleCycle host) ∧
    (TickReady (at' 0 447) ∧ RasterOk (at' 0 447) ∧ NoGrantOrIdleCycle (at' 0 447)) ∧
    (TickReady { at' 311 447 with proc := [⟨[0x10500000#32], 1⟩] } ∧ RasterOk (at' 311 447) ∧
      NoGrantOrIdleCycle { at' 311 447 with proc := [⟨[0x10500000#32], 1⟩] }) ∧
    (TickReady { at' 0 446 with stall := 1, proc := [⟨[0x10500000#32], 1⟩] } ∧ RasterOk (at' 0 446) ∧
      NoGrantOrIdleCycle { at' 0 446 with stall := 1, proc := [⟨[0x10500000#32], 1⟩] }) :=
  ⟨⟨⟨⟨rfl, rfl, rfl⟩, rfl⟩, by decide, .inr (.inr rfl)⟩,
    ⟨⟨⟨rfl, rfl, rfl⟩, rfl⟩, by decide, .inr (.inl rfl)⟩,
    ⟨⟨⟨rfl, rfl, rfl⟩, rfl⟩, by decide, .inr (.inl rfl)⟩,
    ⟨⟨⟨rfl, rfl, rfl⟩, rfl⟩, by decide, .inl (by decide)⟩⟩

/-- The frame's last position, with F at 15 and below, and a position before it. -/
theorem witness_TickCountsFramesAndEndsAudioFrame :
    (RasterOk (at' 311 447) ∧ (at' 311 447).C + 1 = (at' 311 447).cfg.hTotal ∧
      (at' 311 447).V + 1 = (at' 311 447).cfg.vTotal ∧ (at' 311 447).F ≠ 15) ∧
    (RasterOk { at' 311 447 with F := 15 } ∧ { at' 311 447 with F := 15 }.F = 15) ∧
    (RasterOk (at' 310 447) ∧ (at' 310 447).V + 1 ≠ (at' 310 447).cfg.vTotal) := by decide

/-- The tick of such a position answers a next state. -/
theorem witness_TickCountsFramesAndEndsAudioFrame_tick :
    ∃ t, TickReady (at' 311 447) ∧ NoGrantOrIdleCycle (at' 311 447) ∧ exec .tick (at' 311 447) = .next t :=
  ⟨_, ⟨⟨rfl, rfl, rfl⟩, rfl⟩, .inr (.inl rfl), rfl⟩

/-- A chunk's first pixel, one inside a chunk, the right border's first and the bottom border. -/
theorem witness_BorderTickRendersSampledBorder :
    TickReady (at' 0 0) ∧
    (Config.reference.visible 0 0 = true ∧ Config.reference.fetchWindow 0 0 = false) ∧
    (Config.reference.visible 0 47 = true ∧ Config.reference.fetchWindow 0 47 = false) ∧
    (Config.reference.visible 0 304 = true ∧ Config.reference.fetchWindow 0 304 = false) ∧
    (Config.reference.visible 192 48 = true ∧ Config.reference.fetchWindow 192 48 = false) :=
  ⟨⟨⟨rfl, rfl, rfl⟩, rfl⟩, by decide⟩

/-- A cell's first pixel and a line's last bitmap pixel. -/
theorem witness_BitmapTickFetchesAndRendersCell :
    (TickReady (at' 0 48) ∧ (at' 0 48).cfg.fetchWindow (at' 0 48).V (at' 0 48).C = true) ∧
    (TickReady (at' 191 303) ∧ (at' 191 303).cfg.fetchWindow (at' 191 303).V (at' 191 303).C = true) :=
  ⟨⟨⟨⟨rfl, rfl, rfl⟩, rfl⟩, by decide⟩, ⟨⟨⟨rfl, rfl, rfl⟩, rfl⟩, by decide⟩⟩

/-- The reference layout at the last row and column, another at a listed entry, and two rows of one cell. -/
theorem witness_ScreenLayoutAddresses :
    Config.reference.layout = .reference ∧ Config.reference.valid = true ∧
    191 < Config.reference.activeHeight ∧ 31 < 32 ∧ 191 >>> 3 = 184 >>> 3 ∧
    { Config.reference with layout := .tables [0x3FFF#14] [0x0001#14] }.layout =
      .tables [0x3FFF#14] [0x0001#14] ∧
    { Config.reference with layout := .tables [0x3FFF#14] [0x0001#14] }.valid = true ∧
    [0x3FFF#14][0 * 32 + 0]? = some 0x3FFF#14 ∧ [0x0001#14][(7 >>> 3) * 32 + 0]? = some 0x0001#14 := by
  decide

/-- The blank's first tick and vertical sync's. -/
theorem witness_BlankTickRendersNothing :
    (TickReady (at' 0 352) ∧ (at' 0 352).cfg.visible (at' 0 352).V (at' 0 352).C = false) ∧
    (TickReady (at' 248 0) ∧ (at' 248 0).cfg.visible (at' 248 0).V (at' 248 0).C = false) :=
  ⟨⟨⟨⟨rfl, rfl, rfl⟩, rfl⟩, by decide⟩, ⟨⟨⟨rfl, rfl, rfl⟩, rfl⟩, by decide⟩⟩

/-- Both modes, with and without a credit, at an even and an odd position. -/
theorem witness_TickConsumesCreditOrGrantsCycle :
    TickReady { at' 0 50 with stall := 1 } ∧ (at' 0 50).C % 2 = 0 ∧ (at' 0 50).stall = 0 ∧
    (at' 0 49).C % 2 = 1 ∧ (at' 0 50).cfg.contentionMode = .perProcessorUnit ∧
    TickReady { at' 0 49 with
      stall := 1, cfg := { Config.reference with contentionMode := .perTick } } ∧
    { Config.reference with contentionMode := .perTick }.contentionMode = .perTick :=
  ⟨⟨⟨rfl, rfl, rfl⟩, rfl⟩, rfl, rfl, rfl, rfl, ⟨⟨rfl, rfl, rfl⟩, rfl⟩, rfl⟩

theorem witness_GrantedCycleWaitsOrIsRefused :
    (TickReady { host with proc := [⟨[0x10500000#32], 1⟩] } ∧ host.stall = 0 ∧ host.C % 2 = 0 ∧
      { host with proc := [⟨[0x10500000#32], 1⟩] }.proc.headD ProcCycle.idle =
        ⟨[0x10500000#32], 1⟩) ∧
    (TickReady { host with proc := [⟨[], 0⟩] } ∧
      { host with proc := [⟨[], 0⟩] }.proc.headD ProcCycle.idle = ⟨[], 0⟩ ∧ 0 ≠ 1) :=
  ⟨⟨⟨⟨rfl, rfl, rfl⟩, rfl⟩, rfl, rfl, rfl⟩, ⟨⟨rfl, rfl, rfl⟩, rfl⟩, rfl, by decide⟩

theorem witness_TickLeavesTheRestUnchanged : TickReady (at' 0 48) := ⟨⟨rfl, rfl, rfl⟩, rfl⟩

theorem witness_RasterWrittenOnlyByTickAndPowerOn :
    ∃ t, exec .pwroff (at' 100 7) = .next t ∧ t.fault = none := ⟨_, rfl, rfl⟩

/-- A frame's last position and another between ticks, a cycle in progress, a power-on, a construction. -/
theorem witness_PixelBufferReadOnlyBetweenFrames :
    ((at' 311 447).grant = none ∧ (at' 311 447).C + 1 = (at' 311 447).cfg.hTotal ∧
      (at' 311 447).V + 1 = (at' 311 447).cfg.vTotal) ∧
    ((at' 310 447).grant = none ∧ (at' 310 447).V + 1 ≠ (at' 310 447).cfg.vTotal) ∧
    (∃ t, TickReady (at' 311 447) ∧ exec .tick (at' 311 447) = .next t ∧
      NoGrantOrIdleCycle (at' 311 447)) ∧
    proc.grant ≠ none ∧
    (∃ t, exec .pwron (at' 100 7) = .next t ∧ t.fault = none) ∧
    MayConstruct Config.reference [] (constructed Config.reference []) :=
  ⟨⟨rfl, rfl, rfl⟩, ⟨rfl, by decide⟩, ⟨_, ⟨⟨rfl, rfl, rfl⟩, rfl⟩, rfl, .inr (.inl rfl)⟩, by simp,
    ⟨_, rfl, rfl⟩, (witness_JustConstructed []).1⟩

/-- A step that grants a cycle, and one that does not. -/
theorem witness_ProcessorNeverRunsAhead :
    (∃ t, step (State.reset.withFetchWord 32 0) = .next t ∧ t.grants = [false]) ∧
    (∃ t, step ({ host with stall := 1 }.withFetchWord 32 0) = .next t ∧ t.grants = []) :=
  ⟨⟨_, rfl, rfl⟩, ⟨_, rfl, rfl⟩⟩

theorem witness_OneInterruptPulsePerFrame : Config.reference.valid = true := by decide

/-- The first and the last entry of the pixel buffer. -/
theorem witness_EveryPixelRenderedOncePerFrame :
    Config.reference.valid = true ∧ 0 < Config.reference.rasterWidth * Config.reference.rasterHeight ∧
    352 * 296 - 1 < Config.reference.rasterWidth * Config.reference.rasterHeight := by decide

theorem witness_ProcessorUnitsCountTheFrame :
    host.cfg.valid = true ∧ RasterOk (at' 311 446) ∧ Config.processorUnit (at' 311 446).C = true := by
  decide

/-- A flashing and a steady attribute, and the two outer pixels. -/
theorem witness_FlashSwapsInkAndPaperOnly :
    BitVec.getLsbD 0x87#8 7 = true ∧ BitVec.getLsbD 0x47#8 7 = false ∧ 0 < 8 ∧ 7 < 8 := by decide

theorem witness_SampleIndexIsExactFloor : 1 ≤ Config.reference.cpuClockHz ∧ 79 ≤ 80 := by decide

/-- A timestamp equal to the last one, one before it, the frame's last and the first past it. -/
theorem witness_AudioLevelChangeFillsWithPreviousLevel :
    AudioReady { audio with audLastTs := 1000 } ∧
    1000 ≤ (1000#24).toNat ∧ (69887#24).toNat < Config.reference.frameCycles ∧
    (999#24).toNat < 1000 ∧ Config.reference.frameCycles ≤ (69888#24).toNat :=
  ⟨⟨rfl, rfl, rfl, rfl⟩, by decide⟩

theorem witness_EndFrameDeliversTheFilledBuffer : AudioReady audio := ⟨rfl, rfl, rfl, rfl⟩

/-- Two changes at one timestamp and one at the frame's end. -/
theorem witness_DeliveredFrameIsSampleAndHold :
    AudioReady audio ∧ audio.audCursor = 0 ∧ audio.audLastTs = 0 ∧
    audio.audBuf.length = audio.cfg.sampleCount ∧
    ([(true, 0#24), (false, 1000#24), (true, 1000#24), (false, 69887#24)].map
      fun c : Bool × BitVec 24 => c.2.toNat).Pairwise (· ≤ ·) ∧
    ∀ c ∈ [(true, 0#24), (false, 1000#24), (true, 1000#24), (false, 69887#24)],
      c.2.toNat < Config.reference.frameCycles :=
  ⟨⟨rfl, rfl, rfl, rfl⟩, rfl, rfl, List.length_replicate, by decide, by
    intro c hc
    simp only [List.mem_cons, List.not_mem_nil, or_false] at hc
    rcases hc with rfl | rfl | rfl | rfl <;> decide⟩

/-- A sound state with a transaction waiting. -/
theorem witness_sound : Sound (State.reset.withFetchWord 32 0) :=
  ⟨by decide, by decide, by decide, by decide, ⟨List.length_replicate, by decide, by decide⟩,
    fun h => by cases h⟩

/-- The faulted state. -/
theorem witness_faulted : Inv { host with fault := some (.loadRomOverwrite 0#16) } := .inl rfl

theorem witness_StepKeepsTheInvariant :
    ∃ t, Inv (State.reset.withFetchWord 32 0) ∧ step (State.reset.withFetchWord 32 0) = .next t :=
  ⟨_, .inr witness_sound, rfl⟩

theorem witness_ControllerTimestampsNeverDecrease :
    ∃ t, Sound (State.reset.withFetchWord 32 0) ∧ HostDriven (State.reset.withFetchWord 32 0) ∧
      TimestampOk (State.reset.withFetchWord 32 0) ∧
      step (State.reset.withFetchWord 32 0) = .next t ∧ faulted t = false :=
  ⟨_, witness_sound, by decide, by decide, rfl, rfl⟩

theorem witness_OutputHistoryOnlyGrows :
    MayConstruct Config.reference [] (constructed Config.reference []) ∧
    ∃ t, step (State.reset.withFetchWord 32 0xC0000005) = .next t ∧ t.out = [.borderChanged 5#3] :=
  ⟨(witness_JustConstructed []).1, _, rfl, rfl⟩

end Sys2Proof.Tests
end

section
/-!
PROOFS. The family of the state (10_state.md): what every step keeps, the invariant, and who writes the
border, the pressed keys and the raster's registers.
-/

namespace Sys2Proof.Machine

variable {s t u : State}

/-! ### What a transaction can do -/

/-- `Ran s i t`: what transaction `i` can have made of `s`, by the shared operation that did it. Several
rows share one constructor where they differ only in fields that no claim here tells apart. -/
inductive Ran (s : State) : Instr → State → Prop
  /-- fault entry (60_exceptions.md R226) -/
  | raised {i : Instr} {t : State} (e : Error) (he : e.isRefusal = false) (h : raise e s = .next t) :
      Ran s i t
  /-- the refusal mark (R227) -/
  | refused {i : Instr} (e : Error) : Ran s i { s with fault := some e }
  /-- a read, a port access without effect, or an unpowered tick: contention and the model's records -/
  | answered {i : Instr} (stall : Nat) (proc host : List Byte) (draws : Nat) :
      Ran s i { s with stall := stall, procReplies := proc, hostReplies := host, draws := draws }
  /-- a write on the bus after its contention -/
  | stored {i : Instr} (a : Addr) (v : Byte) (stall : Nat) :
      Ran s i (busWrite { s with stall := stall } a v)
  /-- a claimed port write (43_ula_ports.md R181) -/
  | portWritten (p : BitVec 15) (v : Byte) (hle : s.audLastTs ≤ frameCycle s)
      (hlt : frameCycle s < s.cfg.frameCycles) :
      Ran s (.iowrUla p v) (audioFill (speakerField v) (frameCycle s)
        { s with
          border := borderField v, micLevel := micField v, speakerLevel := speakerField v,
          out := s.out ++ [.borderChanged (borderField v)] })
  /-- SETBORDER (R189) -/
  | borderSet (c : BitVec 3) : Ran s (.setborder c) (emit (.borderChanged c) { s with border := c })
  /-- KEYDN (R190) -/
  | keyDown (k : BitVec 6) (hk : k.toNat < keyCount) :
      Ran s (.keydn k) { s with pressed := insertKey k.toNat s.pressed }
  /-- KEYUP (R191) -/
  | keyUp (k : BitVec 6) : Ran s (.keyup k) { s with pressed := removeKey k.toNat s.pressed }
  /-- PWRON (41_bus.md R133), between ticks -/
  | poweredOn (hg : s.grant = none) : Ran s .pwron (powerOn s)
  /-- PWROFF (R134), between ticks -/
  | poweredOff (hg : s.grant = none) : Ran s .pwroff (powerOff s)
  /-- AUDLVL (44_audio.md R204) -/
  | levelChanged (lvl : Bool) (ts : BitVec 24) (hle : s.audLastTs ≤ ts.toNat)
      (hlt : ts.toNat < s.cfg.frameCycles) : Ran s (.audlvl lvl ts) (audioFill lvl ts.toNat s)
  /-- AUDEND (R205) -/
  | frameEnded : Ran s .audend (endFrame s)
  /-- a powered TICK (42_raster.md R140), between ticks -/
  | ticked {t : State} (hg : s.grant = none) (hp : s.powered = true) (h : poweredTick s = .next t) :
      Ran s .tick t

theorem processorRead_eq (s : State) (a : Addr) : processorRead a s = { s with
    stall := (contend a s).stall, procReplies := s.procReplies ++ [busRead (contend a s) a] } := by
  unfold processorRead
  rw [contend_eq]
  rfl

theorem processorWrite_eq (s : State) (a : Addr) (v : Byte) :
    processorWrite a v s = busWrite { s with stall := (contend a s).stall } a v := by
  unfold processorWrite
  rw [contend_eq]

theorem fault_of_raise {e : Error} (h : raise e s = .next t) : t.fault = some e := by
  obtain ⟨u, es, heq, hfault, -⟩ := raise_spec s e
  obtain rfl : u = t := by simpa [heq] using h
  exact hfault

/-- A processor read is one of the answers. -/
theorem Ran.read (i : Instr) (a : Addr) : Ran s i (processorRead a s) := by
  rw [processorRead_eq]
  exact .answered _ _ s.hostReplies s.draws

/-- A processor write is one of the stores. -/
theorem Ran.write (i : Instr) (a : Addr) (v : Byte) : Ran s i (processorWrite a v s) := by
  rw [processorWrite_eq]
  exact .stored a v _

/-- A load stores its byte while powered and faults otherwise (41_bus.md R131). -/
theorem Ran.load {i : Instr} {a : Addr} {v : Byte}
    (h : whenPowered a s (fun s => .next (busWrite s a v)) = .next t) : Ran s i t := by
  unfold whenPowered at h
  split at h
  · cases h
    exact .stored a v s.stall
  · exact .raised _ rfl h

/-- The synthesizer's errors are faults. -/
theorem isRefusal_of_audioError {n : Nat} {e : Error} (h : audioError n s = some e) :
    e.isRefusal = false := by
  unfold audioError at h
  split at h
  · cases h; rfl
  · split at h
    · cases h; rfl
    · cases h

theorem Ran.of_ulaWrite {p : BitVec 15} {v : Byte} (h : ulaWrite v s = .next t) :
    Ran s (.iowrUla p v) t := by
  rcases ulaWrite_cases s v with ⟨e, he, heq⟩ | ⟨hle, hlt, heq⟩ <;> rw [heq] at h
  · exact .raised e (isRefusal_of_audioError he) h
  · cases h
    exact .portWritten p v hle hlt

theorem Ran.of_audioLevelChange {lvl : Bool} {ts : BitVec 24}
    (h : audioLevelChange lvl ts.toNat s = .next t) : Ran s (.audlvl lvl ts) t := by
  unfold audioLevelChange at h
  split at h
  · next e he => exact .raised e (isRefusal_of_audioError he) h
  · next hn =>
    obtain ⟨hle, hlt⟩ := (audioError_none_iff s _).1 hn
    cases h
    exact .levelChanged lvl ts hle hlt

/-- In its issuer's turn, a transaction's effect is one of the cases of `Ran`. -/
theorem ran_of_effect {i : Instr} (ht : turnOf i s = true) (h : effect i s = .next t) : Ran s i t := by
  cases i
  case tick =>
    obtain ⟨-, hg⟩ := (hostTurn_iff s).1 ht
    simp only [effect] at h
    split at h
    · exact .ticked hg ‹_› h
    · cases h
      exact .answered s.stall s.procReplies s.hostReplies s.draws
  case iowrUla => exact .of_ulaWrite h
  case audlvl => exact .of_audioLevelChange h
  case keydn k =>
    simp only [effect] at h
    split at h <;> cases h
    · exact .keyDown k ‹_›
    · exact .refused _
  case keyup k =>
    simp only [effect] at h
    split at h <;> cases h
    · exact .keyUp k
    · exact .refused _
  case loadRom o v =>
    simp only [effect, whenPowered] at h
    split at h <;> exact .raised _ rfl h
  case loadMemVram => exact .load h
  case loadMemRam => exact .load h
  all_goals cases h
  case mrdRom => exact .read _ _
  case mrdVram => exact .read _ _
  case mrdRam => exact .read _ _
  case mwrRom => exact .write _ _ _
  case mwrVram => exact .write _ _ _
  case mwrRam => exact .write _ _ _
  case iordUla => exact .answered s.stall _ s.hostReplies _
  case iordOther => exact .answered s.stall _ s.hostReplies s.draws
  case iowrOther => exact .answered s.stall s.procReplies s.hostReplies s.draws
  case peek => exact .answered s.stall s.procReplies _ s.draws
  case poke a v => exact .stored a v s.stall
  case pwron => exact .poweredOn ((hostTurn_iff s).1 ht).2
  case pwroff => exact .poweredOff ((hostTurn_iff s).1 ht).2
  case setborder c => exact .borderSet c
  case audend => exact .frameEnded

/-- Every transaction that answers a next state has run in one of the cases of `Ran`. -/
theorem ran_of_exec {i : Instr} (h : exec i s = .next t) : Ran s i t := by
  rcases exec_cases i s with ⟨e, -, heq⟩ | ⟨-, -, heq⟩ | ⟨-, ht, heq⟩ <;> rw [heq] at h
  · exact absurd h (stuck_ne_next t e)
  · cases h
    exact .refused _
  · exact ran_of_effect ht h

/-- A step that answers a next state takes a word and runs it, its cycle closed after it, or refuses the
word, or closes a cycle that has no access left. -/
theorem step_next_cases (h : step s = .next t) : s.fault = none ∧
    ((∃ w u, fetch s = some (w, u) ∧
        ((∃ i v, exec i u = .next v ∧ closeCycle v = .next t) ∨
          t = { u with fault := some (.badTransaction w) })) ∨
      closeCycle s = .next t) := by
  rcases step_cases s with ⟨e, -, heq⟩ | ⟨hf, w, u, hw, ⟨i, -, heq⟩ | ⟨e, -, heq⟩⟩ |
    ⟨hf, -, -, heq⟩ | ⟨-, -, -, heq⟩ <;> rw [heq] at h
  · exact absurd h (stuck_ne_next t e)
  · refine ⟨hf, .inl ⟨w, u, hw, .inl ⟨i, ?_⟩⟩⟩
    cases hv : exec i u with
    | next v => exact ⟨v, rfl, by rwa [hv] at h⟩
    | fault r => simp [hv, settle] at h
    | refused r => simp [hv, settle] at h
  · cases h
    exact ⟨hf, .inl ⟨w, u, hw, .inr rfl⟩⟩
  · exact ⟨hf, .inr h⟩
  · cases h

/-- Steps 4 and 5 of a tick advance, or close the granted cycle. -/
theorem unitAndAdvance_next_cases (h : unitAndAdvance s = .next t) :
    ((processorUnit s).grant = none ∧ t = advance (processorUnit s)) ∨
      closeCycle (processorUnit s) = .next t := by
  unfold unitAndAdvance at h
  dsimp only at h
  split at h
  · exact .inr h
  · next hg =>
    cases h
    exact .inl ⟨by simpa using hg, rfl⟩

/-- The closing of a cycle does nothing, advances with the cycle over, or marks a refusal. -/
theorem closeCycle_next_cases (h : closeCycle s = .next t) :
    t = s ∨ t = advance { s with grant := none } ∨
      ∃ k, s.fault = none ∧ t = { s with fault := some (.procCycleCount k) } := by
  rcases closeCycle_cases s with ⟨heq, -⟩ | ⟨-, -, heq⟩ | ⟨hf, k, -, -, heq⟩ <;>
    rw [heq] at h <;> cases h
  · exact .inl rfl
  · exact .inr (.inl rfl)
  · exact .inr (.inr ⟨k, hf, rfl⟩)

/-! ### What every step keeps, a faulting one too -/

/-- The configuration and the ROM are unchanged and the output history is at most extended. -/
structure Keeps (s t : State) : Prop where
  cfg : t.cfg = s.cfg
  rom : t.rom = s.rom
  out : ∃ es, t.out = s.out ++ es

theorem Keeps.of_out_eq (hcfg : t.cfg = s.cfg) (hrom : t.rom = s.rom) (hout : t.out = s.out) :
    Keeps s t :=
  ⟨hcfg, hrom, [], by rw [hout, List.append_nil]⟩

theorem Keeps.trans (h₁ : Keeps s t) (h₂ : Keeps t u) : Keeps s u := by
  obtain ⟨es, hes⟩ := h₁.out
  obtain ⟨fs, hfs⟩ := h₂.out
  exact ⟨h₂.cfg.trans h₁.cfg, h₂.rom.trans h₁.rom, es ++ fs, by rw [hfs, hes, List.append_assoc]⟩

/-- What a powered tick, and the closing of its cycle, leaves besides: the border colour and the pressed
keys. -/
structure TickKeeps (s t : State) : Prop extends Keeps s t where
  border : t.border = s.border
  pressed : t.pressed = s.pressed

theorem TickKeeps.trans (h₁ : TickKeeps s t) (h₂ : TickKeeps t u) : TickKeeps s u :=
  ⟨h₁.toKeeps.trans h₂.toKeeps, h₂.border.trans h₁.border, h₂.pressed.trans h₁.pressed⟩

theorem tickKeeps_video (s : State) : TickKeeps s (video s) := by
  obtain ⟨px, bl, bm, la, heq⟩ := video_eq s
  rw [heq]
  exact ⟨.of_out_eq rfl rfl rfl, rfl, rfl⟩

theorem tickKeeps_processorUnit (s : State) : TickKeeps s (processorUnit s) := by
  rcases processorUnit_cases s with heq | ⟨-, heq⟩ | ⟨-, -, heq⟩ <;> rw [heq] <;>
    exact ⟨.of_out_eq rfl rfl rfl, rfl, rfl⟩

theorem tickKeeps_advance (s : State) : TickKeeps s (advance s) := by
  obtain ⟨c, v, f, fl, fe, buf, cursor, ts, es, heq⟩ := advance_eq s
  rw [heq]
  exact ⟨⟨rfl, rfl, es, rfl⟩, rfl, rfl⟩

theorem tickKeeps_closeCycle (h : closeCycle s = .next t) : TickKeeps s t := by
  rcases closeCycle_next_cases h with rfl | rfl | ⟨k, -, rfl⟩
  · exact ⟨.of_out_eq rfl rfl rfl, rfl, rfl⟩
  · have hover : TickKeeps s { s with grant := none } := ⟨.of_out_eq rfl rfl rfl, rfl, rfl⟩
    exact hover.trans (tickKeeps_advance _)
  · exact ⟨.of_out_eq rfl rfl rfl, rfl, rfl⟩

theorem tickKeeps_poweredTick (h : poweredTick s = .next t) : TickKeeps s t := by
  have hunit := (tickKeeps_video s).trans (tickKeeps_processorUnit _)
  rcases unitAndAdvance_next_cases h with ⟨-, rfl⟩ | hclose
  · exact hunit.trans (tickKeeps_advance _)
  · exact hunit.trans (tickKeeps_closeCycle hclose)

theorem keeps_of_raise {e : Error} (h : raise e s = .next t) : Keeps s t := by
  obtain ⟨u, es, heq, -, hcfg, hrom, hout, -⟩ := raise_spec s e
  obtain rfl : u = t := by simpa [heq] using h
  exact ⟨hcfg, hrom, es, hout⟩

theorem Ran.keeps {i : Instr} (h : Ran s i t) : Keeps s t := by
  cases h with
  | raised _ _ h => exact keeps_of_raise h
  | stored a v stall =>
    obtain ⟨vram, ram, heq⟩ := busWrite_eq { s with stall := stall } a v
    rw [heq]
    exact .of_out_eq rfl rfl rfl
  | portWritten => exact ⟨rfl, rfl, _, rfl⟩
  | borderSet => exact ⟨rfl, rfl, _, rfl⟩
  | frameEnded => exact ⟨rfl, rfl, _, rfl⟩
  | poweredOff =>
    obtain ⟨log, tk, heq⟩ := powerOff_eq s
    rw [heq]
    exact .of_out_eq rfl rfl rfl
  | ticked _ _ h => exact (tickKeeps_poweredTick h).toKeeps
  | refused | answered | keyDown | keyUp | poweredOn | levelChanged => exact .of_out_eq rfl rfl rfl

theorem keeps_of_fetch {w : TransWord} (h : fetch s = some (w, u)) : Keeps s u := by
  rcases fetch_cases s u h with ⟨ws, k, -, rfl⟩ | ⟨-, r, rs, -, -, rfl⟩ <;>
    exact .of_out_eq rfl rfl rfl

theorem keeps_of_step (h : step s = .next t) : Keeps s t := by
  obtain ⟨-, ⟨w, u, hw, ⟨i, v, hv, hclose⟩ | rfl⟩ | hclose⟩ := step_next_cases h
  · exact (keeps_of_fetch hw).trans ((ran_of_exec hv).keeps.trans (tickKeeps_closeCycle hclose).toKeeps)
  · exact (keeps_of_fetch hw).trans (.of_out_eq rfl rfl rfl)
  · exact (tickKeeps_closeCycle hclose).toKeeps

/-! ### Facts of a valid configuration -/

theorem meets_of_valid {p : Config} (h : p.valid = true) (c : Config.Constraint) : p.meets c = true :=
  List.all_eq_true.1 h c (by cases c <;> decide)

/-- A line holds the 256 active pixels (00_scope.md R10). -/
theorem activeWidth_le_hTotal {p : Config} (h : p.valid = true) : Config.activeWidth ≤ p.hTotal := by
  have hline : p.rasterWidth ≤ p.hTotal := of_decide_eq_true (meets_of_valid h .lineHoldsRaster)
  unfold Config.rasterWidth at hline
  omega

theorem vTotal_pos {p : Config} (h : p.valid = true) : 0 < p.vTotal := by
  have hact : 1 ≤ p.activeHeight := of_decide_eq_true (meets_of_valid h .activeHeightPositive)
  unfold Config.vTotal Config.tb0 Config.vs0
  omega

theorem hTotal_pos {p : Config} (h : p.valid = true) : 0 < p.hTotal :=
  Nat.lt_of_lt_of_le (by decide) (activeWidth_le_hTotal h)

theorem frameCycles_pos {p : Config} (h : p.valid = true) : 0 < p.frameCycles := by
  have hticks : Config.activeWidth * 1 ≤ p.frameTicks :=
    Nat.mul_le_mul (activeWidth_le_hTotal h) (vTotal_pos h)
  simp only [Config.activeWidth] at hticks
  simp only [Config.frameCycles]
  omega

@[simp] theorem sampleIndex_zero (p : Config) : p.sampleIndex 0 = 0 := by simp [Config.sampleIndex]

/-- `SampleIndex` is monotone (44_audio.md R200). -/
theorem sampleIndex_mono (p : Config) {m n : Nat} (h : m ≤ n) : p.sampleIndex m ≤ p.sampleIndex n :=
  Nat.div_le_div_right (Nat.mul_le_mul_right _ h)

/-! ### The invariant, operation by operation -/

theorem cycleOk_of_between (h : s.grant = none) : CycleOk s := by simp [CycleOk, h]

theorem faulted_of_raise {e : Error} (he : e.isRefusal = false) (h : raise e s = .next t) :
    faulted t = true := by
  simp [faulted, fault_of_raise h, he]

theorem sound_of_inv (h : Inv s) (hf : s.fault = none) : Sound s := by
  simpa [Inv, faulted, hf] using h

theorem sound_busWrite (hs : Sound s) (a : Addr) (v : Byte) : Sound (busWrite s a v) := by
  obtain ⟨hvalid, hraster, ⟨hrom, hvram, hram, hpix⟩, hkeys, haud, hcycle⟩ := hs
  obtain ⟨hvram', hram'⟩ := busWrite_wf s a v hvram hram
  obtain ⟨vram, ram, heq⟩ := busWrite_eq s a v
  rw [heq] at hvram' hram' ⊢
  exact ⟨hvalid, hraster, ⟨hrom, hvram', hram', hpix⟩, hkeys, haud, hcycle⟩

/-- A level change puts the cursor at the slot of its timestamp (44_audio.md R204). -/
theorem sound_audioFill (hs : Sound s) (lvl : Bool) {n : Nat} (hle : s.audLastTs ≤ n)
    (hlt : n < s.cfg.frameCycles) : Sound (audioFill lvl n s) := by
  obtain ⟨hvalid, hraster, harrays, hkeys, ⟨hlen, hcursor, -⟩, hcycle⟩ := hs
  have hcursor' : max s.audCursor (s.cfg.sampleIndex n) = s.cfg.sampleIndex n := by
    rw [hcursor]
    exact max_eq_right (sampleIndex_mono _ hle)
  exact ⟨hvalid, hraster, harrays, hkeys, ⟨(length_fillSlots ..).trans hlen, hcursor', hlt⟩, hcycle⟩

theorem sound_endFrame (hs : Sound s) : Sound (endFrame s) := by
  obtain ⟨hvalid, hraster, harrays, hkeys, ⟨hlen, -, -⟩, hcycle⟩ := hs
  exact ⟨hvalid, hraster, harrays, hkeys,
    ⟨(length_fillSlots ..).trans hlen, (sampleIndex_zero _).symm, frameCycles_pos hvalid⟩, hcycle⟩

theorem sound_pressed (hs : Sound s) {ks : List Nat}
    (hks : keysWf s.pressed = true → keysWf ks = true) : Sound { s with pressed := ks } := by
  obtain ⟨hvalid, hraster, harrays, hkeys, haud, hcycle⟩ := hs
  exact ⟨hvalid, hraster, harrays, hks hkeys, haud, hcycle⟩

/-- Power-on puts the raster and the synthesizer at the start of a frame (70_reset_and_hazards.md R250). -/
theorem sound_powerOn (hs : Sound s) (hg : s.grant = none) : Sound (powerOn s) := by
  obtain ⟨hvalid, -, harrays, hkeys, ⟨hlen, -, -⟩, -⟩ := hs
  exact ⟨hvalid, ⟨hTotal_pos hvalid, vTotal_pos hvalid⟩, harrays, hkeys,
    ⟨hlen, (sampleIndex_zero _).symm, frameCycles_pos hvalid⟩, cycleOk_of_between hg⟩

theorem sound_powerOff (hs : Sound s) (hg : s.grant = none) : Sound (powerOff s) := by
  obtain ⟨hvalid, hraster, harrays, hkeys, haud, -⟩ := hs
  obtain ⟨log, tk, heq⟩ := powerOff_eq s
  rw [heq]
  exact ⟨hvalid, hraster, harrays, hkeys, haud, cycleOk_of_between hg⟩

/-- Steps 1 to 3 of a tick, which no granted cycle has begun. -/
theorem sound_video (hs : Sound s) (hg : s.grant = none) : Sound (video s) := by
  obtain ⟨hvalid, hraster, ⟨hrom, hvram, hram, hpix⟩, hkeys, haud, -⟩ := hs
  have hpix' : Cells.wf (s.cfg.rasterWidth * s.cfg.rasterHeight) (video s).pixbuf = true :=
    wf_render (setFetching s) hraster hpix
  obtain ⟨px, bl, bm, la, heq⟩ := video_eq s
  rw [heq] at hpix' ⊢
  exact ⟨hvalid, hraster, ⟨hrom, hvram, hram, hpix'⟩, hkeys, haud, cycleOk_of_between hg⟩

/-- Step 4 grants a cycle only where `CycleOk` admits one: after steps 1 to 3, at a processor-rate unit. -/
theorem sound_processorUnit_video (hs : Sound s) (hg : s.grant = none) (hp : s.powered = true) :
    Sound (processorUnit (video s)) := by
  have hvideo := sound_video hs hg
  rcases processorUnit_cases (video s) with heq | ⟨-, heq⟩ | ⟨-, hunit, heq⟩ <;> rw [heq]
  · exact hvideo
  · exact hvideo
  · obtain ⟨hvalid, hraster, harrays, hkeys, haud, -⟩ := hvideo
    refine ⟨hvalid, hraster, harrays, hkeys, haud, fun _ => ?_⟩
    obtain ⟨px, bl, bm, la, hv⟩ := video_eq s
    rw [hv] at hunit ⊢
    exact ⟨hp, hunit, rfl, rfl⟩

/-- Step 5 keeps the counters in range (42_raster.md R155 to R157). -/
theorem sound_advance (hs : Sound s) (hg : s.grant = none) : Sound (advance s) := by
  obtain ⟨hvalid, ⟨hC, hV⟩, harrays, hkeys, haud, -⟩ := hs
  by_cases hline : s.C + 1 = s.cfg.hTotal
  · by_cases hframe : s.V + 1 = s.cfg.vTotal
    · rw [advance_frame_end s hline hframe, countFrame_eq]
      refine sound_endFrame ⟨hvalid, ⟨hTotal_pos hvalid, vTotal_pos hvalid⟩, harrays, hkeys, haud, ?_⟩
      exact cycleOk_of_between hg
    · rw [advance_line_end s hline hframe]
      have hV' : s.V + 1 < s.cfg.vTotal := by omega
      exact ⟨hvalid, ⟨hTotal_pos hvalid, hV'⟩, harrays, hkeys, haud, cycleOk_of_between hg⟩
  · rw [advance_in_line s hline]
    have hC' : s.C + 1 < s.cfg.hTotal := by omega
    exact ⟨hvalid, ⟨hC', hV⟩, harrays, hkeys, haud, cycleOk_of_between hg⟩

theorem sound_closeCycle (hs : Sound s) (h : closeCycle s = .next t) : Sound t := by
  rcases closeCycle_next_cases h with rfl | rfl | ⟨k, -, rfl⟩
  · exact hs
  · obtain ⟨hvalid, hraster, harrays, hkeys, haud, -⟩ := hs
    exact sound_advance ⟨hvalid, hraster, harrays, hkeys, haud, cycleOk_of_between rfl⟩ rfl
  · exact hs

theorem sound_poweredTick (hs : Sound s) (hg : s.grant = none) (hp : s.powered = true)
    (h : poweredTick s = .next t) : Sound t := by
  have hunit := sound_processorUnit_video hs hg hp
  rcases unitAndAdvance_next_cases h with ⟨hg', rfl⟩ | hclose
  · exact sound_advance hunit hg'
  · exact sound_closeCycle hunit hclose

/-- Every transaction makes of a sound state a sound one or the faulted one. -/
theorem Ran.inv {i : Instr} (h : Ran s i t) (hs : Sound s) : Inv t := by
  cases h with
  | raised e he h => exact .inl (faulted_of_raise he h)
  | refused | answered | borderSet => exact .inr hs
  | stored a v stall => exact .inr (sound_busWrite (s := { s with stall := stall }) hs a v)
  | portWritten _ v hle hlt => exact .inr (sound_audioFill hs (speakerField v) hle hlt)
  | keyDown k hk => exact .inr (sound_pressed hs fun hkeys => keysWf_insertKey hkeys hk)
  | keyUp k => exact .inr (sound_pressed hs keysWf_removeKey)
  | poweredOn hg => exact .inr (sound_powerOn hs hg)
  | poweredOff hg => exact .inr (sound_powerOff hs hg)
  | levelChanged lvl _ hle hlt => exact .inr (sound_audioFill hs lvl hle hlt)
  | frameEnded => exact .inr (sound_endFrame hs)
  | ticked hg hp h => exact .inr (sound_poweredTick hs hg hp h)

/-- Taking a word keeps the invariant: the cycle stays granted while its accesses are taken. -/
theorem sound_of_fetch {w : TransWord} (hs : Sound s) (h : fetch s = some (w, u)) : Sound u := by
  obtain ⟨hvalid, hraster, harrays, hkeys, haud, hcycle⟩ := hs
  rcases fetch_cases s u h with ⟨ws, k, hg, rfl⟩ | ⟨-, r, rs, -, -, rfl⟩
  · exact ⟨hvalid, hraster, harrays, hkeys, haud, fun _ => hcycle (by simp [hg])⟩
  · exact ⟨hvalid, hraster, harrays, hkeys, haud, hcycle⟩

/-- In the faulted state there is no cycle to close (60_exceptions.md R226). -/
theorem inv_closeCycle (hs : Inv s) (h : closeCycle s = .next t) : Inv t := by
  rcases hs with hfaulted | hs
  · cases hf : s.fault with
    | none => simp [faulted, hf] at hfaulted
    | some e =>
      rw [closeCycle_fault s hf] at h
      cases h
      exact .inl hfaulted
  · exact .inr (sound_closeCycle hs h)

/-! ### The obligations -/

/-- Settles O58: the word taken, its transaction and the closing of its cycle each keep the invariant. -/
theorem stepKeepsTheInvariant : Obligations.StepKeepsTheInvariant := by
  intro s t hinv h
  obtain ⟨hf, hcases⟩ := step_next_cases h
  have hs := sound_of_inv hinv hf
  rcases hcases with ⟨w, u, hw, ⟨i, v, hv, hclose⟩ | rfl⟩ | hclose
  · exact inv_closeCycle ((ran_of_exec hv).inv (sound_of_fetch hs hw)) hclose
  · have hu := sound_of_fetch hs hw
    exact .inr hu
  · exact .inr (sound_closeCycle hs hclose)

/-- Settles O18. -/
theorem romAndConfigurationNeverChange : Obligations.RomAndConfigurationNeverChange :=
  fun _ _ h => ⟨(keeps_of_step h).rom, (keeps_of_step h).cfg⟩

/-- Settles O60. -/
theorem outputHistoryOnlyGrows : Obligations.OutputHistoryOnlyGrows := by
  refine ⟨fun cfg image s h => ?_, fun s t h => (keeps_of_step h).out⟩
  obtain ⟨-, -, -, -, -, hout, -⟩ := h
  exact hout

/-- Settles O29, by the cases of `Ran`: the writers are the ones the claim excepts. -/
theorem borderAndKeysHaveNoOtherWriter : Obligations.BorderAndKeysHaveNoOtherWriter := by
  intro i s t hexec hf
  cases ran_of_exec hexec with
  | raised _ _ h => simp [fault_of_raise h] at hf
  | refused => cases hf
  | stored a v stall =>
    obtain ⟨vram, ram, heq⟩ := busWrite_eq { s with stall := stall } a v
    rw [heq]
    exact ⟨fun _ _ => rfl, fun _ _ => rfl⟩
  | portWritten | borderSet => exact ⟨nofun, fun _ _ => rfl⟩
  | keyDown k => exact ⟨fun _ _ => rfl, fun hdown _ => absurd rfl (hdown k)⟩
  | keyUp k => exact ⟨fun _ _ => rfl, fun _ hup => absurd rfl (hup k)⟩
  | poweredOn => exact ⟨fun _ hi => absurd rfl hi, fun _ _ => rfl⟩
  | poweredOff =>
    obtain ⟨log, tk, heq⟩ := powerOff_eq s
    rw [heq]
    exact ⟨fun _ _ => rfl, fun _ _ => rfl⟩
  | ticked _ _ h =>
    have hkeeps := tickKeeps_poweredTick h
    exact ⟨fun _ _ => hkeeps.border, fun _ _ => hkeeps.pressed⟩
  | answered | levelChanged | frameEnded => exact ⟨fun _ _ => rfl, fun _ _ => rfl⟩

/-- Settles O47, by the cases of `Ran`: of the other transactions none names a register of the raster. -/
theorem rasterWrittenOnlyByTickAndPowerOn : Obligations.RasterWrittenOnlyByTickAndPowerOn := by
  intro i s t hexec hf htick hpwron
  cases ran_of_exec hexec with
  | raised _ _ h => simp [fault_of_raise h] at hf
  | refused => cases hf
  | stored a v stall =>
    obtain ⟨vram, ram, heq⟩ := busWrite_eq { s with stall := stall } a v
    simp [heq]
  | poweredOn => exact absurd rfl hpwron
  | poweredOff =>
    obtain ⟨log, tk, heq⟩ := powerOff_eq s
    simp [heq]
  | ticked => exact absurd rfl htick
  | answered | portWritten | borderSet | keyDown | keyUp | levelChanged | frameEnded =>
    exact ⟨rfl, rfl, rfl, rfl, rfl, rfl, rfl, rfl, rfl, rfl⟩

end Sys2Proof.Machine
end

section
/-!
PROOFS. The family of the memory (20_memory.md): which word a step takes and runs, and what closes a
granted cycle after it (R60; 42_raster.md R140, R149).
-/

namespace Sys2Proof.Machine

variable {s t : State} {w : TransWord} {i : Instr}

/-- Between ticks the oldest waiting request is taken. -/
theorem fetch_waiting {r : Request} {rs : List Request} (hg : s.grant = none)
    (hp : s.pending = r :: rs) :
    fetch s = some (r.word, { s with issuer := r.issuer, pending := rs }) := by
  simp [fetch, hg, hp]

/-- Inside a granted cycle the processor's next access is taken. -/
theorem fetch_access {ws : List TransWord} {k : Nat} (hg : s.grant = some ⟨w :: ws, k⟩) :
    fetch s = some (w, { s with issuer := .processor, grant := some ⟨ws, k⟩ }) := by
  simp [fetch, hg]

/-- A step runs the transaction that the word taken decodes to, and closes the cycle after it. -/
theorem step_of_fetch (hf : s.fault = none) (hw : fetch s = some (w, t)) (hd : decode w = .ok i) :
    step s = settle (exec i t) := by
  simp [step, hf, hw, runWord, hd]

/-- A cycle that is not over, or none, is not closed. -/
theorem closeCycle_not_over (h : ∀ k, s.grant ≠ some ⟨[], k⟩) : closeCycle s = .next s := by
  rcases closeCycle_cases s with ⟨heq, -⟩ | ⟨-, hg, -⟩ | ⟨-, k, -, hg, -⟩
  · exact heq
  · exact absurd hg (h 1)
  · exact absurd hg (h k)

/-- Settles O7: the word taken decides the step, and the cases of `closeCycle` what comes after it. -/
theorem stepRunsTheDecodedTransaction : Obligations.StepRunsTheDecodedTransaction := by
  intro s i
  refine ⟨fun hf => ⟨?_, ?_, ?_, ?_, ?_⟩, fun hf => ?_⟩
  · intro r rs hg hp hd
    exact step_of_fetch hf (fetch_waiting hg hp) hd
  · intro w ws k hg hd
    exact step_of_fetch hf (fetch_access hg) hd
  · intro hg
    exact closeCycle_done s hf hg
  · intro k hk hg
    exact closeCycle_count s hk hf hg
  · intro hg
    exact closeCycle_not_over hg
  · obtain ⟨e, he⟩ := Option.ne_none_iff_exists'.mp hf
    exact closeCycle_fault s he

end Sys2Proof.Machine
end

section
/-!
PROOFS. The family of the encoding (30_encoding.md): what the decoder makes of a word of each `KIND`,
which words decode, which words a row of the opcode table has, and who may issue which `KIND`.
-/

namespace Sys2Proof

/-! ### A field cut in two -/

/-- A field is its leading bits before the rest of it. -/
theorem append_extractLsb'_self (m n : Nat) (x : BitVec (m + n)) :
    x.extractLsb' n m ++ x.extractLsb' 0 n = x := by
  rw [BitVec.extractLsb'_append_extractLsb'_eq_extractLsb' (Nat.zero_add n).symm,
    BitVec.extractLsb'_eq_self]

/-- The leading bits of a field are `y` exactly when the field is `y` before some rest. -/
theorem extractLsb'_eq_iff_append (m n : Nat) (x : BitVec (m + n)) (y : BitVec m) :
    x.extractLsb' n m = y ↔ ∃ z : BitVec n, x = y ++ z := by
  constructor
  · rintro rfl
    exact ⟨x.extractLsb' 0 n, (append_extractLsb'_self m n x).symm⟩
  · rintro ⟨z, rfl⟩
    exact BitVec.extractLsb'_append_eq_left

/-- A field of one bit is that bit. -/
theorem extractLsb'_one {n : Nat} (x : BitVec n) (i : Nat) :
    x.extractLsb' i 1 = BitVec.ofBool (x.getLsbD i) := by
  refine BitVec.eq_of_getLsbD_eq fun j hj => ?_
  obtain rfl : j = 0 := by omega
  simp

/-! ### Regions and claims, from the address to its form (30_encoding.md R84, R85) -/

theorem exists_romAddr_of_top {a : Addr} (h : a.extractLsb' 14 2 = 0b00#2) : ∃ o, a = romAddr o :=
  (extractLsb'_eq_iff_append 2 14 a _).1 h

theorem exists_vramAddr_of_top {a : Addr} (h : a.extractLsb' 14 2 = 0b01#2) : ∃ o, a = vramAddr o :=
  (extractLsb'_eq_iff_append 2 14 a _).1 h

/-- Of `A[15:14]` only bit 15 selects the RAM. -/
theorem exists_ramAddr_of_top {a : Addr}
    (h : a.extractLsb' 14 2 = 0b10#2 ∨ a.extractLsb' 14 2 = 0b11#2) : ∃ o, a = ramAddr o := by
  have htop : (a.extractLsb' 14 2).extractLsb' 1 1 = a.extractLsb' 15 1 := by
    simp [extractLsb'_one]
  refine (extractLsb'_eq_iff_append 1 15 a _).1 ?_
  rcases h with h | h <;> rw [← htop, h] <;> decide

/-- Every address lies in one of the regions. -/
theorem addr_cases (a : Addr) :
    (∃ o, a = romAddr o) ∨ (∃ o, a = vramAddr o) ∨ ∃ o, a = ramAddr o := by
  have htop : ∀ x : BitVec 2, x = 0b00#2 ∨ x = 0b01#2 ∨ x = 0b10#2 ∨ x = 0b11#2 := by decide
  rcases htop (a.extractLsb' 14 2) with h | h | h
  · exact .inl (exists_romAddr_of_top h)
  · exact .inr (.inl (exists_vramAddr_of_top h))
  · exact .inr (.inr (exists_ramAddr_of_top h))

/-- Every port is claimed or unclaimed. -/
theorem port_cases (p : Addr) : (∃ q, p = ulaPort q) ∨ ∃ q, p = otherPort q := by
  have hbit : ∀ x : BitVec 1, x = 0#1 ∨ x = 1#1 := by decide
  have hp : p.extractLsb' 1 15 ++ p.extractLsb' 0 1 = p := append_extractLsb'_self 15 1 p
  rcases hbit (p.extractLsb' 0 1) with h | h <;> rw [h] at hp
  · exact .inl ⟨_, hp.symm⟩
  · exact .inr ⟨_, hp.symm⟩

@[simp] theorem extractLsb'_romAddr (o : BitVec 14) : (romAddr o).extractLsb' 0 14 = o :=
  BitVec.extractLsb'_append_eq_right

@[simp] theorem extractLsb'_vramAddr (o : BitVec 14) : (vramAddr o).extractLsb' 0 14 = o :=
  BitVec.extractLsb'_append_eq_right

@[simp] theorem extractLsb'_ramAddr (o : BitVec 15) : (ramAddr o).extractLsb' 0 15 = o :=
  BitVec.extractLsb'_append_eq_right

/-! ### `DATA` of a key event and of SETBORDER, its leading bits zero (R87) -/

section
variable (k : BitVec 6) (c : BitVec 3)

@[simp] theorem extractLsb'_keyData_low : (0#2 ++ k : Byte).extractLsb' 0 6 = k :=
  BitVec.extractLsb'_append_eq_right

@[simp] theorem extractLsb'_keyData_high : (0#2 ++ k : Byte).extractLsb' 6 2 = 0#2 :=
  BitVec.extractLsb'_append_eq_left

@[simp] theorem toNat_keyData : (0#2 ++ k : Byte).toNat = k.toNat :=
  (toNat_append' 0#2 k).trans (by simp)

@[simp] theorem extractLsb'_colourData_low : (0#5 ++ c : Byte).extractLsb' 0 3 = c :=
  BitVec.extractLsb'_append_eq_right

@[simp] theorem extractLsb'_colourData_high : (0#5 ++ c : Byte).extractLsb' 3 5 = 0#5 :=
  BitVec.extractLsb'_append_eq_left

end

/-! ### Key identifiers (R95) -/

@[simp] theorem wellFormed_keydn (k : BitVec 6) : (Instr.keydn k).wellFormed = true ↔ k.toNat < 40 :=
  decide_eq_true_iff

@[simp] theorem wellFormed_keyup (k : BitVec 6) : (Instr.keyup k).wellFormed = true ↔ k.toNat < 40 :=
  decide_eq_true_iff

/-! ### What a word decodes to, by its fields (R81, R83) -/

section
variable {w : TransWord}

theorem decode_mrd (hk : kindOf w = 0x1#4) (hs : subOf w = 0#4) (hd : dataOf w = 0#8) :
    decode w = .ok (byRegion (addrOf w) .mrdRom .mrdVram .mrdRam) := by
  simp [decode, decodeT, needZero, hk, hs, hd]

theorem decode_mwr (hk : kindOf w = 0x2#4) (hs : subOf w = 0#4) : decode w =
    .ok (byRegion (addrOf w) (Instr.mwrRom · (dataOf w)) (Instr.mwrVram · (dataOf w))
      (Instr.mwrRam · (dataOf w))) := by
  simp [decode, decodeT, needZero, hk, hs]

theorem decode_iord (hk : kindOf w = 0x3#4) (hs : subOf w = 0#4) (hd : dataOf w = 0#8) :
    decode w = .ok (byClaim (addrOf w) .iordUla .iordOther) := by
  simp [decode, decodeT, needZero, hk, hs, hd]

theorem decode_iowr (hk : kindOf w = 0x4#4) (hs : subOf w = 0#4) : decode w =
    .ok (byClaim (addrOf w) (Instr.iowrUla · (dataOf w)) (Instr.iowrOther · (dataOf w))) := by
  simp [decode, decodeT, needZero, hk, hs]

theorem decode_peek (hk : kindOf w = 0x5#4) (hs : subOf w = 0#4) (hd : dataOf w = 0#8) :
    decode w = .ok (.peek (addrOf w)) := by
  simp [decode, decodeT, needZero, hk, hs, hd]

theorem decode_poke (hk : kindOf w = 0x6#4) (hs : subOf w = 0#4) :
    decode w = .ok (.poke (addrOf w) (dataOf w)) := by
  simp [decode, decodeT, needZero, hk, hs]

/-- A key event's word: `ADDR` zero, and in `DATA` two zero bits before an identifier below 40 (R87, R95). -/
theorem decodeKey_eq (mk : BitVec 6 → Instr) (ha : addrOf w = 0#16)
    (hd : (dataOf w).extractLsb' 6 2 = 0#2) (hlt : ((dataOf w).extractLsb' 0 6).toNat < keyCount) :
    decodeKey w mk = .ok (mk ((dataOf w).extractLsb' 0 6)) := by
  rw [decodeKey, ha, hd, if_pos hlt]
  simp [needZero]

theorem decode_keydn (hk : kindOf w = 0x7#4) (hs : subOf w = 0#4) : decode w = decodeKey w .keydn := by
  simp [decode, decodeT, needZero, hk, hs]

theorem decode_keyup (hk : kindOf w = 0x8#4) (hs : subOf w = 0#4) : decode w = decodeKey w .keyup := by
  simp [decode, decodeT, needZero, hk, hs]

theorem decode_load (hk : kindOf w = 0xB#4) (hs : subOf w = 0#4) : decode w =
    .ok (byRegion (addrOf w) (Instr.loadRom · (dataOf w)) (Instr.loadMemVram · (dataOf w))
      (Instr.loadMemRam · (dataOf w))) := by
  simp [decode, decodeT, needZero, hk, hs]

theorem decode_setborder (hk : kindOf w = 0xC#4) (hs : subOf w = 0#4) (ha : addrOf w = 0#16)
    (hd : (dataOf w).extractLsb' 3 5 = 0#5) :
    decode w = .ok (.setborder ((dataOf w).extractLsb' 0 3)) := by
  simp [decode, decodeT, needZero, hk, hs, ha, hd]

theorem decode_audlvl (hk : kindOf w = 0xD#4) (hs : subAOf w = 0#3) :
    decode w = .ok (.audlvl (lvlOf w) (tsOf w)) := by
  simp [decode, needZero, hk, hs]

end

/-! ### What a decoded word is -/

/-- A word is the AUDLVL word of its own fields, if its `KIND` is 0xD and its `SUB` zero. -/
theorem encode_audlvl_of_fields {w : TransWord} (hk : kindOf w = 0xD#4) (hs : subAOf w = 0#3) :
    encode (.audlvl (lvlOf w) (tsOf w)) = w := by
  have hw : w.extractLsb' 28 4 ++ w.extractLsb' 25 3 ++ w.extractLsb' 24 1 ++ w.extractLsb' 0 24 = w := by
    have happend {m n k : Nat} : w.extractLsb' (k + n) m ++ w.extractLsb' k n = w.extractLsb' k (m + n) :=
      BitVec.extractLsb'_append_extractLsb'_eq_extractLsb' rfl
    rw [happend (n := 3) (k := 25), happend (n := 1) (k := 24), append_extractLsb'_self 8 24 w]
  rw [extractLsb'_one, show w.extractLsb' 28 4 = 0xD#4 from hk, show w.extractLsb' 25 3 = 0#3 from hs] at hw
  exact hw

/-- `w` is the word of `i`, which is well-formed. -/
abbrev IsWordOf (w : TransWord) (i : Instr) : Prop := i.wellFormed = true ∧ encode i = w

/-- A word read by region is the word of what it is read as, if that is so in each region. -/
theorem isWordOf_byRegion {kind : BitVec 4} {a : Addr} {d : Byte} {rom vram : BitVec 14 → Instr}
    {ram : BitVec 15 → Instr} (hrom : ∀ o, IsWordOf (wordT kind (romAddr o) d) (rom o))
    (hvram : ∀ o, IsWordOf (wordT kind (vramAddr o) d) (vram o))
    (hram : ∀ o, IsWordOf (wordT kind (ramAddr o) d) (ram o)) :
    IsWordOf (wordT kind a d) (byRegion a rom vram ram) := by
  rcases addr_cases a with ⟨o, rfl⟩ | ⟨o, rfl⟩ | ⟨o, rfl⟩
  · simpa using hrom o
  · simpa using hvram o
  · simpa using hram o

/-- The same by claim. -/
theorem isWordOf_byClaim {kind : BitVec 4} {p : Addr} {d : Byte} {ula other : BitVec 15 → Instr}
    (hula : ∀ q, IsWordOf (wordT kind (ulaPort q) d) (ula q))
    (hother : ∀ q, IsWordOf (wordT kind (otherPort q) d) (other q)) :
    IsWordOf (wordT kind p d) (byClaim p ula other) := by
  rcases port_cases p with ⟨q, rfl⟩ | ⟨q, rfl⟩
  · simpa using hula q
  · simpa using hother q

/-- The same for a key event. -/
theorem isWordOf_of_decodeKey {kind : BitVec 4} {a : Addr} {d : Byte} {mk : BitVec 6 → Instr} {i : Instr}
    (h : decodeKey (wordT kind a d) mk = .ok i)
    (hmk : ∀ k : BitVec 6, k.toNat < keyCount → IsWordOf (wordT kind 0#16 (0#2 ++ k)) (mk k)) :
    IsWordOf (wordT kind a d) i := by
  simp only [decodeKey, addrOf_wordT, dataOf_wordT, needZero_ok, extractLsb'_eq_iff_append 2 6] at h
  obtain ⟨rfl, ⟨k, rfl⟩, hi⟩ := h
  rw [BitVec.extractLsb'_append_eq_right] at hi
  split at hi <;> cases hi
  exact hmk k ‹_›

/-- The same for a transaction without operands. -/
theorem isWordOf_of_bare {kind : BitVec 4} {a : Addr} {d : Byte} {i j : Instr}
    (hj : IsWordOf (wordT kind 0#16 0#8) j)
    (h : needZero a .addrNotZero (needZero d .dataNotZero (.ok j)) = .ok i) :
    IsWordOf (wordT kind a d) i := by
  simp only [needZero_ok] at h
  obtain ⟨rfl, rfl, hi⟩ := h
  cases hi
  exact hj

/-- The decoder reads a word only as a transaction whose word it is. The cases are its branches in their
order: `h_1` is `KIND` 0x0, and so on to `h_13` for 0xC, then `h_14` for 0xE and `h_15` for the rest. -/
theorem isWordOf_of_decodeT {kind : BitVec 4} {a : Addr} {d : Byte} {i : Instr}
    (h : decodeT (wordT kind a d) = .ok i) : IsWordOf (wordT kind a d) i := by
  have hkind {n : Nat} (hk : kind.toNat = n) : kind = BitVec.ofNat 4 n := by simp [← hk]
  simp only [decodeT, kindOf_wordT, addrOf_wordT, dataOf_wordT] at h
  split at h
  case h_15 => cases h
  all_goals (rename_i hk; obtain rfl := hkind hk)
  case h_1 | h_10 | h_11 | h_14 => exact isWordOf_of_bare ⟨rfl, rfl⟩ h
  case h_2 =>
    obtain ⟨rfl, hi⟩ := needZero_ok.1 h
    cases hi
    exact isWordOf_byRegion (fun _ => ⟨rfl, rfl⟩) (fun _ => ⟨rfl, rfl⟩) (fun _ => ⟨rfl, rfl⟩)
  case h_3 | h_12 =>
    cases h
    exact isWordOf_byRegion (fun _ => ⟨rfl, rfl⟩) (fun _ => ⟨rfl, rfl⟩) (fun _ => ⟨rfl, rfl⟩)
  case h_4 =>
    obtain ⟨rfl, hi⟩ := needZero_ok.1 h
    cases hi
    exact isWordOf_byClaim (fun _ => ⟨rfl, rfl⟩) (fun _ => ⟨rfl, rfl⟩)
  case h_5 =>
    cases h
    exact isWordOf_byClaim (fun _ => ⟨rfl, rfl⟩) (fun _ => ⟨rfl, rfl⟩)
  case h_6 =>
    obtain ⟨rfl, hi⟩ := needZero_ok.1 h
    cases hi
    exact ⟨rfl, rfl⟩
  case h_7 =>
    cases h
    exact ⟨rfl, rfl⟩
  case h_8 | h_9 => exact isWordOf_of_decodeKey h fun _ hlt => ⟨decide_eq_true hlt, rfl⟩
  case h_13 =>
    simp only [needZero_ok, extractLsb'_eq_iff_append 5 3] at h
    obtain ⟨rfl, ⟨c, rfl⟩, hi⟩ := h
    rw [BitVec.extractLsb'_append_eq_right] at hi
    cases hi
    exact ⟨rfl, rfl⟩

/-- Settles O2: a format A word is put together from its fields, a format T word read by its `KIND`. -/
theorem decodedWordEncodesBack : Obligations.DecodedWordEncodesBack := by
  intro w i h
  unfold decode at h
  split at h
  · next hk =>
    obtain ⟨hs, h⟩ := needZero_ok.1 h
    cases h
    exact ⟨rfl, encode_audlvl_of_fields hk hs⟩
  · obtain ⟨hs, h⟩ := needZero_ok.1 h
    rw [← wordT_of_fields w hs] at h ⊢
    exact isWordOf_of_decodeT h

/-- Settles O1, each transaction by what a word of its fields decodes to. -/
theorem decodeOfEncodeIsIdentity : Obligations.DecodeOfEncodeIsIdentity := by
  intro i hwf
  cases i with
  | tick | pwron | pwroff | audend => decide
  | mrdRom | mrdVram | mrdRam => simp [encode, decode_mrd]
  | mwrRom | mwrVram | mwrRam => simp [encode, decode_mwr]
  | iordUla | iordOther => simp [encode, decode_iord]
  | iowrUla | iowrOther => simp [encode, decode_iowr]
  | peek => simp [encode, decode_peek]
  | poke => simp [encode, decode_poke]
  | keydn k =>
    have hlt : k.toNat < keyCount := (wellFormed_keydn k).1 hwf
    simp [encode, decode_keydn, decodeKey_eq, hlt]
  | keyup k =>
    have hlt : k.toNat < keyCount := (wellFormed_keyup k).1 hwf
    simp [encode, decode_keyup, decodeKey_eq, hlt]
  | loadRom | loadMemVram | loadMemRam => simp [encode, decode_load]
  | setborder => simp [encode, decode_setborder]
  | audlvl => simp [decode_audlvl]

/-- Settles O4. -/
theorem regionSelectedByTopAddressBits : Obligations.RegionSelectedByTopAddressBits := by
  intro a v
  refine ⟨fun h => ?_, fun h => ?_, fun h => ?_⟩
  · obtain ⟨o, rfl⟩ := exists_romAddr_of_top h
    simp [decode_mrd, decode_mwr, decode_load]
  · obtain ⟨o, rfl⟩ := exists_vramAddr_of_top h
    simp [decode_mrd, decode_mwr, decode_load]
  · obtain ⟨o, rfl⟩ := exists_ramAddr_of_top h
    simp [decode_mrd, decode_mwr, decode_load]

theorem byClaim_claimed {α : Type} {p : Addr} (h : p.getLsbD 0 = false) (ula other : BitVec 15 → α) :
    byClaim p ula other = ula (p.extractLsb' 1 15) := by
  rw [byClaim, h, if_neg Bool.false_ne_true]

theorem byClaim_unclaimed {α : Type} {p : Addr} (h : p.getLsbD 0 = true) (ula other : BitVec 15 → α) :
    byClaim p ula other = other (p.extractLsb' 1 15) :=
  if_pos h

/-- Settles O5. -/
theorem portClaimedByBitZero : Obligations.PortClaimedByBitZero := by
  intro p v
  refine ⟨fun h => ?_, fun h => ?_⟩
  · simp [decode_iord, decode_iowr, byClaim_claimed h]
  · simp [decode_iord, decode_iowr, byClaim_unclaimed h]

/-- Settles O6. -/
theorem specSampleWordsDecode : Obligations.SpecSampleWordsDecode := by
  refine ⟨?_, ?_, ?_, ?_, ?_, ?_, ?_, ?_, ?_, ?_, ?_, ?_⟩ <;> decide

/-! ### The rows of the opcode table (R97) -/

/-- One transaction of each row, in the table's order. -/
def rowSamples : List Instr :=
  [.tick, .mrdRom 0, .mrdVram 0, .mrdRam 0, .mwrRom 0 0, .mwrVram 0 0, .mwrRam 0 0, .iordUla 0,
    .iordOther 0, .iowrUla 0 0, .iowrOther 0 0, .peek 0, .poke 0 0, .keydn 0, .keyup 0, .pwron, .pwroff,
    .loadRom 0 0, .loadMemVram 0 0, .loadMemRam 0 0, .setborder 0, .audlvl false 0, .audend]

theorem opcodeRows_eq : opcodeRows = rowSamples.map rowOf := rfl

/-- Every row is the row of some transaction. -/
theorem exists_rowOf_eq {r : OpcodeRow} (h : r ∈ opcodeRows) : ∃ i, rowOf i = r := by
  rw [opcodeRows_eq] at h
  obtain ⟨i, -, hi⟩ := List.mem_map.1 h
  exact ⟨i, hi⟩

theorem rowOf_mem (i : Instr) : rowOf i ∈ opcodeRows := by
  cases i <;> simp [rowOf, opcodeRows]

/-- Every word has the fixed bits of its transaction's row. -/
theorem has_encode (i : Instr) : (rowOf i).has (encode i) = true := by
  cases i with
  | tick => exact Laws.EncodesRow.tick
  | mrdRom o => exact Laws.EncodesRow.mrdRom o
  | mrdVram o => exact Laws.EncodesRow.mrdVram o
  | mrdRam o => exact Laws.EncodesRow.mrdRam o
  | mwrRom o v => exact Laws.EncodesRow.mwrRom o v
  | mwrVram o v => exact Laws.EncodesRow.mwrVram o v
  | mwrRam o v => exact Laws.EncodesRow.mwrRam o v
  | iordUla p => exact Laws.EncodesRow.iordUla p
  | iordOther p => exact Laws.EncodesRow.iordOther p
  | iowrUla p v => exact Laws.EncodesRow.iowrUla p v
  | iowrOther p v => exact Laws.EncodesRow.iowrOther p v
  | peek a => exact Laws.EncodesRow.peek a
  | poke a v => exact Laws.EncodesRow.poke a v
  | keydn k => exact Laws.EncodesRow.keydn k
  | keyup k => exact Laws.EncodesRow.keyup k
  | pwron => exact Laws.EncodesRow.pwron
  | pwroff => exact Laws.EncodesRow.pwroff
  | loadRom o v => exact Laws.EncodesRow.loadRom o v
  | loadMemVram o v => exact Laws.EncodesRow.loadMemVram o v
  | loadMemRam o v => exact Laws.EncodesRow.loadMemRam o v
  | setborder c => exact Laws.EncodesRow.setborder c
  | audlvl lvl ts => exact Laws.EncodesRow.audlvl lvl ts
  | audend => exact Laws.EncodesRow.audend

section
variable {r : OpcodeRow} {w : TransWord}

/-- A row's word has the row's value in every field that the row's mask fixes as a whole. -/
theorem extractLsb'_of_has (h : r.has w = true) (k n : Nat)
    (hm : r.mask.extractLsb' k n = BitVec.allOnes n) : w.extractLsb' k n = r.value.extractLsb' k n := by
  have hw : w &&& r.mask = r.value := of_decide_eq_true h
  rw [← hw, BitVec.extractLsb'_and, hm, BitVec.and_allOnes]

/-- A row that fixes every bit has its value as its only word. -/
theorem eq_value_of_has (h : r.has w = true) (hm : r.mask = BitVec.allOnes 32) : w = r.value := by
  have hw : w &&& r.mask = r.value := of_decide_eq_true h
  rw [← hw, hm, BitVec.and_allOnes]

theorem extractLsb'_dataOf {k n : Nat} (h : k + n ≤ 8) :
    (dataOf w).extractLsb' k n = w.extractLsb' k n :=
  BitVec.extractLsb'_extractLsb'_of_le h

/-- A key event's word decodes if the identifier in its `DATA` is below 40. -/
theorem exists_decodeKey (mk : BitVec 6 → Instr) (ha : addrOf w = 0#16)
    (hd : w.extractLsb' 6 2 = 0#2) (hlt : (dataOf w).toNat < 40) : ∃ j, decodeKey w mk = .ok j := by
  rw [← extractLsb'_dataOf (by decide)] at hd
  refine ⟨_, decodeKey_eq mk ha hd ?_⟩
  rw [BitVec.extractLsb'_toNat]
  exact (Nat.mod_le _ _).trans_lt hlt

/-- A word of a transaction's row decodes, for a key event if its identifier is below 40. -/
theorem exists_decode_of_has {i : Instr} (h : (rowOf i).has w = true)
    (hkey : kindOf w = 0x7#4 ∨ kindOf w = 0x8#4 → (dataOf w).toNat < 40) : ∃ j, decode w = .ok j := by
  cases i
  all_goals
    simp only [rowOf] at h
    have field := extractLsb'_of_has h
  case tick | pwron | pwroff | audend =>
    rw [eq_value_of_has h rfl]
    exact ⟨_, rfl⟩
  case mrdRom | mrdVram | mrdRam =>
    exact ⟨_, decode_mrd (field 28 4 rfl) (field 24 4 rfl) (field 0 8 rfl)⟩
  case mwrRom | mwrVram | mwrRam => exact ⟨_, decode_mwr (field 28 4 rfl) (field 24 4 rfl)⟩
  case iordUla | iordOther => exact ⟨_, decode_iord (field 28 4 rfl) (field 24 4 rfl) (field 0 8 rfl)⟩
  case iowrUla | iowrOther => exact ⟨_, decode_iowr (field 28 4 rfl) (field 24 4 rfl)⟩
  case peek => exact ⟨_, decode_peek (field 28 4 rfl) (field 24 4 rfl) (field 0 8 rfl)⟩
  case poke => exact ⟨_, decode_poke (field 28 4 rfl) (field 24 4 rfl)⟩
  case keydn =>
    have hk : kindOf w = 0x7#4 := field 28 4 rfl
    rw [decode_keydn hk (field 24 4 rfl)]
    exact exists_decodeKey _ (field 8 16 rfl) (field 6 2 rfl) (hkey (.inl hk))
  case keyup =>
    have hk : kindOf w = 0x8#4 := field 28 4 rfl
    rw [decode_keyup hk (field 24 4 rfl)]
    exact exists_decodeKey _ (field 8 16 rfl) (field 6 2 rfl) (hkey (.inr hk))
  case loadRom | loadMemVram | loadMemRam => exact ⟨_, decode_load (field 28 4 rfl) (field 24 4 rfl)⟩
  case setborder =>
    have hd : (dataOf w).extractLsb' 3 5 = 0#5 := (extractLsb'_dataOf (by decide)).trans (field 3 5 rfl)
    exact ⟨_, decode_setborder (field 28 4 rfl) (field 24 4 rfl) (field 8 16 rfl) hd⟩
  case audlvl => exact ⟨_, decode_audlvl (field 28 4 rfl) (field 25 3 rfl)⟩

end

/-- A well-formed key event's word has its identifier, below 40, as its `DATA`. -/
theorem dataOf_encode_lt {i : Instr} (hwf : i.wellFormed = true)
    (hk : kindOf (encode i) = 0x7#4 ∨ kindOf (encode i) = 0x8#4) : (dataOf (encode i)).toNat < 40 := by
  cases i with
  | keydn | keyup => simpa [encode] using hwf
  | audlvl => simp at hk
  | _ => simp [encode] at hk

/-- Settles O3: a decoded word is its transaction's and so in that one's row; a row's word has the fields
of a word that decodes. -/
theorem decoderAcceptsExactlyTheTable : Obligations.DecoderAcceptsExactlyTheTable := by
  intro w
  constructor
  · rintro ⟨i, h⟩
    obtain ⟨hwf, rfl⟩ := decodedWordEncodesBack w i h
    exact ⟨⟨rowOf i, rowOf_mem i, has_encode i⟩, dataOf_encode_lt hwf⟩
  · rintro ⟨⟨r, hr, hw⟩, hkey⟩
    obtain ⟨i, rfl⟩ := exists_rowOf_eq hr
    exact exists_decode_of_has hw hkey

end Sys2Proof

namespace Sys2Proof.Machine

variable {s t : State} {w : TransWord} {i : Instr}

/-! ### Illegal words (R88) -/

theorem step_of_fetch_illegal {e : DecodeError} (hf : s.fault = none) (hw : fetch s = some (w, t))
    (hd : decode w = .error e) : step s = .next (markBad w t) := by
  simp [step, hf, hw, runWord, hd, refuse]

/-- Settles O8: the word taken is refused in the state that taking it leaves. -/
theorem illegalWordRefusedWithoutEffect : Obligations.IllegalWordRefusedWithoutEffect := by
  intro s hf
  constructor
  · intro r rs e hg hp hd
    exact step_of_fetch_illegal hf (fetch_waiting hg hp) hd
  · intro w ws k e hg hd
    exact step_of_fetch_illegal hf (fetch_access hg) hd

/-! ### Issuers and their turns (R82) -/

/-- When an agent that issues words of its own may have one run. -/
def turnOfIssuer : Agent → State → Bool
  | .processor => processorTurn
  | .harness => audioTurn
  | .host | .controller => hostTurn

/-- The turn of a transaction is the turn of the agent that issues words of its `KIND`. -/
theorem turnOf_eq (i : Instr) : turnOf i = turnOfIssuer (kindIssuer (kindOf (encode i))) := by
  cases i with
  | audlvl => simp [turnOf, kindIssuer, turnOfIssuer]
  | _ => simp [turnOf, encode, kindIssuer, turnOfIssuer]

/-- Out of its issuer's turn a transaction is refused. -/
theorem exec_wrong_turn (hf : s.fault = none) (ht : turnOf i s ≠ true) :
    exec i s = .next (markBad (encode i) s) := by
  rw [exec_eq, transact_wrong_turn s hf (Bool.eq_false_iff.2 ht)]

/-- Of the transactions only TICK and the power events write the mark of a completed tick. -/
theorem Ran.ticked_eq (h : Ran s i t) (hf : t.fault = none) (htick : i ≠ .tick) (hon : i ≠ .pwron)
    (hoff : i ≠ .pwroff) : t.ticked = s.ticked := by
  cases h with
  | raised e _ h => simp [fault_of_raise h] at hf
  | stored a v stall =>
    obtain ⟨vram, ram, heq⟩ := busWrite_eq { s with stall := stall } a v
    rw [heq]
  | poweredOn => exact absurd rfl hon
  | poweredOff => exact absurd rfl hoff
  | ticked => exact absurd rfl htick
  | refused | answered | portWritten | borderSet | keyDown | keyUp | levelChanged | frameEnded => rfl

theorem exec_next_of_fault_none (h : exec i s = .next t) (hf : t.fault = none) :
    turnOf i s = true ∧ effect i s = .next t := by
  rcases exec_cases i s with ⟨e, -, heq⟩ | ⟨-, -, heq⟩ | ⟨-, ht, heq⟩ <;> rw [heq] at h
  · exact absurd h (stuck_ne_next t e)
  · cases h
    cases hf
  · exact ⟨ht, h⟩

/-- Settles O10: the turn is that of the issuer of the word's `KIND`, and the mark is read off the cases
of `Ran` and the effects of the power events. -/
theorem wrongIssuerOrTimeRefused : Obligations.WrongIssuerOrTimeRefused := by
  refine ⟨fun i s hf => ⟨?_, ?_, ?_⟩, fun s => ?_, fun i s t h hf => ⟨?_, ?_, ?_⟩⟩
  · intro hkind hturn
    have hissuer : kindIssuer (kindOf (encode i)) = .processor := by simp [kindIssuer, hkind]
    refine exec_wrong_turn hf fun ht => hturn ?_
    rw [turnOf_eq, hissuer] at ht
    exact (processorTurn_iff s).1 ht
  · intro hkind hturn
    have hissuer : kindIssuer (kindOf (encode i)) = .host := by
      unfold kindIssuer
      rw [if_neg (by omega), if_neg (by omega)]
    refine exec_wrong_turn hf fun ht => hturn ?_
    rw [turnOf_eq, hissuer] at ht
    exact (hostTurn_iff s).1 ht
  · intro hkind hturn
    have hissuer : kindIssuer (kindOf (encode i)) = .harness := by
      unfold kindIssuer
      rw [if_neg (by omega), if_pos hkind]
    refine exec_wrong_turn hf fun ht => hturn ?_
    rw [turnOf_eq, hissuer] at ht
    exact (audioTurn_iff s).1 ht
  · obtain ⟨_, _, _, _, _, _, _, _, _, heq⟩ := advance_eq s
    rw [heq]
  · rintro rfl
    obtain ⟨-, heff⟩ := exec_next_of_fault_none h hf
    cases heff
    rfl
  · rintro rfl hp
    obtain ⟨-, heff⟩ := exec_next_of_fault_none h hf
    cases heff
    simp [powerOff, hp]
  · exact (ran_of_exec h).ticked_eq hf

end Sys2Proof.Machine
end

section
/-!
PROOFS. The family of the bus (41_bus.md): the memory map, the accesses of the processor and of the host,
the port accesses and the power events, each as one equation; and the frame of memory, for every transaction.
-/

namespace Sys2Proof.Machine

variable {s t u : State}

/-! ### A transaction in its issuer's turn (R82) -/

theorem exec_of_hostReady {i : Instr} (h : HostReady s) (hi : turnOf i = hostTurn) :
    exec i s = effect i s := by
  obtain ⟨hf, hturn⟩ := h
  exact exec_turn hf (by rw [hi]; exact (hostTurn_iff s).2 hturn)

theorem exec_of_processorReady {i : Instr} (h : ProcessorReady s) (hi : turnOf i = processorTurn) :
    exec i s = effect i s := by
  obtain ⟨hf, hturn⟩ := h
  exact exec_turn hf (by rw [hi]; exact (processorTurn_iff s).2 hturn)

/-- Between ticks the processor has no turn. -/
theorem exec_processor_between {i : Instr} (hf : s.fault = none) (hg : s.grant = none)
    (hi : turnOf i = processorTurn) : exec i s = .next (markBad (encode i) s) :=
  exec_wrong_turn hf (by simp [hi, processorTurn_iff, hg])

/-! ### Contention by region (42_raster.md R144) -/

@[simp] theorem contend_romAddr (s : State) (o : BitVec 14) : contend (romAddr o) s = s := by
  simp [contend]

@[simp] theorem contend_ramAddr (s : State) (o : BitVec 15) : contend (ramAddr o) s = s := by
  simp [contend]

@[simp] theorem contend_vramAddr (s : State) (o : BitVec 14) : contend (vramAddr o) s =
    { s with stall := if s.fetching then s.stall + 6 else s.stall } := by
  simp [contend_eq, contentionCredits]

/-! ### The processor's accesses by region (R112 to R117) -/

theorem processorRead_romAddr (s : State) (o : BitVec 14) : processorRead (romAddr o) s =
    { s with procReplies := s.procReplies ++ [s.rom.read o.toNat] } := by
  simp [processorRead_eq]

theorem processorRead_vramAddr (s : State) (o : BitVec 14) : processorRead (vramAddr o) s =
    { s with
      stall := if s.fetching then s.stall + 6 else s.stall,
      procReplies := s.procReplies ++ [s.vram.read o.toNat] } := by
  simp [processorRead_eq]

theorem processorRead_ramAddr (s : State) (o : BitVec 15) : processorRead (ramAddr o) s =
    { s with procReplies := s.procReplies ++ [s.ram.read o.toNat] } := by
  simp [processorRead_eq]

theorem processorWrite_romAddr (s : State) (o : BitVec 14) (v : Byte) :
    processorWrite (romAddr o) v s = s := by
  simp [processorWrite_eq]

theorem processorWrite_vramAddr (s : State) (o : BitVec 14) (v : Byte) :
    processorWrite (vramAddr o) v s = { s with
      stall := if s.fetching then s.stall + 6 else s.stall,
      vram := s.vram.write o.toNat v } := by
  simp [processorWrite_eq]

theorem processorWrite_ramAddr (s : State) (o : BitVec 15) (v : Byte) :
    processorWrite (ramAddr o) v s = { s with ram := s.ram.write o.toNat v } := by
  simp [processorWrite_eq]

/-! ### Loads (R130, R131) -/

theorem whenPowered_on {a : Addr} {body : State → Result} (hp : s.powered = true) :
    whenPowered a s body = body s := by
  simp [whenPowered, hp]

theorem whenPowered_off {a : Addr} {body : State → Result} (hp : s.powered = false) :
    whenPowered a s body = raise (.loadNotPowered a) s := by
  simp [whenPowered, hp]

/-- A load that ends without fault was powered, so its body ran. -/
theorem body_of_whenPowered {a : Addr} {body : State → Result} (h : whenPowered a s body = .next t)
    (hf : t.fault = none) : body s = .next t := by
  cases hp : s.powered with
  | true => rwa [whenPowered_on hp] at h
  | false =>
    rw [whenPowered_off hp] at h
    simp [fault_of_raise h] at hf

theorem effect_loadRom (s : State) (o : BitVec 14) (v : Byte) : effect (.loadRom o v) s =
    raise (if s.powered then .loadRomOverwrite (romAddr o) else .loadNotPowered (romAddr o)) s := by
  cases hp : s.powered with
  | true => exact whenPowered_on hp
  | false => exact whenPowered_off hp

/-! ### The keyboard byte (43_ula_ports.md R185; 30_encoding.md R92, R93) -/

section
variable (pressed : List Nat) (sel : BitVec 8) (p : Addr) (e : Bool)

theorem getLsbD_keyBits {c : Nat} (hc : c < 5) :
    (keyBits pressed sel).getLsbD c = columnUp pressed sel c := by
  simp only [keyBits, BitVec.getLsbD_append]
  interval_cases c <;> simp

theorem getLsbD_keyboardByte_column {c : Nat} (hc : c < 5) :
    (keyboardByte pressed p e).getLsbD c = columnUp pressed (halfRowSelect p) c := by
  rw [keyboardByte, BitVec.getLsbD_append, if_pos hc, getLsbD_keyBits _ _ hc]

theorem getLsbD_keyboardByte_high :
    (keyboardByte pressed p e).getLsbD 7 = true ∧ (keyboardByte pressed p e).getLsbD 5 = true ∧
      (keyboardByte pressed p e).getLsbD 6 = e := by
  simp only [keyboardByte, BitVec.getLsbD_append]
  simp

theorem columnUp_eq_false_iff (c : Nat) : columnUp pressed sel c = false ↔
    ∃ r < 8, sel.getLsbD r = true ∧ 5 * r + c ∈ pressed := by
  simp [columnUp, keyAt]

/-- A half-row is selected by a 0 in its bit of the port address's high byte (R93). -/
theorem getLsbD_halfRowSelect {r : Nat} (hr : r < 8) :
    (halfRowSelect p).getLsbD r = !p.getLsbD (8 + r) := by
  simp [halfRowSelect, hr]

/-- A key bit is clear exactly when its column has a pressed key in a selected half-row (R92). -/
theorem keyboardByte_column_clear_iff {c : Nat} (hc : c < 5) :
    (keyboardByte pressed p e).getLsbD c = false ↔
      ∃ r < 8, p.getLsbD (8 + r) = false ∧ 5 * r + c ∈ pressed := by
  rw [getLsbD_keyboardByte_column _ _ _ hc, columnUp_eq_false_iff]
  refine exists_congr fun r => and_congr_right fun hr => ?_
  rw [getLsbD_halfRowSelect p hr, Bool.not_eq_true']

end

/-! ### Power events (R133 to R135) -/

theorem powerOff_powered (hp : s.powered = true) : powerOff s = { s with
    powered := false, ticked := false,
    powerLog := s.powerLog ++
      ([.processorOff, .controllerStop] ++ s.cfg.expansions.reverse.map .expansionOff) } := by
  simp [powerOff, hp, notify]

theorem powerOff_unpowered (hp : s.powered = false) : powerOff s = s := by
  simp [powerOff, hp]

theorem powerLog_powerOn (s : State) : (powerOn s).powerLog =
    s.powerLog ++ s.cfg.expansions.map .expansionOn ++ [.controllerReset, .processorOn] := by
  simp [powerOn, controllerPowerOn]

/-! ### The frame of memory -/

/-- The three regions are unchanged. -/
structure SameMemory (s t : State) : Prop where
  rom : t.rom = s.rom
  vram : t.vram = s.vram
  ram : t.ram = s.ram

theorem SameMemory.trans (h₁ : SameMemory s t) (h₂ : SameMemory t u) : SameMemory s u :=
  ⟨h₂.rom.trans h₁.rom, h₂.vram.trans h₁.vram, h₂.ram.trans h₁.ram⟩

/-- The bus reads the three regions and nothing else. -/
theorem SameMemory.busRead_eq (h : SameMemory s t) (a : Addr) : busRead t a = busRead s a := by
  rw [busRead_of_toNat, busRead_of_toNat, h.rom, h.vram, h.ram]

theorem sameMemory_processorRead (s : State) (a : Addr) : SameMemory s (processorRead a s) := by
  rw [processorRead_eq]
  exact ⟨rfl, rfl, rfl⟩

theorem sameMemory_powerOff (s : State) : SameMemory s (powerOff s) := by
  obtain ⟨log, tk, heq⟩ := powerOff_eq s
  rw [heq]
  exact ⟨rfl, rfl, rfl⟩

theorem sameMemory_video (s : State) : SameMemory s (video s) := by
  obtain ⟨px, bl, bm, la, heq⟩ := video_eq s
  rw [heq]
  exact ⟨rfl, rfl, rfl⟩

theorem sameMemory_processorUnit (s : State) : SameMemory s (processorUnit s) := by
  rcases processorUnit_cases s with heq | ⟨-, heq⟩ | ⟨-, -, heq⟩ <;> rw [heq] <;> exact ⟨rfl, rfl, rfl⟩

theorem sameMemory_advance (s : State) : SameMemory s (advance s) := by
  obtain ⟨_, _, _, _, _, _, _, _, _, heq⟩ := advance_eq s
  rw [heq]
  exact ⟨rfl, rfl, rfl⟩

theorem sameMemory_closeCycle (h : closeCycle s = .next t) : SameMemory s t := by
  rcases closeCycle_next_cases h with rfl | rfl | ⟨k, -, rfl⟩
  · exact ⟨rfl, rfl, rfl⟩
  · have hover : SameMemory s { s with grant := none } := ⟨rfl, rfl, rfl⟩
    exact hover.trans (sameMemory_advance _)
  · exact ⟨rfl, rfl, rfl⟩

theorem sameMemory_poweredTick (h : poweredTick s = .next t) : SameMemory s t := by
  have hunit := (sameMemory_video s).trans (sameMemory_processorUnit _)
  rcases unitAndAdvance_next_cases h with ⟨-, rfl⟩ | hclose
  · exact hunit.trans (sameMemory_advance _)
  · exact hunit.trans (sameMemory_closeCycle hclose)

/-- A transaction that stores nothing leaves the three regions. -/
theorem sameMemory_of_storeOf_none {i : Instr} (hi : storeOf i = none) (h : effect i s = .next t)
    (hf : t.fault = none) : SameMemory s t := by
  cases i with
  | mwrVram | mwrRam | loadMemVram | loadMemRam => cases hi
  | mrdRom | mrdVram | mrdRam =>
    cases h
    exact sameMemory_processorRead s _
  | mwrRom o v =>
    rw [effect, processorWrite_romAddr] at h
    cases h
    exact ⟨rfl, rfl, rfl⟩
  | poke a v =>
    have hrom : a.toNat < 0x4000 := by simpa [storeOf] using hi
    simp only [effect, busWrite_of_toNat, if_pos hrom] at h
    cases h
    exact ⟨rfl, rfl, rfl⟩
  | tick =>
    simp only [effect] at h
    split at h
    · exact sameMemory_poweredTick h
    · cases h
      exact ⟨rfl, rfl, rfl⟩
  | iowrUla p v =>
    rcases ulaWrite_cases s v with ⟨e, -, heq⟩ | ⟨-, -, heq⟩ <;> simp only [effect, heq] at h
    · simp [fault_of_raise h] at hf
    · cases h
      exact ⟨rfl, rfl, rfl⟩
  | audlvl lvl ts =>
    simp only [effect, audioLevelChange] at h
    split at h
    · simp [fault_of_raise h] at hf
    · cases h
      exact ⟨rfl, rfl, rfl⟩
  | loadRom o v =>
    rw [effect_loadRom] at h
    simp [fault_of_raise h] at hf
  | keydn | keyup =>
    simp only [effect] at h
    split at h <;> cases h <;> exact ⟨rfl, rfl, rfl⟩
  | pwroff =>
    cases h
    exact sameMemory_powerOff s
  | iordUla | iordOther | iowrOther | peek | pwron | setborder | audend =>
    cases h
    exact ⟨rfl, rfl, rfl⟩

/-- A transaction that stores a byte is one bus write to VRAM or RAM, but for its contention. -/
theorem busWrite_of_storeOf {i : Instr} {a : Addr} {v : Byte} (hi : storeOf i = some (a, v))
    (h : effect i s = .next t) (hf : t.fault = none) :
    0x4000 ≤ a.toNat ∧ ∃ stall, t = busWrite { s with stall := stall } a v := by
  cases i with
  | mwrVram o w =>
    cases hi
    cases h
    exact ⟨by rw [toNat_vramAddr]; omega, _, processorWrite_eq ..⟩
  | mwrRam o w =>
    cases hi
    cases h
    exact ⟨by rw [toNat_ramAddr]; omega, _, processorWrite_eq ..⟩
  | poke b w =>
    simp only [storeOf] at hi
    split at hi <;> cases hi
    cases h
    exact ⟨‹_›, s.stall, rfl⟩
  | loadMemVram o w =>
    cases hi
    rw [effect] at h
    cases body_of_whenPowered h hf
    exact ⟨by rw [toNat_vramAddr]; omega, s.stall, rfl⟩
  | loadMemRam o w =>
    cases hi
    rw [effect] at h
    cases body_of_whenPowered h hf
    exact ⟨by rw [toNat_ramAddr]; omega, s.stall, rfl⟩
  | _ => cases hi

/-- The byte stored reads back at its address, and every other address reads as before. -/
theorem busRead_of_storeOf {i : Instr} {a : Addr} {v : Byte} (hi : storeOf i = some (a, v))
    (h : effect i s = .next t) (hf : t.fault = none) (b : Addr) :
    busRead t b = if b = a then v else busRead s b := by
  obtain ⟨ha, stall, rfl⟩ := busWrite_of_storeOf hi h hf
  have hstall : SameMemory s { s with stall := stall } := ⟨rfl, rfl, rfl⟩
  simp only [busRead_busWrite, ha, and_true, hstall.busRead_eq]

/-! ### The obligations -/

/-- Settles O14, by the equations of the map and of the bus over an address's value. -/
theorem memoryMapOfThreeFixedRanges : Obligations.MemoryMapOfThreeFixedRanges := by
  intro s a v
  rw [mapAddr_of_toNat, busRead_of_toNat, busWrite_of_toNat]
  refine ⟨fun hrom => ?_, fun hlo hhi => ?_, fun hram => ?_⟩
  · simp [hrom]
  · simp [hhi, Nat.not_lt.2 hlo]
  · simp [Nat.not_lt.2 hram, show ¬ a.toNat < 0x4000 by omega]

/-- Settles O15: the answer is the bus read of the address. -/
theorem peekReturnsTheByte : Obligations.PeekReturnsTheByte := by
  intro s a h
  rw [exec_of_hostReady h rfl, ← busRead_of_toNat]
  rfl

/-- Settles O16: the poke is a bus write, and the peek after it reads what that write left. -/
theorem pokeThenPeekReturnsThePokedByte : Obligations.PokeThenPeekReturnsThePokedByte := by
  intro s a v h
  refine ⟨busWrite s a v, exec_of_hostReady h rfl, busWrite_of_toNat s a v, ?_⟩
  obtain ⟨vram, ram, heq⟩ := busWrite_eq s a v
  have hready : HostReady (busWrite s a v) := by rw [heq]; exact h
  have hreplies : (busWrite s a v).hostReplies = s.hostReplies := by rw [heq]
  have hbyte : busRead (busWrite s a v) a = if a.toNat < 0x4000 then s.rom.read a.toNat else v := by
    rw [busRead_busWrite, busRead_of_toNat]
    by_cases hrom : a.toNat < 0x4000
    · simp [hrom, Nat.not_le.2 hrom]
    · simp [hrom, Nat.not_lt.1 hrom]
  rw [exec_of_hostReady hready rfl, ← hbyte, ← hreplies]
  rfl

/-- Settles O17: a transaction that stores is one bus write, and every other one leaves memory. -/
theorem storesChangeOnlyTheirByte : Obligations.StoresChangeOnlyTheirByte := by
  intro i s t hexec hf
  obtain ⟨-, h⟩ := exec_next_of_fault_none hexec hf
  constructor
  · intro a v hi
    rw [busRead_of_storeOf hi h hf, if_pos rfl]
  · intro b hb
    cases hi : storeOf i with
    | none => exact (sameMemory_of_storeOf_none hi h hf).busRead_eq b
    | some store =>
      obtain ⟨a, v⟩ := store
      have hne : b ≠ a := by
        rintro rfl
        exact hb v hi
      rw [busRead_of_storeOf hi h hf, if_neg hne]

/-- Settles O21: the byte is the keyboard byte of the pressed keys and the draw. -/
theorem claimedPortReadReturnsKeyboard : Obligations.ClaimedPortReadReturnsKeyboard := by
  intro s p h
  obtain ⟨h7, h5, h6⟩ := getLsbD_keyboardByte_high s.pressed (ulaPort p) (Config.earIn s.draws)
  exact ⟨keyboardByte s.pressed (ulaPort p) (Config.earIn s.draws), exec_of_processorReady h rfl,
    h7, h5, h6, fun c hc => keyboardByte_column_clear_iff _ _ _ hc⟩

/-- Settles O11: the reads by region, and the refusal of a processor's word between ticks. -/
theorem processorReadsReturnByteAndContend : Obligations.ProcessorReadsReturnByteAndContend := by
  intro s
  constructor
  · refine fun h => ⟨fun o => ?_, fun o => ?_, fun o => ?_⟩
    · rw [exec_of_processorReady h rfl, effect, processorRead_romAddr]
    · rw [exec_of_processorReady h rfl, effect, processorRead_vramAddr]
    · rw [exec_of_processorReady h rfl, effect, processorRead_ramAddr]
  · intro hf hg
    exact ⟨fun _ => exec_processor_between hf hg rfl, fun _ => exec_processor_between hf hg rfl,
      fun _ => exec_processor_between hf hg rfl⟩

/-- Settles O12, by the writes by region. -/
theorem processorWritesStoreByteAndContend : Obligations.ProcessorWritesStoreByteAndContend := by
  refine fun s h => ⟨fun o v => ?_, fun o v => ?_, fun o v => ?_⟩
  · rw [exec_of_processorReady h rfl, effect, processorWrite_romAddr]
  · rw [exec_of_processorReady h rfl, effect, processorWrite_vramAddr]
  · rw [exec_of_processorReady h rfl, effect, processorWrite_ramAddr]

/-- Settles O19: the power check decides between the bus write and the fault. -/
theorem loadMemWritesWhenPowered : Obligations.LoadMemWritesWhenPowered := by
  refine fun s h => ⟨fun hp => ⟨fun o v => ?_, fun o v => ?_⟩, fun hp => ⟨fun o v => ?_, fun o v => ?_⟩⟩
  · rw [exec_of_hostReady h rfl, effect, whenPowered_on hp, busWrite_vramAddr]
  · rw [exec_of_hostReady h rfl, effect, whenPowered_on hp, busWrite_ramAddr]
  · rw [exec_of_hostReady h rfl, effect, whenPowered_off hp]
    exact ⟨_, rfl, rfl⟩
  · rw [exec_of_hostReady h rfl, effect, whenPowered_off hp]
    exact ⟨_, rfl, rfl⟩

/-- Settles O20: a load to ROM is a fault entry on both paths, and `raise_spec` says what that keeps. -/
theorem loadRomTakesTheFault : Obligations.LoadRomTakesTheFault := by
  intro s o v h
  rw [exec_of_hostReady h rfl, effect_loadRom]
  obtain ⟨t, es, heq, hfault, -, hrom, hout, -⟩ := raise_spec s
    (if s.powered then .loadRomOverwrite (romAddr o) else .loadNotPowered (romAddr o))
  exact ⟨t, heq, hfault, hrom, es, hout⟩

/-- Settles O23: the answer by what `EXP_READ` is, which is none without an expansion. -/
theorem unclaimedPortReadReturnsExpansionOrDefault :
    Obligations.UnclaimedPortReadReturnsExpansionOrDefault := by
  refine fun s p h => ⟨?_, fun hnone => ?_⟩
  · rw [exec_of_processorReady h rfl]
    cases hread : s.cfg.expRead (otherPort p) <;>
      simp [effect, answerProc, otherPortByte, unclaimedValue, hread]
  · simp [Config.expRead, hnone]

/-- Settles O25: the effect of the transaction is the state as it was. -/
theorem unclaimedPortWriteChangesNothing : Obligations.UnclaimedPortWriteChangesNothing :=
  fun _ _ _ h => exec_of_processorReady h rfl

/-- Settles O31, by the two cases of power-off. -/
theorem powerOffKeepsTheRest : Obligations.PowerOffKeepsTheRest := by
  refine fun s h => ⟨fun hp => ?_, fun hp => ?_⟩
  · rw [exec_of_hostReady h rfl, effect, powerOff_powered hp]
    exact ⟨_, _, rfl⟩
  · rw [exec_of_hostReady h rfl, effect, powerOff_unpowered hp]

/-- Settles O32: the record after each power event, power-off by its two cases. -/
theorem powerNotificationsInOrder : Obligations.PowerNotificationsInOrder := by
  intro s h
  refine ⟨⟨powerOn s, exec_of_hostReady h rfl, powerLog_powerOn s⟩,
    powerOff s, exec_of_hostReady h rfl, ?_⟩
  cases hp : s.powered with
  | true => simp [powerOff_powered hp]
  | false => simp [powerOff_unpowered hp]

end Sys2Proof.Machine
end

section
/-!
PROOFS. The family of the raster (42_raster.md): the screen layout and the pixel of a cell; the positions of
a frame; what the five steps of a powered tick write, each said once; and who writes the contention credits
and the record of grants.
-/

namespace Sys2Proof.Machine

variable {s t : State}

/-! ### The pixel of a cell (R152) -/

/-- A cell's pixel is paper exactly where its bitmap bit is the swap of ink and paper. -/
theorem cellPixel_eq (bitmap attr : Byte) (flash : Bool) (i : Nat) : cellPixel bitmap attr flash i =
    paletteIndex (brightField attr)
      (if pixelBit bitmap i = (flashField attr && flash) then paperField attr else inkField attr) := by
  unfold cellPixel
  generalize (flashField attr && flash) = swap
  cases swap <;> cases pixelBit bitmap i <;> rfl

theorem pixelBit_not (bitmap : Byte) {i : Nat} (hi : i < 8) :
    pixelBit (~~~bitmap) i = !pixelBit bitmap i := by
  have hbit : 7 - i < 8 := by omega
  simp [pixelBit, hbit]

/-- The palette index carries `bright` in bit 3 (30_encoding.md R96). -/
theorem getLsbD_paletteIndex (bright : Bool) (colour : BitVec 3) :
    (paletteIndex bright colour).getLsbD 3 = bright := by
  simp only [paletteIndex, BitVec.getLsbD_append]
  simp

/-- Settles O52: by `cellPixel_eq` the flag only moves the bitmap bit at which the cell shows paper. -/
theorem flashSwapsInkAndPaperOnly : Obligations.FlashSwapsInkAndPaperOnly := by
  intro bitmap attr i hi
  refine ⟨fun hfl => ?_, fun hfl => ?_, fun flash => ?_⟩
  · have hflash : flashField attr = true := hfl
    rw [cellPixel_eq, cellPixel_eq, pixelBit_not bitmap hi, hflash]
    cases pixelBit bitmap i <;> rfl
  · have hsteady : flashField attr = false := hfl
    rw [cellPixel_eq, cellPixel_eq, hsteady, Bool.false_and, Bool.false_and]
  · rw [cellPixel_eq, getLsbD_paletteIndex]
    rfl

/-! ### The screen layout (R151) -/

section
variable {p : Config} {bitmap attr : List (BitVec 14)} (y b : Nat)

theorem bitmapAddr_reference (h : p.layout = .reference) :
    p.bitmapAddr y b = 0x4000 + y / 64 % 4 * 2048 + y % 8 * 256 + y / 8 % 8 * 32 + b := by
  simp [Config.bitmapAddr, h]

theorem attrAddr_reference (h : p.layout = .reference) : p.attrAddr y b = 0x5800 + y / 8 * 32 + b := by
  simp [Config.attrAddr, h]

theorem bitmapAddr_tables (h : p.layout = .tables bitmap attr) :
    p.bitmapAddr y b = 0x4000 + (bitmap.getD (y * 32 + b) 0#14).toNat := by
  simp [Config.bitmapAddr, h]

theorem attrAddr_tables (h : p.layout = .tables bitmap attr) :
    p.attrAddr y b = 0x4000 + (attr.getD (y / 8 * 32 + b) 0#14).toNat := by
  simp [Config.attrAddr, h]

/-- `ATTR_ADDR` depends on the row only through the row of cells. -/
theorem attrAddr_congr {y y' : Nat} (h : y / 8 = y' / 8) : p.attrAddr y b = p.attrAddr y' b := by
  simp [Config.attrAddr, h]

/-- Every address of an active row lies in the VRAM: the reference layout by the bound on the active height
(00_scope.md R10), a table because its entries are offsets into it. -/
theorem layoutAddr_mem_vram {y b : Nat} (hp : p.valid = true) (hy : y < p.activeHeight) (hb : b < 32) :
    (0x4000 ≤ p.bitmapAddr y b ∧ p.bitmapAddr y b ≤ 0x7FFF) ∧
      (0x4000 ≤ p.attrAddr y b ∧ p.attrAddr y b ≤ 0x7FFF) := by
  cases hl : p.layout with
  | reference =>
    have hfits : p.activeHeight ≤ 192 := by
      simpa [Config.meets, hl] using meets_of_valid hp .activeHeightFitsLayout
    rw [bitmapAddr_reference y b hl, attrAddr_reference y b hl]
    omega
  | tables bitmap attr =>
    have hbitmap := (bitmap.getD (y * 32 + b) 0#14).isLt
    have hattr := (attr.getD (y / 8 * 32 + b) 0#14).isLt
    rw [bitmapAddr_tables y b hl, attrAddr_tables y b hl]
    omega

end

/-- Settles O41: the formulas by what shifting and masking the row's bits is, the tables by their entries. -/
theorem screenLayoutAddresses : Obligations.ScreenLayoutAddresses := by
  intro p y b
  simp only [Nat.shiftRight_eq_div_pow, Nat.shiftLeft_eq]
  refine ⟨fun hl => ?_, fun bitmap attr hl => ⟨fun o ho => ?_, fun o ho => ?_⟩, fun hp hy hb => ?_,
    fun y' hy => attrAddr_congr b hy⟩
  · have hand3 (n : Nat) : n &&& 3 = n % 4 := Nat.and_two_pow_sub_one_eq_mod n 2
    have hand7 (n : Nat) : n &&& 7 = n % 8 := Nat.and_two_pow_sub_one_eq_mod n 3
    rw [bitmapAddr_reference y b hl, attrAddr_reference y b hl, hand3, hand7, hand7]
    exact ⟨rfl, rfl⟩
  · simp [bitmapAddr_tables y b hl, ho]
  · simp [attrAddr_tables y b hl, ho]
  · obtain ⟨⟨hlo, hhi⟩, hlo', hhi'⟩ := layoutAddr_mem_vram hp hy hb
    exact ⟨hlo, hhi, hlo', hhi'⟩

/-! ### The positions of a frame (R142, R143, R146, R160) -/

section
variable {p : Config}

theorem position_div_mod (p : Config) (P : Nat) : p.position (P / p.hTotal) (P % p.hTotal) = P :=
  Nat.div_add_mod' P p.hTotal

theorem inPulse_iff (p : Config) (v c : Nat) : p.inPulse v c = true ↔
    p.vs0 * p.hTotal ≤ p.position v c ∧ p.position v c < p.vs0 * p.hTotal + p.intPulseTicks := by
  simp [Config.inPulse]

theorem position_div {v c : Nat} (hc : c < p.hTotal) : p.position v c / p.hTotal = v := by
  rw [Config.position, Nat.add_comm, Nat.add_mul_div_right _ _ (by omega), Nat.div_eq_of_lt hc,
    Nat.zero_add]

theorem position_mod {v c : Nat} (hc : c < p.hTotal) : p.position v c % p.hTotal = c := by
  rw [Config.position, Nat.mul_add_mod_of_lt hc]

theorem position_lt_frameTicks {v c : Nat} (hc : c < p.hTotal) (hv : v < p.vTotal) :
    p.position v c < p.frameTicks :=
  calc v * p.hTotal + c < (v + 1) * p.hTotal := by rw [Nat.succ_mul]; omega
    _ ≤ p.vTotal * p.hTotal := Nat.mul_le_mul_right _ hv
    _ = p.hTotal * p.vTotal := Nat.mul_comm _ _

theorem hTotal_even (h : p.valid = true) : p.hTotal % 2 = 0 :=
  of_decide_eq_true (meets_of_valid h .hTotalEven)

theorem frameTicks_eq_two_mul (h : p.valid = true) : p.frameTicks = 2 * p.frameCycles := by
  have heven : p.frameTicks % 2 = 0 := by simp [Config.frameTicks, Nat.mul_mod, hTotal_even h]
  unfold Config.frameCycles
  omega

/-- Of the numbers below `a + k + m`, the run of `k` from `a` on. -/
theorem filter_range_run (a k m : Nat) :
    (List.range (a + k + m)).filter (fun n => a ≤ n && n < a + k) = (List.range k).map (a + ·) := by
  rw [List.range_add, List.range_add, List.filter_append, List.filter_append,
    List.filter_eq_nil_iff.2 (by simp; omega), List.filter_eq_self.2 (by simp),
    List.filter_eq_nil_iff.2 (by simp), List.nil_append, List.append_nil]

/-- Of the numbers below `2 * n`, the even ones. -/
theorem filter_range_even (n : Nat) :
    (List.range (2 * n)).filter (fun k => k % 2 = 0) = (List.range n).map (2 * ·) := by
  induction n with
  | zero => rfl
  | succ n ih =>
    rw [Nat.mul_succ, List.range_succ, List.range_succ, List.range_succ, List.filter_append,
      List.filter_append, ih]
    simp [Nat.add_mod]


/-! ### The rows a frame renders (R143) -/

/-- A row and the lines that render it: the top border's rows are the frame's last lines. -/
theorem row_eq_some_iff {v y : Nat} (hv : v < p.vTotal) : p.row v = some y ↔
    y < p.rasterHeight ∧ v = if y < p.topBorder then p.tb0 + y else y - p.topBorder := by
  have hH : p.rasterHeight = p.topBorder + p.activeHeight + p.bottomBorder := rfl
  have hS : p.vs0 = p.activeHeight + p.bottomBorder := rfl
  have hB : p.tb0 = p.vs0 + p.vsyncLines := rfl
  have hT : p.vTotal = p.tb0 + p.topBorder := rfl
  unfold Config.row Config.vSegment
  split_ifs <;> simp only [Option.some.injEq, false_iff] <;> omega

/-- Every row is rendered by a line of the frame. -/
theorem exists_row_eq {y : Nat} (hy : y < p.rasterHeight) : ∃ v < p.vTotal, p.row v = some y := by
  have hv : (if y < p.topBorder then p.tb0 + y else y - p.topBorder) < p.vTotal := by
    simp only [Config.rasterHeight] at hy
    simp only [Config.vTotal, Config.tb0, Config.vs0]
    split <;> omega
  exact ⟨_, hv, (row_eq_some_iff hv).2 ⟨hy, rfl⟩⟩

/-- A row is rendered by one line only. -/
theorem row_inj {v v' y : Nat} (hv : v < p.vTotal) (hv' : v' < p.vTotal) (h : p.row v = some y)
    (h' : p.row v' = some y) : v = v' :=
  ((row_eq_some_iff hv).1 h).2.trans ((row_eq_some_iff hv').1 h').2.symm

end

/-- Settles O49: a position's pulse is a run of `INT_PULSE_TICKS`, which vertical sync holds. -/
theorem oneInterruptPulsePerFrame : Obligations.OneInterruptPulsePerFrame := by
  intro p hp
  have hfits : p.intPulseTicks ≤ p.vsyncLines * p.hTotal :=
    of_decide_eq_true (meets_of_valid hp .pulseFitsVsync)
  have hframe : p.frameTicks = p.vs0 * p.hTotal + p.vsyncLines * p.hTotal + p.topBorder * p.hTotal := by
    rw [Config.frameTicks, Nat.mul_comm, Config.vTotal, Config.tb0, Nat.add_mul, Nat.add_mul]
  obtain ⟨m, hm⟩ : ∃ m, p.frameTicks = p.vs0 * p.hTotal + p.intPulseTicks + m :=
    Nat.exists_eq_add_of_le (by omega)
  simp only [Config.inPulse, position_div_mod]
  rw [hm, filter_range_run]

/-- Settles O50: the parity of a position is that of its C, because a line has an even number of ticks. -/
theorem processorUnitsCountTheFrame : Obligations.ProcessorUnitsCountTheFrame := by
  intro s hp ⟨hC, hV⟩
  have hdvd : 2 ∣ s.cfg.hTotal := Nat.dvd_of_mod_eq_zero (hTotal_even hp)
  have hlt := position_lt_frameTicks hC hV
  rw [frameTicks_eq_two_mul hp] at hlt
  refine ⟨?_, fun hunit => ?_, ?_⟩
  · simp only [Config.processorUnit, Nat.mod_mod_of_dvd _ hdvd]
    rw [frameTicks_eq_two_mul hp, filter_range_even]
  · have hC2 : s.C % 2 = 0 := of_decide_eq_true hunit
    have heven : s.cfg.position s.V s.C % 2 = 0 := by
      rw [← Nat.mod_mod_of_dvd _ hdvd, position_mod hC, hC2]
    unfold frameCycle
    omega
  · unfold frameCycle
    omega

/-- Settles O51: an entry is its row and column, a row has one line, and a position is its line and
column. -/
theorem everyPixelRenderedOncePerFrame : Obligations.EveryPixelRenderedOncePerFrame := by
  intro p hp k hk
  have hline : p.rasterWidth ≤ p.hTotal := of_decide_eq_true (meets_of_valid hp .lineHoldsRaster)
  have hwidth : 0 < p.rasterWidth := Nat.pos_of_mul_pos_right (Nat.zero_lt_of_lt hk)
  have hcol : k % p.rasterWidth < p.rasterWidth := Nat.mod_lt _ hwidth
  obtain ⟨v, hv, hrow⟩ := exists_row_eq (Nat.div_lt_of_lt_mul hk)
  have hc : k % p.rasterWidth < p.hTotal := hcol.trans_le hline
  refine ⟨p.position v (k % p.rasterWidth), ⟨position_lt_frameTicks hc hv, ?_, ?_⟩, ?_⟩
  · rw [position_div hc, position_mod hc, visible_iff, hrow]
    exact ⟨rfl, hcol⟩
  · rw [position_div hc, position_mod hc]
    exact ⟨_, hrow, Nat.div_add_mod' k p.rasterWidth⟩
  · rintro P ⟨hP, hvis, y, hy, rfl⟩
    obtain ⟨-, hx⟩ := (visible_iff _ _ _).1 hvis
    have hPv : P / p.hTotal < p.vTotal := Nat.div_lt_of_lt_mul hP
    rw [Nat.add_comm, Nat.add_mul_div_right _ _ hwidth, Nat.div_eq_of_lt hx, Nat.zero_add] at hrow
    rw [Nat.mul_add_mod_of_lt hx, row_inj hv hPv hrow hy, position_div_mod]

/-! ### Step 5 (R155 to R158) -/

/-- The counters after step 5. -/
theorem advance_counters (s : State) :
    (advance s).C = (if s.C + 1 = s.cfg.hTotal then 0 else s.C + 1) ∧
    (advance s).V =
      if s.C + 1 = s.cfg.hTotal then (if s.V + 1 = s.cfg.vTotal then 0 else s.V + 1) else s.V := by
  by_cases hC : s.C + 1 = s.cfg.hTotal
  · by_cases hV : s.V + 1 = s.cfg.vTotal
    · rw [advance_frame_end s hC hV, endFrame_eq, countFrame_eq]
      simp [hC, hV]
    · rw [advance_line_end s hC hV]
      simp [hC, hV]
  · rw [advance_in_line s hC]
    simp [hC]

theorem rasterOk_advance (h : RasterOk s) : RasterOk (advance s) := by
  obtain ⟨hC, hV⟩ := h
  obtain ⟨hC', hV'⟩ := advance_counters s
  rw [RasterOk, hC', hV', (tickKeeps_advance s).cfg]
  constructor
  · split <;> omega
  · split_ifs <;> omega

/-- The linear position goes up by one, modulo the frame (10_state.md R45). -/
theorem position_advance (h : RasterOk s) :
    s.cfg.position (advance s).V (advance s).C = (s.cfg.position s.V s.C + 1) % s.cfg.frameTicks := by
  obtain ⟨hC, hV⟩ := h
  obtain ⟨hC', hV'⟩ := advance_counters s
  obtain ⟨hlt, hlt'⟩ := rasterOk_advance ⟨hC, hV⟩
  rw [(tickKeeps_advance s).cfg] at hlt hlt'
  by_cases hend : s.C + 1 = s.cfg.hTotal ∧ s.V + 1 = s.cfg.vTotal
  · obtain ⟨hline, hframe⟩ := hend
    have hlast : s.cfg.position s.V s.C + 1 = s.cfg.frameTicks := by
      rw [Config.position, Nat.add_assoc, hline, ← Nat.succ_mul, Nat.succ_eq_add_one, hframe,
        Nat.mul_comm, Config.frameTicks]
    rw [hlast, Nat.mod_self, hC', hV', if_pos hline, if_pos hline, if_pos hframe, Config.position,
      Nat.zero_mul]
  · have hsucc : s.cfg.position (advance s).V (advance s).C = s.cfg.position s.V s.C + 1 := by
      by_cases hline : s.C + 1 = s.cfg.hTotal
      · have hframe : s.V + 1 ≠ s.cfg.vTotal := fun hframe => hend ⟨hline, hframe⟩
        rw [hC', hV', if_pos hline, if_pos hline, if_neg hframe, Config.position, Config.position,
          Nat.succ_mul]
        omega
      · rw [hC', hV', if_neg hline, if_neg hline]
        rfl
    rw [← hsucc, Nat.mod_eq_of_lt (position_lt_frameTicks hlt hlt')]

/-- Away from the frame's end step 5 writes the counters and the two marks. -/
theorem advance_not_frame_end (h : ¬ (s.C + 1 = s.cfg.hTotal ∧ s.V + 1 = s.cfg.vTotal)) :
    ∃ c v, advance s = { s with C := c, V := v, frameEnded := false, ticked := true } := by
  by_cases hC : s.C + 1 = s.cfg.hTotal
  · exact ⟨_, _, advance_line_end s hC fun hV => h ⟨hC, hV⟩⟩
  · exact ⟨_, _, advance_in_line s hC⟩

/-! ### What the steps of a powered tick write (R140) -/

/-- `video_eq` in the shape of the frames below: the fields written name themselves. -/
theorem video_frame (s : State) : video s = { s with
    pixbuf := (video s).pixbuf, borderLatch := (video s).borderLatch,
    bitmapLatch := (video s).bitmapLatch, attrLatch := (video s).attrLatch,
    fetching := s.cfg.fetchWindow s.V s.C, intLine := s.cfg.inPulse s.V s.C } := by
  obtain ⟨px, bl, bm, la, heq⟩ := video_eq s
  rw [heq]

@[simp] theorem video_cfg (s : State) : (video s).cfg = s.cfg := by rw [video_frame]
@[simp] theorem video_C (s : State) : (video s).C = s.C := by rw [video_frame]
@[simp] theorem video_stall (s : State) : (video s).stall = s.stall := by rw [video_frame]
@[simp] theorem video_fault (s : State) : (video s).fault = s.fault := by rw [video_frame]
@[simp] theorem video_proc (s : State) : (video s).proc = s.proc := by rw [video_frame]
@[simp] theorem video_grant (s : State) : (video s).grant = s.grant := by rw [video_frame]
@[simp] theorem video_grants (s : State) : (video s).grants = s.grants := by rw [video_frame]

/-- `t` is `s` but for what step 5, the end of a granted cycle and its refusal write. -/
abbrev StepFiveFrame (s t : State) : Prop :=
  t = { s with
    C := t.C, V := t.V, F := t.F, flash := t.flash, out := t.out, audBuf := t.audBuf,
    audCursor := t.audCursor, audLastTs := t.audLastTs, frameEnded := t.frameEnded, ticked := t.ticked,
    grant := t.grant, fault := t.fault }

/-- `t` is `s` but for what the processor-rate unit and step 5 write. -/
abbrev UnitFrame (s t : State) : Prop :=
  StepFiveFrame { s with stall := t.stall, proc := t.proc, grants := t.grants } t

theorem stepFiveFrame_advance (s : State) : StepFiveFrame s (advance s) := by
  obtain ⟨_, _, _, _, _, _, _, _, _, heq⟩ := advance_eq s
  rw [StepFiveFrame, heq]

theorem stepFiveFrame_closeCycle (h : closeCycle s = .next t) : StepFiveFrame s t := by
  rcases closeCycle_next_cases h with rfl | rfl | ⟨k, -, rfl⟩
  · rfl
  · exact stepFiveFrame_advance { s with grant := none }
  · rfl

theorem stepFiveFrame_poweredTick (h : poweredTick s = .next t) :
    StepFiveFrame (processorUnit (video s)) t := by
  rcases unitAndAdvance_next_cases h with ⟨-, rfl⟩ | hclose
  · exact stepFiveFrame_advance _
  · exact stepFiveFrame_closeCycle hclose

/-- The processor-rate unit writes the credits, the grant, the script and the record of grants. -/
theorem processorUnit_frame (s : State) : processorUnit s = { s with
    stall := (processorUnit s).stall, grant := (processorUnit s).grant, proc := (processorUnit s).proc,
    grants := (processorUnit s).grants } := by
  rcases processorUnit_cases s with heq | ⟨-, heq⟩ | ⟨-, -, heq⟩
  · rw [heq]
  · rw [heq]
  · rw [heq]
    rfl

theorem unitFrame_poweredTick (h : poweredTick s = .next t) : UnitFrame (video s) t := by
  have hframe := stepFiveFrame_poweredTick h
  rw [processorUnit_frame] at hframe
  rw [UnitFrame, StepFiveFrame, hframe]

/-- A powered tick completes. -/
theorem exists_poweredTick (h : TickReady s) : ∃ t, exec .tick s = .next t ∧ poweredTick s = .next t := by
  obtain ⟨hready, hp⟩ := h
  obtain ⟨t, ht⟩ := exec_next s .tick hready.1
  exact ⟨t, ht, by rwa [exec_tick hready hp] at ht⟩

/-- Settles O35: the tick's effect, unpowered, is the state as it was. -/
theorem unpoweredTickChangesNothing : Obligations.UnpoweredTickChangesNothing := by
  intro s h hp
  rw [exec_of_hostReady h rfl, effect, hp, if_neg Bool.false_ne_true]

/-- Settles O45: steps 1 to 3 write none of these fields, and steps 4 and 5 neither. -/
theorem tickLeavesTheRestUnchanged : Obligations.TickLeavesTheRestUnchanged := by
  intro s h
  obtain ⟨t, ht, htick⟩ := exists_poweredTick h
  have hframe := unitFrame_poweredTick htick
  rw [video_frame] at hframe
  refine ⟨t, ht, (sameMemory_poweredTick htick).busRead_eq, ?_⟩
  rw [hframe]
  exact ⟨rfl, rfl, rfl, rfl, rfl, rfl, rfl, h.2, rfl, rfl, rfl, rfl, rfl, rfl, rfl⟩

/-- Settles O36: the flags are those of steps 1 and 3, which steps 4 and 5 leave. -/
theorem tickSetsFetchingAndInterruptLine : Obligations.TickSetsFetchingAndInterruptLine := by
  intro s h
  obtain ⟨t, ht, htick⟩ := exists_poweredTick h
  have hframe := unitFrame_poweredTick htick
  rw [video_frame] at hframe
  refine ⟨t, ht, ?_, ?_⟩ <;> rw [hframe]
  · exact fetchWindow_iff s.cfg s.V s.C
  · exact inPulse_iff s.cfg s.V s.C

/-! ### Rendering (R150 to R154) -/

/-- A blank tick renders nothing. -/
theorem video_blank (h : s.cfg.visible s.V s.C = false) : video s =
    { s with fetching := s.cfg.fetchWindow s.V s.C, intLine := s.cfg.inPulse s.V s.C } := by
  simp [video, render, h, setFetching, setIntLine]

/-- A border tick samples the border and puts the sample into its pixel. -/
theorem video_border {y : Nat} (hvis : s.cfg.visible s.V s.C = true)
    (hw : s.cfg.fetchWindow s.V s.C = false) (hy : s.cfg.row s.V = some y) : video s = { s with
      fetching := false, intLine := s.cfg.inPulse s.V s.C,
      borderLatch := if s.C % 8 = 0 then s.border else s.borderLatch,
      pixbuf := Cells.write s.pixbuf (y * s.cfg.rasterWidth + s.C)
        (paletteIndex false (if s.C % 8 = 0 then s.border else s.borderLatch)) } := by
  simp [video, render, renderBorder, drawBorder, putPixel_eq, sampleBorder_eq, hvis, hw, hy, setFetching,
    setIntLine]

/-- A bitmap tick fetches the cell at its first pixel and puts the cell's pixel into its own. -/
theorem video_bitmap {y : Nat} (hw : s.cfg.fetchWindow s.V s.C = true) (hy : s.cfg.row s.V = some y) :
    video s = { fetchCell s with
      fetching := true, intLine := s.cfg.inPulse s.V s.C,
      pixbuf := Cells.write s.pixbuf (y * s.cfg.rasterWidth + s.C)
        (cellPixel (fetchCell s).bitmapLatch (fetchCell s).attrLatch s.flash
          ((s.C - s.cfg.leftBorder) % 8)) } := by
  simp [video, render, renderBitmap, drawBitmap, putPixel_eq, fetchCell_eq, visible_of_fetchWindow hw, hw, hy,
    setFetching, setIntLine]

theorem row_of_fetchWindow {p : Config} {v c : Nat} (h : p.fetchWindow v c = true) :
    p.row v = some (p.topBorder + v) := by
  obtain ⟨hv, -⟩ := (fetchWindow_iff p v c).1 h
  simp [Config.row, Config.vSegment, hv]

/-- Settles O42: steps 1 to 3 of a blank tick write the two flags alone, and steps 4 and 5 no pixel. -/
theorem blankTickRendersNothing : Obligations.BlankTickRendersNothing := by
  intro s h hvis
  obtain ⟨t, ht, htick⟩ := exists_poweredTick h
  have hframe := unitFrame_poweredTick htick
  rw [video_blank hvis] at hframe
  refine ⟨t, ht, ?_⟩
  rw [hframe]
  exact ⟨rfl, rfl, rfl, rfl⟩

/-- Settles O39: the border's pixel is the one write of steps 1 to 3. -/
theorem borderTickRendersSampledBorder : Obligations.BorderTickRendersSampledBorder := by
  intro s h hvis hw
  obtain ⟨t, ht, htick⟩ := exists_poweredTick h
  obtain ⟨y, hy⟩ := Option.isSome_iff_exists.1 ((visible_iff _ _ _).1 hvis).1
  have hframe := unitFrame_poweredTick htick
  rw [video_border hvis hw hy] at hframe
  refine ⟨t, y, ht, hy, ?_⟩
  rw [hframe]
  exact ⟨rfl, rfl, rfl, fun k => Cells.read_write ..⟩

/-- Settles O40: the cell's pixel is the one write of steps 1 to 3, its colour by `cellPixel_eq`. -/
theorem bitmapTickFetchesAndRendersCell : Obligations.BitmapTickFetchesAndRendersCell := by
  intro s h hw
  obtain ⟨t, ht, htick⟩ := exists_poweredTick h
  have hframe := unitFrame_poweredTick htick
  rw [video_bitmap hw (row_of_fetchWindow hw), cellPixel_eq, fetchCell_eq] at hframe
  refine ⟨t, ht, ?_⟩
  rw [hframe]
  exact ⟨rfl, rfl, rfl, fun k => Cells.read_write ..⟩

/-! ### The processor-rate unit (R146 to R149) -/

section
variable (s : State)

/-- A pending credit is consumed, in one mode at a processor-rate unit only. -/
theorem processorUnit_credit (hstall : 0 < s.stall)
    (hunit : s.cfg.contentionMode = .perTick ∨ s.C % 2 = 0) :
    processorUnit s = { s with stall := s.stall - 1 } := by
  unfold processorUnit
  split
  · next hmode =>
    have hC : s.C % 2 = 0 := hunit.resolve_left (by simp [hmode])
    simp [Config.processorUnit, hC, hstall]
  · rw [if_pos hstall]

/-- At a processor-rate unit with no credit pending, either mode grants a cycle. -/
theorem processorUnit_granted (hstall : s.stall = 0) (hC : s.C % 2 = 0) :
    processorUnit s = grantCycle s := by
  unfold processorUnit
  split <;> simp [Config.processorUnit, hC, hstall]

/-- At an odd position nothing is granted, and in one mode nothing consumed. -/
theorem processorUnit_odd (hC : s.C % 2 = 1)
    (hcredit : s.cfg.contentionMode = .perProcessorUnit ∨ s.stall = 0) : processorUnit s = s := by
  unfold processorUnit
  split
  · simp [Config.processorUnit, hC]
  · next hmode =>
    have hstall : s.stall = 0 := hcredit.resolve_left (by simp [hmode])
    simp [Config.processorUnit, hC, hstall]

end

section
variable (h : poweredTick s = .next t)
include h

theorem poweredTick_credit (hstall : 0 < s.stall)
    (hunit : s.cfg.contentionMode = .perTick ∨ s.C % 2 = 0) :
    t.stall = s.stall - 1 ∧ t.grants = s.grants ∧ t.proc = s.proc := by
  have hframe := stepFiveFrame_poweredTick h
  rw [processorUnit_credit (video s) (by simpa) (by simpa)] at hframe
  rw [hframe]
  simp

theorem poweredTick_granted (hstall : s.stall = 0) (hC : s.C % 2 = 0) :
    t.stall = 0 ∧ t.grants = s.grants ++ [t.intLine] ∧ t.proc = s.proc.tail := by
  have hframe := stepFiveFrame_poweredTick h
  rw [processorUnit_granted (video s) (by simpa) (by simpa)] at hframe
  rw [hframe]
  simp [hstall]

theorem poweredTick_odd (hC : s.C % 2 = 1)
    (hcredit : s.cfg.contentionMode = .perProcessorUnit ∨ s.stall = 0) :
    t.stall = s.stall ∧ t.grants = s.grants ∧ t.proc = s.proc := by
  have hframe := stepFiveFrame_poweredTick h
  rw [processorUnit_odd (video s) (by simpa) (by simpa)] at hframe
  rw [hframe]
  simp

end

/-- Settles O43: a credit, a grant, or neither, as the mode and the parity say. -/
theorem tickConsumesCreditOrGrantsCycle : Obligations.TickConsumesCreditOrGrantsCycle := by
  intro s h
  obtain ⟨t, ht, htick⟩ := exists_poweredTick h
  refine ⟨t, ht, fun hmode => ⟨fun hC hstall => ?_, fun hC hstall => ?_, fun hC => ?_⟩,
    fun hmode => ⟨fun hstall => ?_, fun hstall hC => ?_, fun hstall hC => ?_⟩⟩
  · exact poweredTick_credit htick hstall (.inr hC)
  · exact poweredTick_granted htick hstall hC
  · exact poweredTick_odd htick hC (.inl hmode)
  · exact poweredTick_credit htick hstall (.inl hmode)
  · exact poweredTick_granted htick hstall hC
  · rw [← hstall]
    exact poweredTick_odd htick hC (.inr hstall)

/-- A granted cycle begins, and is closed at once if it issues no access. -/
theorem poweredTick_eq_closeCycle (hstall : s.stall = 0) (hC : s.C % 2 = 0) :
    poweredTick s = closeCycle (grantCycle (video s)) := by
  have hunit : processorUnit (video s) = grantCycle (video s) :=
    processorUnit_granted (video s) (by simpa) (by simpa)
  simp [poweredTick, unitAndAdvance, hunit]

/-- Settles O44: the granted cycle is left open or refused, by the cases of `closeCycle`. -/
theorem grantedCycleWaitsOrIsRefused : Obligations.GrantedCycleWaitsOrIsRefused := by
  intro s ⟨hready, hp⟩ hstall hC
  have hexec : exec .tick s = closeCycle (grantCycle (video s)) :=
    (exec_tick hready hp).trans (poweredTick_eq_closeCycle hstall hC)
  rw [hexec, video_frame]
  constructor
  · intro w ws k hhead
    exact ⟨_, closeCycle_open _ (congrArg some hhead), hready.1, congrArg some hhead, rfl,
      rfl, rfl, rfl, rfl, rfl, rfl, rfl, rfl, rfl, rfl⟩
  · intro k hk hhead
    exact ⟨_, closeCycle_count _ hk hready.1 (congrArg some hhead), rfl,
      rfl, rfl, rfl, rfl, rfl, rfl, rfl, rfl, rfl, rfl⟩

/-! ### Ticks that end with step 5 -/

/-- `t` is `s` but for what steps 1 to 4 of a tick write. -/
abbrev StepOneToFourFrame (s t : State) : Prop :=
  t = { s with
    pixbuf := t.pixbuf, borderLatch := t.borderLatch, bitmapLatch := t.bitmapLatch,
    attrLatch := t.attrLatch, fetching := t.fetching, intLine := t.intLine, stall := t.stall,
    proc := t.proc, grants := t.grants, grant := t.grant }

theorem stepOneToFourFrame_processorUnit (s : State) : StepOneToFourFrame s (processorUnit (video s)) := by
  rw [StepOneToFourFrame, processorUnit_frame, video_frame]

/-- A tick that grants no cycle or an idle one grants an idle one if it grants any. -/
theorem idle_of_noGrantOrIdleCycle (hn : NoGrantOrIdleCycle s) (hstall : s.stall = 0) (hC : s.C % 2 = 0) :
    s.proc.headD ProcCycle.idle = ⟨[], 1⟩ := by
  rcases hn with hcredit | hodd | hhead
  · omega
  · omega
  · exact hhead

/-- A powered tick that grants no cycle or an idle one ends with step 5, outside any cycle. -/
theorem exec_tick_advances (h : TickReady s) (hn : NoGrantOrIdleCycle s) :
    ∃ u, exec .tick s = .next (advance u) ∧ StepOneToFourFrame s u ∧ u.grant = none := by
  have ⟨hready, hp⟩ := h
  have ⟨hf, _, hg⟩ := hready
  rw [exec_tick hready hp]
  rcases unitAndAdvance_cases (video s) (by simpa) (by simpa) with
    ⟨hgrant, heq⟩ | ⟨hstall, hunit, hcases⟩
  · exact ⟨_, heq, stepOneToFourFrame_processorUnit s, hgrant⟩
  · rw [video_stall] at hstall
    rw [video_C] at hunit
    rw [video_proc, idle_of_noGrantOrIdleCycle hn hstall (of_decide_eq_true hunit)] at hcases
    rcases hcases with ⟨-, heq⟩ | ⟨⟨w, ws, k, hopen⟩, -⟩ | ⟨k, hk, hcount, -⟩
    · exact ⟨_, heq, by rw [StepOneToFourFrame, video_frame]; rfl, rfl⟩
    · cases hopen
    · cases hcount
      exact absurd rfl hk

/-- Settles O37: the advance of the counters, and a tick that ends with step 5 advances a state with the
same counters. -/
theorem tickAdvancesTheRaster : Obligations.TickAdvancesTheRaster := by
  intro s hr
  obtain ⟨hC, hV⟩ := advance_counters s
  refine ⟨⟨hC, hV, rasterOk_advance hr, position_advance hr⟩, fun h hn => ?_⟩
  obtain ⟨u, hexec, hu, hgrant⟩ := exec_tick_advances h hn
  obtain ⟨hC', hV'⟩ := advance_counters u
  obtain ⟨_, _, _, _, _, _, _, _, _, heq⟩ := advance_eq u
  refine ⟨_, hexec, ?_, ?_, ?_, ?_⟩
  · rw [heq, hu]
    exact h.1.1
  · rw [heq]
    exact hgrant
  · rw [hC', hC, hu]
  · rw [hV', hV, hu]

/-- Settles O38: step 5 by its cases, of a state that has the fields it reads as `s` has them. -/
theorem tickCountsFramesAndEndsAudioFrame : Obligations.TickCountsFramesAndEndsAudioFrame := by
  intro s t hr h
  obtain ⟨u, hu, rfl⟩ : ∃ u, StepOneToFourFrame s u ∧ t = advance u := by
    rcases h with rfl | ⟨hready, hn, hexec⟩
    · exact ⟨s, rfl, rfl⟩
    · obtain ⟨u, hexec', hu, -⟩ := exec_tick_advances hready hn
      rw [hexec'] at hexec
      cases hexec
      exact ⟨u, hu, rfl⟩
  constructor
  · rintro ⟨hC, hV⟩
    rw [advance_frame_end u (by rwa [hu]) (by rwa [hu]), endFrame_eq, countFrame_eq, hu]
    refine ⟨fun hF => ?_, fun hF => ?_, rfl, rfl, rfl, rfl⟩
    · simp [hF]
    · have hlt : s.F.val + 1 < 16 := by omega
      simp [hF, Fin.val_add, Nat.mod_eq_of_lt hlt]
  · intro hend
    obtain ⟨c, v, heq⟩ := advance_not_frame_end (s := u) (by rwa [hu])
    rw [heq, hu]
    exact ⟨rfl, rfl, rfl, rfl, rfl, rfl⟩

/-! ### Credits and grants, over every transaction (R144, R165) -/

/-- A powered tick leaves the credits or consumes one. -/
theorem stall_poweredTick (h : poweredTick s = .next t) : t.stall = s.stall ∨ t.stall + 1 = s.stall := by
  have hframe := stepFiveFrame_poweredTick h
  rcases processorUnit_cases (video s) with heq | ⟨hpos, heq⟩ | ⟨-, -, heq⟩ <;> rw [heq] at hframe <;>
    rw [hframe]
  · exact .inl (video_stall s)
  · rw [video_stall] at hpos ⊢
    exact .inr (Nat.sub_add_cancel hpos)
  · exact .inl (video_stall s)

/-- A powered tick grants no cycle, or one, at a processor-rate unit with no credit pending. -/
theorem grants_poweredTick (h : poweredTick s = .next t) : t.grants = s.grants ∨
    (∃ level, t.grants = s.grants ++ [level]) ∧ s.stall = 0 ∧ s.C % 2 = 0 := by
  have hframe := stepFiveFrame_poweredTick h
  rcases processorUnit_cases (video s) with heq | ⟨-, heq⟩ | ⟨hstall, hunit, heq⟩ <;>
    rw [heq] at hframe <;> rw [hframe]
  · exact .inl (video_grants s)
  · exact .inl (video_grants s)
  · rw [video_stall] at hstall
    rw [video_C] at hunit
    exact .inr ⟨⟨_, by rw [grantCycle_grants, video_grants]⟩, hstall, of_decide_eq_true hunit⟩

/-- A VRAM access adds six credits while `fetching` (R144). -/
theorem stall_contend_vramAddr (s : State) (o : BitVec 14) : (contend (vramAddr o) s).stall = s.stall ∨
    s.fetching = true ∧ (contend (vramAddr o) s).stall = s.stall + 6 := by
  rw [contend_vramAddr]
  cases s.fetching <;> simp

theorem stall_busWrite (s : State) (a : Addr) (v : Byte) : (busWrite s a v).stall = s.stall := by
  obtain ⟨vram, ram, heq⟩ := busWrite_eq s a v
  rw [heq]

/-- Settles O13, by the effects: of the transactions only a VRAM access, TICK and PWRON write the credits. -/
theorem stallWrittenOnlyByContentionTickAndPowerOn :
    Obligations.StallWrittenOnlyByContentionTickAndPowerOn := by
  intro i s t hexec hf
  obtain ⟨-, h⟩ := exec_next_of_fault_none hexec hf
  cases i with
  | tick =>
    simp only [effect] at h
    split at h
    · rcases stall_poweredTick h with hsame | hless
      · exact .inl hsame
      · exact .inr (.inl ⟨rfl, hless⟩)
    · cases h
      exact .inl rfl
  | pwron =>
    cases h
    exact .inr (.inr (.inl ⟨rfl, rfl⟩))
  | mrdVram o =>
    cases h
    rcases stall_contend_vramAddr s o with hsame | ⟨hfetching, hsix⟩
    · exact .inl hsame
    · exact .inr (.inr (.inr ⟨hfetching, hsix, o, .inl rfl⟩))
  | mwrVram o v =>
    cases h
    rw [processorWrite, stall_busWrite]
    rcases stall_contend_vramAddr s o with hsame | ⟨hfetching, hsix⟩
    · exact .inl hsame
    · exact .inr (.inr (.inr ⟨hfetching, hsix, o, .inr ⟨v, rfl⟩⟩))
  | mrdRom o | mrdRam o =>
    cases h
    simp [processorRead]
  | mwrRom o v | mwrRam o v =>
    cases h
    simp [processorWrite]
  | poke a v =>
    cases h
    exact .inl (stall_busWrite s a v)
  | loadMemVram o v | loadMemRam o v =>
    rw [effect] at h
    cases body_of_whenPowered h hf
    exact .inl (stall_busWrite s _ v)
  | loadRom o v =>
    rw [effect_loadRom] at h
    simp [fault_of_raise h] at hf
  | iowrUla p v =>
    rcases ulaWrite_cases s v with ⟨e, -, heq⟩ | ⟨-, -, heq⟩ <;> simp only [effect, heq] at h
    · simp [fault_of_raise h] at hf
    · cases h
      exact .inl rfl
  | audlvl lvl ts =>
    simp only [effect, audioLevelChange] at h
    split at h
    · simp [fault_of_raise h] at hf
    · cases h
      exact .inl rfl
  | keydn | keyup =>
    simp only [effect] at h
    split at h <;> cases h <;> exact .inl rfl
  | pwroff =>
    cases h
    obtain ⟨log, tk, heq⟩ := powerOff_eq s
    rw [heq]
    exact .inl rfl
  | iordUla | iordOther | iowrOther | peek | setborder | audend =>
    cases h
    exact .inl rfl

theorem grants_closeCycle (h : closeCycle s = .next t) : t.grants = s.grants := by
  rw [stepFiveFrame_closeCycle h]

/-- Of the transactions only a powered TICK between ticks can grant a cycle. -/
theorem Ran.grants {i : Instr} (h : Ran s i t) : t.grants = s.grants ∨
    (∃ level, t.grants = s.grants ++ [level]) ∧ s.grant = none ∧ s.powered = true ∧ s.stall = 0 ∧
      s.C % 2 = 0 := by
  cases h with
  | raised e _ h =>
    obtain ⟨u, es, heq, -, -, -, -, hgrants, -⟩ := raise_spec s e
    obtain rfl : u = t := by simpa [heq] using h
    exact .inl hgrants
  | stored a v stall =>
    obtain ⟨vram, ram, heq⟩ := busWrite_eq { s with stall := stall } a v
    rw [heq]
    exact .inl rfl
  | poweredOff =>
    obtain ⟨log, tk, heq⟩ := powerOff_eq s
    rw [heq]
    exact .inl rfl
  | ticked hg hp h =>
    rcases grants_poweredTick h with hsame | ⟨hone, hstall, hC⟩
    · exact .inl hsame
    · exact .inr ⟨hone, hg, hp, hstall, hC⟩
  | refused | answered | portWritten | borderSet | keyDown | keyUp | poweredOn | levelChanged
  | frameEnded => exact .inl rfl

/-- Settles O48: taking a word and closing a cycle leave the record, so the step's transaction decides. -/
theorem processorNeverRunsAhead : Obligations.ProcessorNeverRunsAhead := by
  intro s t h
  obtain ⟨-, ⟨w, u, hw, ⟨i, v, hv, hclose⟩ | rfl⟩ | hclose⟩ := step_next_cases h
  · rw [grants_closeCycle hclose]
    have hran := (ran_of_exec hv).grants
    rcases fetch_cases s u hw with ⟨ws, k, -, rfl⟩ | ⟨-, r, rs, -, -, rfl⟩
    · exact hran.imp_right fun ⟨_, hg, _⟩ => nomatch hg
    · exact hran
  · rcases fetch_cases s u hw with ⟨ws, k, -, rfl⟩ | ⟨-, r, rs, -, -, rfl⟩ <;> exact .inl rfl
  · exact .inl (grants_closeCycle hclose)

end Sys2Proof.Machine
end

section
/-!
PROOFS. The family of the ports (43_ula_ports.md): the keyboard byte, the key events, the border's two
writers, and the border events of every transaction.
-/

namespace Sys2Proof.Machine

variable {s t : State}

/-! ### The keyboard byte (R185, R187) -/

section
variable (pressed : List Nat) (p : Addr)

/-- With `EAR_IN = 1` only a column's bit can keep the keyboard byte from being all ones. -/
theorem keyboardByte_eq_allOnes_iff : keyboardByte pressed p true = 0xFF#8 ↔
    ∀ c < 5, (keyboardByte pressed p true).getLsbD c = true := by
  have hones {i : Nat} (hi : i < 8) : (0xFF#8).getLsbD i = true := by interval_cases i <;> rfl
  refine ⟨fun h c hc => ?_, fun h => BitVec.eq_of_getLsbD_eq fun i hi => ?_⟩
  · rw [h, hones (by omega)]
  · obtain ⟨h7, h5, h6⟩ := getLsbD_keyboardByte_high pressed p true
    rw [hones hi]
    rcases (by omega : i < 5 ∨ i = 5 ∨ i = 6 ∨ i = 7) with hlow | rfl | rfl | rfl
    · exact h i hlow
    · exact h5
    · exact h6
    · exact h7

/-- A column's bit is set exactly when no selected half-row has its key pressed (30_encoding.md R92). -/
theorem keyboardByte_column_set_iff (e : Bool) {c : Nat} (hc : c < 5) :
    (keyboardByte pressed p e).getLsbD c = true ↔
      ∀ r < 8, p.getLsbD (8 + r) = false → 5 * r + c ∉ pressed := by
  rw [← Bool.not_eq_false, keyboardByte_column_clear_iff pressed p e hc]
  simp

/-- The keyboard byte is its three high bits over the five key bits. -/
theorem keyboardByte_eq_or (e : Bool) : keyboardByte pressed p e =
    (if e then 0xE0#8 else 0xA0#8) ||| (keyBits pressed (halfRowSelect p)).setWidth 8 := by
  cases e <;> rfl

end

/-- Settles O22: the byte is all ones when every column's bit is set, and a bit is set when its column has
no key pressed. -/
theorem keyboardByteIsAllOnesWithoutKeys : Obligations.KeyboardByteIsAllOnesWithoutKeys := by
  refine fun pressed p => ⟨?_, keyboardByte_eq_or pressed p true, keyboardByte_eq_or pressed p false⟩
  rw [keyboardByte_eq_allOnes_iff]
  constructor
  · exact fun h r hr c hc => (keyboardByte_column_set_iff pressed p true hc).1 (h c hc) r hr
  · exact fun h c hc => (keyboardByte_column_set_iff pressed p true hc).2 fun r hr => h r hr c hc

/-! ### Key events (R190, R191) -/

theorem removeKey_of_notMem {k : Nat} {ks : List Nat} (hk : k ∉ ks) : removeKey k ks = ks := by
  refine List.filter_eq_self.2 fun j hj => decide_eq_true ?_
  rintro rfl
  exact hk hj

section
variable {k : BitVec 6}

theorem exec_keydn (h : HostReady s) (hk : k.toNat < 40) :
    exec (.keydn k) s = .next { s with pressed := insertKey k.toNat s.pressed } := by
  rw [exec_of_hostReady h rfl, effect, keyCount, if_pos hk]

theorem exec_keyup (h : HostReady s) (hk : k.toNat < 40) :
    exec (.keyup k) s = .next { s with pressed := removeKey k.toNat s.pressed } := by
  rw [exec_of_hostReady h rfl, effect, keyCount, if_pos hk]

end

/-- Settles O26, by the set laws of insertion and removal. -/
theorem keyEventsInsertAndRemove : Obligations.KeyEventsInsertAndRemove := by
  refine fun s k h => ⟨fun hk => ⟨?_, ?_, fun hwf hmem => ?_, fun hmem => ?_⟩, fun hk => ⟨?_, ?_⟩⟩
  · exact ⟨_, exec_keydn h hk, fun j => mem_insertKey⟩
  · exact ⟨_, exec_keyup h hk, fun j => mem_removeKey⟩
  · rw [exec_keydn h hk, insertKey_of_mem hwf hmem]
  · rw [exec_keyup h hk, removeKey_of_notMem hmem]
  · rw [exec_of_hostReady h rfl, effect, keyCount, if_neg (Nat.not_lt.2 hk), refuse]
  · rw [exec_of_hostReady h rfl, effect, keyCount, if_neg (Nat.not_lt.2 hk), refuse]

/-! ### The two writers of the border (R181, R189) -/

/-- A claimed port write whose forward is in order has all of its effect. -/
theorem ulaWrite_ok {v : Byte} (hle : s.audLastTs ≤ frameCycle s) (hlt : frameCycle s < s.cfg.frameCycles) :
    ulaWrite v s = .next (audioFill (speakerField v) (frameCycle s)
      (emit (.borderChanged (borderField v))
        { s with border := borderField v, micLevel := micField v, speakerLevel := speakerField v })) := by
  rw [ulaWrite, (audioError_none_iff s _).2 ⟨hle, hlt⟩]

/-- A claimed port write whose forward fails takes the fault and nothing else. -/
theorem ulaWrite_error {v : Byte} {e : Error} (he : audioError (frameCycle s) s = some e) :
    ulaWrite v s = raise e s := by
  rw [ulaWrite, he]

/-- Settles O24, by the checks of the forward at the frame-relative cycle count. -/
theorem claimedPortWriteSetsBorderMicSpeaker : Obligations.ClaimedPortWriteSetsBorderMicSpeaker := by
  intro s p v h
  rw [exec_of_processorReady h rfl, effect]
  refine ⟨fun hle hlt => ulaWrite_ok hle hlt, fun hlt => ?_, fun hle hge => ?_⟩
  · rw [ulaWrite_error (audioError_decreasing s hlt)]
    exact ⟨_, rfl, rfl⟩
  · rw [ulaWrite_error (audioError_range s hle hge)]
    exact ⟨_, rfl, rfl⟩

/-- Settles O27: the effect of the transaction is the colour with its event. -/
theorem setBorderSetsColourAndEmits : Obligations.SetBorderSetsColourAndEmits :=
  fun _ _ h => exec_of_hostReady h rfl

/-! ### Border events, over every transaction (R182) -/

/-- From `s` to `t` the output history grows by no border event. -/
def NoBorderEvent (s t : State) : Prop := ∃ es, t.out = s.out ++ es ∧ borderEvents es = []

theorem NoBorderEvent.of_out_eq (h : t.out = s.out) : NoBorderEvent s t :=
  ⟨[], by rw [h, List.append_nil], rfl⟩

theorem noBorderEvent_endFrame (s : State) : NoBorderEvent s (endFrame s) := ⟨_, rfl, rfl⟩

/-- Step 5 ends the audio frame at the frame's end and gives no event elsewhere. -/
theorem noBorderEvent_advance (s : State) : NoBorderEvent s (advance s) := by
  by_cases hend : s.C + 1 = s.cfg.hTotal ∧ s.V + 1 = s.cfg.vTotal
  · rw [advance_frame_end s hend.1 hend.2, countFrame_eq]
    exact noBorderEvent_endFrame _
  · obtain ⟨c, v, heq⟩ := advance_not_frame_end hend
    rw [heq]
    exact .of_out_eq rfl

theorem noBorderEvent_closeCycle (h : closeCycle s = .next t) : NoBorderEvent s t := by
  rcases closeCycle_next_cases h with rfl | rfl | ⟨k, -, rfl⟩
  · exact .of_out_eq rfl
  · exact noBorderEvent_advance { s with grant := none }
  · exact .of_out_eq rfl

/-- Steps 1 to 4 give no event, and step 5 or the end of the cycle no border event. -/
theorem noBorderEvent_poweredTick (h : poweredTick s = .next t) : NoBorderEvent s t := by
  have hout : (processorUnit (video s)).out = s.out := by rw [processorUnit_frame, video_frame]
  rw [NoBorderEvent, ← hout]
  rcases unitAndAdvance_next_cases h with ⟨-, rfl⟩ | hclose
  · exact noBorderEvent_advance _
  · exact noBorderEvent_closeCycle hclose

/-- Of the transactions only the claimed port write and SETBORDER give a border event. -/
theorem Ran.noBorderEvent {i : Instr} (h : Ran s i t) (hf : t.fault = none)
    (hi : writesBorder i = false) : NoBorderEvent s t := by
  cases h with
  | raised _ _ h => simp [fault_of_raise h] at hf
  | portWritten | borderSet => cases hi
  | stored a v stall =>
    obtain ⟨vram, ram, heq⟩ := busWrite_eq { s with stall := stall } a v
    rw [heq]
    exact .of_out_eq rfl
  | poweredOff =>
    obtain ⟨log, tk, heq⟩ := powerOff_eq s
    rw [heq]
    exact .of_out_eq rfl
  | ticked _ _ h => exact noBorderEvent_poweredTick h
  | frameEnded => exact noBorderEvent_endFrame s
  | refused | answered | keyDown | keyUp | poweredOn | levelChanged => exact .of_out_eq rfl

/-- A border write that ends without fault gives one event, of the new colour, and writes no pixel. -/
theorem out_of_writesBorder {i : Instr} (hi : writesBorder i = true) (h : effect i s = .next t)
    (hf : t.fault = none) : t.out = s.out ++ [.borderChanged t.border] ∧ t.pixbuf = s.pixbuf := by
  cases i with
  | iowrUla p v =>
    rcases ulaWrite_cases s v with ⟨e, -, heq⟩ | ⟨-, -, heq⟩ <;> rw [effect, heq] at h
    · simp [fault_of_raise h] at hf
    · cases h
      exact ⟨rfl, rfl⟩
  | setborder c =>
    cases h
    exact ⟨rfl, rfl⟩
  | _ => cases hi

/-- Settles O28: a border write gives its one event, and every other transaction runs in a case of `Ran`
that gives none. -/
theorem borderEventAtEveryBorderWrite : Obligations.BorderEventAtEveryBorderWrite := by
  intro i s t hexec hf
  cases hi : writesBorder i with
  | true =>
    obtain ⟨-, heff⟩ := exec_next_of_fault_none hexec hf
    obtain ⟨hout, hpix⟩ := out_of_writesBorder hi heff hf
    exact ⟨_, hout, fun _ => ⟨rfl, hpix⟩, nofun⟩
  | false =>
    obtain ⟨es, hout, hes⟩ := (ran_of_exec hexec).noBorderEvent hf hi
    exact ⟨es, hout, nofun, fun _ => hes⟩

end Sys2Proof.Machine
end

section
/-!
PROOFS. The family of the audio (44_audio.md): the sample index, the two calls of a harness, what a frame of
level changes delivers, and that the controller's own timestamps never decrease.
-/

namespace Sys2Proof.Machine

variable {s t u : State}

/-! ### The sample index (R200) -/

/-- Settles O53: `SampleIndex` is the quotient of a division by a positive clock. -/
theorem sampleIndexIsExactFloor : Obligations.SampleIndexIsExactFloor :=
  fun cfg hclock => ⟨fun _ => ⟨Nat.div_mul_le_self _ _, Nat.lt_mul_of_div_lt (Nat.lt_succ_self _) hclock⟩,
    fun _ _ h => sampleIndex_mono cfg h⟩

/-! ### The two calls of a harness (R204, R205) -/

theorem exec_of_audioReady {i : Instr} (h : AudioReady s) (hi : turnOf i = audioTurn) :
    exec i s = effect i s := by
  obtain ⟨hf, hturn⟩ := h
  exact exec_turn hf (by rw [hi]; exact (audioTurn_iff s).2 hturn)

theorem exec_audlvl_ok (h : AudioReady s) {level : Bool} {ts : BitVec 24} (hle : s.audLastTs ≤ ts.toNat)
    (hlt : ts.toNat < s.cfg.frameCycles) :
    exec (.audlvl level ts) s = .next (audioFill level ts.toNat s) := by
  rw [exec_of_audioReady h rfl, effect, audioLevelChange_ok s level hle hlt]

/-- Inside the buffer a fill writes exactly the slots of `[lo, hi)`. -/
theorem getElem?_fillSlots_of_lt {bs : List Bool} {k : Nat} (hk : k < bs.length) (lo hi : Nat) (v : Bool) :
    (fillSlots bs lo hi v)[k]? = if lo ≤ k ∧ k < hi then some v else bs[k]? := by
  simp only [getElem?_fillSlots, hk, and_true]

/-- Settles O54: the fill, or the fault of the first check that fails. -/
theorem audioLevelChangeFillsWithPreviousLevel : Obligations.AudioLevelChangeFillsWithPreviousLevel := by
  refine fun s level ts h => ⟨fun hle hlt => ?_, fun hlt => ?_, fun hle hge => ?_⟩
  · refine ⟨_, exec_audlvl_ok h hle hlt, length_fillSlots .., fun k hk => ?_⟩
    rw [length_fillSlots] at hk
    exact getElem?_fillSlots_of_lt hk ..
  · rw [exec_of_audioReady h rfl, effect, audioLevelChange_decreasing s level hlt]
    exact ⟨_, rfl, rfl⟩
  · rw [exec_of_audioReady h rfl, effect, audioLevelChange_range s level hle hge]
    exact ⟨_, rfl, rfl⟩

/-- Settles O55: the effect is the fill up to N with its event. -/
theorem endFrameDeliversTheFilledBuffer : Obligations.EndFrameDeliversTheFilledBuffer := by
  refine fun s h => ⟨_, exec_of_audioReady h rfl, length_fillSlots .., fun k hk => ?_⟩
  rw [length_fillSlots] at hk
  exact getElem?_fillSlots_of_lt hk ..

/-! ### A frame of level changes (R207) -/

section
variable {cfg : Config} {c : Bool × BitVec 24} {changes : List (Bool × BitVec 24)} {carried : Bool} {k : Nat}

/-- Before the first change's slot the carried level holds. -/
theorem levelAtSlot_of_lt (h : ∀ c ∈ changes, k < cfg.sampleIndex c.2.toNat) :
    levelAtSlot cfg changes carried k = carried := by
  have hnone : changes.filter (fun c => cfg.sampleIndex c.2.toNat ≤ k) = [] := by simpa using h
  rw [levelAtSlot, hnone]
  rfl

/-- From a change's slot on, the changes after it find its level carried in. -/
theorem levelAtSlot_cons_of_le (h : cfg.sampleIndex c.2.toNat ≤ k) :
    levelAtSlot cfg (c :: changes) carried k = levelAtSlot cfg changes c.1 k := by
  simp only [levelAtSlot, List.filter_cons, h, decide_true, if_true, List.getLast?_cons]
  cases (changes.filter fun c => cfg.sampleIndex c.2.toNat ≤ k).getLast? <;> rfl

/-- Of changes in order the first one's slot decides between the carried level and the changes after it. -/
theorem levelAtSlot_cons (hsorted : ((c :: changes).map fun c => c.2.toNat).Pairwise (· ≤ ·)) :
    levelAtSlot cfg (c :: changes) carried k =
      if k < cfg.sampleIndex c.2.toNat then carried else levelAtSlot cfg changes c.1 k := by
  split
  · next hlt =>
    obtain ⟨hlater, -⟩ := List.pairwise_cons.1 hsorted
    refine levelAtSlot_of_lt (List.forall_mem_cons.2 ⟨hlt, fun d hd => ?_⟩)
    exact hlt.trans_le (sampleIndex_mono _ (hlater _ (List.mem_map_of_mem hd)))
  · next hge => exact levelAtSlot_cons_of_le (Nat.not_lt.1 hge)

end

theorem runAll_cons_of_next {i : Instr} (is : List Instr) (h : exec i s = .next t) :
    runAll (i :: is) s = runAll is t := by
  rw [runAll, h]

/-- From inside a frame the remaining changes and the frame's end leave the slots before the cursor and
hold the changes' levels from the cursor on. -/
theorem runAll_changes_end (changes : List (Bool × BitVec 24)) (hready : AudioReady s)
    (hcursor : s.audCursor = s.cfg.sampleIndex s.audLastTs) (hlen : s.audBuf.length = s.cfg.sampleCount)
    (hsorted : (s.audLastTs :: changes.map fun c => c.2.toNat).Pairwise (· ≤ ·))
    (hframe : ∀ c ∈ changes, c.2.toNat < s.cfg.frameCycles) :
    ∃ t samples, runAll (changes.map (fun c => .audlvl c.1 c.2) ++ [.audend]) s = some t ∧
      t.out = s.out ++ [.audioFrame samples] ∧ samples.length = s.cfg.sampleCount ∧
      ∀ k < s.cfg.sampleCount, samples[k]? =
        if k < s.audCursor then s.audBuf[k]? else some (levelAtSlot s.cfg changes s.audLevel k) := by
  induction changes generalizing s with
  | nil =>
    refine ⟨endFrame s, _, runAll_cons_of_next [] (exec_of_audioReady hready rfl), rfl,
      (length_fillSlots ..).trans hlen, fun k hk => ?_⟩
    rw [getElem?_fillSlots_of_lt (hlen ▸ hk)]
    by_cases hlt : k < s.audCursor
    · rw [if_neg (by omega), if_pos hlt]
    · rw [if_pos ⟨Nat.not_lt.1 hlt, hk⟩, if_neg hlt]
      rfl
  | cons c changes ih =>
    obtain ⟨hfirst, hrest⟩ := List.pairwise_cons.1 hsorted
    have hle : s.audLastTs ≤ c.2.toNat := hfirst _ (List.mem_cons_self ..)
    have hlt : c.2.toNat < s.cfg.frameCycles := hframe c (List.mem_cons_self ..)
    have hgrow : s.audCursor ≤ s.cfg.sampleIndex c.2.toNat := hcursor ▸ sampleIndex_mono _ hle
    have hcursor' : (audioFill c.1 c.2.toNat s).audCursor = s.cfg.sampleIndex c.2.toNat :=
      max_eq_right hgrow
    obtain ⟨t, samples, hrun, hout, hsamples, hslots⟩ := ih (s := audioFill c.1 c.2.toNat s) hready
      hcursor' ((length_fillSlots ..).trans hlen) hrest fun d hd => hframe d (List.mem_cons_of_mem _ hd)
    refine ⟨t, samples, ?_, hout, hsamples, fun k hk => ?_⟩
    · rw [← hrun]
      exact runAll_cons_of_next _ (exec_audlvl_ok hready hle hlt)
    · have hfill : (audioFill c.1 c.2.toNat s).audBuf[k]? =
          if s.audCursor ≤ k ∧ k < s.cfg.sampleIndex c.2.toNat then some s.audLevel else s.audBuf[k]? :=
        getElem?_fillSlots_of_lt (hlen ▸ hk) ..
      rw [hslots k hk, hcursor', hfill, levelAtSlot_cons hrest]
      by_cases hbefore : k < s.audCursor
      · rw [if_pos (hbefore.trans_le hgrow), if_neg (by omega), if_pos hbefore]
      · rw [if_neg hbefore]
        by_cases hslot : k < s.cfg.sampleIndex c.2.toNat
        · rw [if_pos hslot, if_pos ⟨Nat.not_lt.1 hbefore, hslot⟩, if_pos hslot]
        · rw [if_neg hslot, if_neg hslot]
          rfl

/-- Settles O56: at the frame's start the cursor stands at slot 0. -/
theorem deliveredFrameIsSampleAndHold : Obligations.DeliveredFrameIsSampleAndHold := by
  intro s changes hready hcursor hlast hlen hsorted hframe
  have hindex : s.audCursor = s.cfg.sampleIndex s.audLastTs := by rw [hcursor, hlast, sampleIndex_zero]
  have hsorted' : (s.audLastTs :: changes.map fun c => c.2.toNat).Pairwise (· ≤ ·) :=
    List.pairwise_cons.2 ⟨fun n _ => hlast ▸ Nat.zero_le n, hsorted⟩
  simpa [hcursor] using runAll_changes_end changes hready hindex hlen hsorted' hframe

/-! ### The controller's timestamps (R206) -/

/-- The frame-relative cycle count lies in the frame (42_raster.md R159). -/
theorem frameCycle_lt_frameCycles (hs : Sound s) : frameCycle s < s.cfg.frameCycles := by
  obtain ⟨hvalid, hraster, -⟩ := hs
  obtain ⟨-, -, hlt⟩ := processorUnitsCountTheFrame s hvalid hraster
  exact hlt

/-- Step 5 moves the cycle count on, or ends the synthesizer's frame with the raster's. -/
theorem timestampOk_advance (h : TimestampOk s) : TimestampOk (advance s) := by
  have hgrow {v c : Nat} (hpos : s.cfg.position s.V s.C ≤ s.cfg.position v c) :
      s.audLastTs ≤ s.cfg.position v c / 2 :=
    h.trans (Nat.div_le_div_right hpos)
  by_cases hC : s.C + 1 = s.cfg.hTotal
  · by_cases hV : s.V + 1 = s.cfg.vTotal
    · rw [advance_frame_end s hC hV]
      exact Nat.zero_le _
    · rw [advance_line_end s hC hV]
      refine hgrow ?_
      simp only [Config.position, Nat.succ_mul]
      omega
  · rw [advance_in_line s hC]
    exact hgrow (Nat.le_succ _)

/-- The host alone has transactions waiting, and the last timestamp is not ahead of the cycle count. -/
abbrev OnTime (s : State) : Prop := HostDriven s ∧ TimestampOk s

/-- The state has not taken an audio fault and, unless it is the faulted one, is on time. -/
abbrev KeptTime (s : State) : Prop :=
  (∀ n m, s.fault ≠ some (.audioTsDecreasing n m)) ∧ (∀ n, s.fault ≠ some (.audioTsRange n)) ∧
    (faulted s = false → OnTime s)

/-- The word taken is the processor's or the host's. -/
theorem onTime_of_fetch {w : TransWord} (ht : OnTime s) (h : fetch s = some (w, u)) :
    OnTime u ∧ u.fault = s.fault ∧ u.issuer ≠ .harness := by
  obtain ⟨hpending, htime⟩ := ht
  rcases fetch_cases s u h with ⟨ws, k, -, rfl⟩ | ⟨-, r, rs, hp, -, rfl⟩
  · exact ⟨⟨hpending, htime⟩, rfl, nofun⟩
  · rw [HostDriven, hp, List.forall_mem_cons] at hpending
    obtain ⟨hhost, hrest⟩ := hpending
    exact ⟨⟨hrest, htime⟩, rfl, by simp [hhost]⟩

theorem keptTime_loadNotPowered {a : Addr} (h : raise (.loadNotPowered a) s = .next t) : KeptTime t := by
  simp [KeptTime, fault_of_raise h, faulted_of_raise rfl h]

theorem keptTime_loadRomOverwrite {a : Addr} (h : raise (.loadRomOverwrite a) s = .next t) :
    KeptTime t := by
  simp [KeptTime, fault_of_raise h, faulted_of_raise rfl h]

theorem keptTime_badTransaction (ht : OnTime s) (w : TransWord) : KeptTime (markBad w s) :=
  ⟨nofun, nofun, fun _ => ht⟩

section
variable (ht : OnTime s) (hf : s.fault = none)
include ht hf

theorem keptTime_of_onTime : KeptTime s :=
  ⟨by simp [hf], by simp [hf], fun _ => ht⟩

theorem keptTime_busWrite (a : Addr) (v : Byte) : KeptTime (busWrite s a v) := by
  obtain ⟨vram, ram, heq⟩ := busWrite_eq s a v
  rw [heq]
  exact keptTime_of_onTime ht hf

theorem keptTime_processorRead (a : Addr) : KeptTime (processorRead a s) := by
  rw [processorRead_eq]
  exact keptTime_of_onTime ht hf

theorem keptTime_processorWrite (a : Addr) (v : Byte) : KeptTime (processorWrite a v s) := by
  rw [processorWrite_eq]
  exact keptTime_busWrite (s := { s with stall := (contend a s).stall }) ht hf a v

theorem keptTime_load {a : Addr} {v : Byte}
    (h : whenPowered a s (fun s => .next (busWrite s a v)) = .next t) : KeptTime t := by
  cases hp : s.powered with
  | true =>
    rw [whenPowered_on hp] at h
    cases h
    exact keptTime_busWrite ht hf a v
  | false =>
    rw [whenPowered_off hp] at h
    exact keptTime_loadNotPowered h

theorem keptTime_powerOff : KeptTime (powerOff s) := by
  obtain ⟨log, tk, heq⟩ := powerOff_eq s
  rw [heq]
  exact keptTime_of_onTime ht hf

/-- The forward of a claimed port write passes both checks of R204: the last timestamp is not ahead of the
cycle count, and the cycle count lies in the frame. -/
theorem keptTime_ulaWrite {v : Byte} (hs : Sound s) (h : ulaWrite v s = .next t) : KeptTime t := by
  obtain ⟨hpending, htime⟩ := ht
  rw [ulaWrite_ok htime (frameCycle_lt_frameCycles hs)] at h
  cases h
  exact keptTime_of_onTime ⟨hpending, le_rfl⟩ hf

theorem keptTime_advance : KeptTime (advance s) := by
  obtain ⟨hpending, htime⟩ := ht
  have htime' := timestampOk_advance htime
  obtain ⟨_, _, _, _, _, _, _, _, _, heq⟩ := advance_eq s
  rw [heq] at htime' ⊢
  exact keptTime_of_onTime ⟨hpending, htime'⟩ hf

end

/-- The closing of a cycle advances, marks a refusal, or does nothing. -/
theorem keptTime_closeCycle (hs : KeptTime s) (h : closeCycle s = .next t) : KeptTime t := by
  cases hf : s.fault with
  | some e =>
    rw [closeCycle_fault s hf] at h
    cases h
    exact hs
  | none =>
    obtain ⟨-, -, hkept⟩ := hs
    have ht : OnTime s := hkept (by simp [faulted, hf])
    rcases closeCycle_next_cases h with rfl | rfl | ⟨k, -, rfl⟩
    · exact keptTime_of_onTime ht hf
    · exact keptTime_advance (s := { s with grant := none }) ht hf
    · exact ⟨nofun, nofun, fun _ => ht⟩

section
variable (ht : OnTime s) (hf : s.fault = none)
include ht hf

/-- Steps 1 to 4 of a tick leave the queue, the counters and the timestamp. -/
theorem keptTime_poweredTick (h : poweredTick s = .next t) : KeptTime t := by
  have hunit := stepOneToFourFrame_processorUnit s
  have ht' : OnTime (processorUnit (video s)) := by rw [hunit]; exact ht
  have hf' : (processorUnit (video s)).fault = none := by rw [hunit]; exact hf
  rcases unitAndAdvance_next_cases h with ⟨-, rfl⟩ | hclose
  · exact keptTime_advance ht' hf'
  · exact keptTime_closeCycle (keptTime_of_onTime ht' hf') hclose

/-- A harness's two calls are out of turn, the claimed port write is in time, and of the rest only PWRON and
the end of a frame write the timestamp, to 0. -/
theorem keptTime_effect {i : Instr} (hs : Sound s) (hissuer : s.issuer ≠ .harness)
    (hturn : turnOf i s = true) (h : effect i s = .next t) : KeptTime t := by
  cases i with
  | audlvl | audend => exact absurd ((audioTurn_iff s).1 hturn).1 hissuer
  | iowrUla => exact keptTime_ulaWrite ht hf hs h
  | tick =>
    simp only [effect] at h
    split at h
    · exact keptTime_poweredTick ht hf h
    · cases h
      exact keptTime_of_onTime ht hf
  | mrdRom | mrdVram | mrdRam =>
    cases h
    exact keptTime_processorRead ht hf _
  | mwrRom | mwrVram | mwrRam =>
    cases h
    exact keptTime_processorWrite ht hf _ _
  | poke =>
    cases h
    exact keptTime_busWrite ht hf _ _
  | loadRom =>
    rw [effect_loadRom] at h
    split at h
    · exact keptTime_loadRomOverwrite h
    · exact keptTime_loadNotPowered h
  | loadMemVram | loadMemRam => exact keptTime_load ht hf h
  | keydn | keyup =>
    simp only [effect] at h
    split at h <;> cases h
    · exact keptTime_of_onTime ht hf
    · exact keptTime_badTransaction ht _
  | pwron =>
    cases h
    exact keptTime_of_onTime ⟨ht.1, Nat.zero_le _⟩ hf
  | pwroff =>
    cases h
    exact keptTime_powerOff ht hf
  | iordUla | iordOther | iowrOther | peek | setborder =>
    cases h
    exact keptTime_of_onTime ht hf

theorem keptTime_exec {i : Instr} (hs : Sound s) (hissuer : s.issuer ≠ .harness)
    (h : exec i s = .next t) : KeptTime t := by
  rcases exec_cases i s with ⟨e, -, heq⟩ | ⟨-, -, heq⟩ | ⟨-, hturn, heq⟩ <;> rw [heq] at h
  · exact absurd h (stuck_ne_next t e)
  · cases h
    exact keptTime_badTransaction ht _
  · exact keptTime_effect ht hf hs hissuer hturn h

end

/-- Settles O59: the word taken is no harness's, its transaction keeps the time, and so does the closing of
its cycle. -/
theorem controllerTimestampsNeverDecrease : Obligations.ControllerTimestampsNeverDecrease := by
  intro s t hs hpending htime h
  have ht : OnTime s := ⟨hpending, htime⟩
  obtain ⟨hf, ⟨w, u, hw, hcases⟩ | hclose⟩ := step_next_cases h
  · obtain ⟨hu, hfault, hissuer⟩ := onTime_of_fetch ht hw
    rcases hcases with ⟨i, v, hv, hclose⟩ | rfl
    · have hexec := keptTime_exec hu (hfault.trans hf) (sound_of_fetch hs hw) hissuer hv
      exact keptTime_closeCycle hexec hclose
    · exact keptTime_badTransaction hu w
  · exact keptTime_closeCycle (keptTime_of_onTime ht hf) hclose

end Sys2Proof.Machine
end

section
/-!
PROOFS. The family of the exceptions (60_exceptions.md): nothing runs after a fault or a refusal, and the
checks of construction in their order.
-/

namespace Sys2Proof.Machine

variable {s : State} {u : Setup} {palette : Vector Nat 16} {image : List Byte}

/-! ### After a fault or a refusal (R226, R227) -/

theorem exec_faulted {e : Error} (h : s.fault = some e) (i : Instr) : exec i s = stuck e := by
  rw [exec_eq, transact_faulted s h]

theorem step_faulted {e : Error} (h : s.fault = some e) : step s = stuck e := by
  simp [step, h]

/-- Settles O9: transactions and steps look at the fault field first, and `stuck` is the stop it calls for. -/
theorem noStepAfterFaultOrRefusal : Obligations.NoStepAfterFaultOrRefusal :=
  fun _ _ h => ⟨exec_faulted h, step_faulted h⟩

/-! ### The constraint a failed construction records (R10, R221) -/

theorem firstViolated_eq_none_iff (p : Config) : p.firstViolated = none ↔ p.valid = true := by
  simp [Config.firstViolated, Config.valid]

theorem meets_of_firstViolated {p : Config} {c : Config.Constraint} (h : p.firstViolated = some c) :
    p.meets c = false := by
  simpa using List.find?_some h

/-! ### The checks of construction, one equation each (R224) -/

theorem construct_noPalette (hp : u.palette = none) : construct u = .error .noPalette := by
  simp [construct, checkSetup, hp]

theorem construct_noBus (hp : u.palette = some palette) (hb : u.bus = false) :
    construct u = .error .noBus := by
  simp [construct, checkSetup, hp, hb]

theorem construct_noRom (hp : u.palette = some palette) (hb : u.bus = true) (hr : u.romImage = none) :
    construct u = .error .noRom := by
  simp [construct, checkSetup, hp, hb, hr]

section
variable (hp : u.palette = some palette) (hb : u.bus = true) (hr : u.romImage = some image)
include hp hb hr

theorem construct_romSize (hlen : image.length ≠ Region.rom.size) :
    construct u = .error (.romSize image.length) := by
  simp [construct, checkSetup, hp, hb, hr, hlen]

theorem construct_paramInvalid {c : Config.Constraint} (hlen : image.length = Region.rom.size)
    (hc : u.config.firstViolated = some c) : construct u = .error (.paramInvalid c) := by
  simp [construct, checkSetup, hp, hb, hr, hlen, hc]

theorem construct_ok (hlen : image.length = Region.rom.size) (hc : u.config.firstViolated = none) :
    construct u = .ok (constructed { u.config with palette := palette } image) := by
  simp [construct, checkSetup, hp, hb, hr, hlen, hc]

end

/-! ### The machine construction yields (R251) -/

theorem mayConstruct_constructed (cfg : Config) (image : List Byte) :
    MayConstruct cfg image (constructed cfg image) :=
  ⟨rfl, rfl, rfl, rfl, rfl, rfl, List.length_replicate, rfl, rfl, rfl⟩

theorem wf_rom_constructed (cfg : Config) (image : List Byte) :
    (constructed cfg image).rom.wf image.length = true := by
  rw [← Nat.zero_add image.length]
  exact Cells.wf_ofList image 0

theorem read_rom_constructed (cfg : Config) (image : List Byte) (k : Nat) :
    (constructed cfg image).rom.read k = image.getD k 0#8 :=
  (Cells.read_ofList image 0 k).trans (if_pos (Nat.zero_le k))

/-- Settles O34: each clause is the equation of its check, the earlier checks passed. -/
theorem constructionChecksInOrder : Obligations.ConstructionChecksInOrder := by
  refine fun u => ⟨construct_noPalette, fun hp hb => ?_, fun hp hb hr => ?_, fun image hp hb hr => ?_⟩
  all_goals obtain ⟨palette, hp⟩ := Option.ne_none_iff_exists'.mp hp
  · exact construct_noBus hp hb
  · exact construct_noRom hp hb hr
  refine ⟨construct_romSize hp hb hr, fun hlen hinvalid => ?_, fun hlen hvalid => ?_⟩
  · have hviolated : u.config.firstViolated ≠ none := by
      simp [firstViolated_eq_none_iff, hinvalid]
    obtain ⟨c, hc⟩ := Option.ne_none_iff_exists'.mp hviolated
    exact ⟨c, meets_of_firstViolated hc, construct_paramInvalid hp hb hr hlen hc⟩
  · have hc : u.config.firstViolated = none := (firstViolated_eq_none_iff _).2 hvalid
    exact ⟨_, _, construct_ok hp hb hr hlen hc, mayConstruct_constructed _ image, hp, rfl,
      hlen ▸ wf_rom_constructed _ image, fun k _ => read_rom_constructed _ image k⟩

end Sys2Proof.Machine
end

section
/-!
PROOFS. The family of reset and hazards (70_reset_and_hazards.md): when the host may read the pixel buffer,
what power-on leaves, after construction too, and that the reset state meets the invariant.
-/

namespace Sys2Proof.Machine

variable {s t : State}

/-! ### When the host may read the pixel buffer (R262) -/

theorem betweenFrames_in_cycle (h : s.grant ≠ none) : betweenFrames s = false := by
  simp [betweenFrames, Option.isSome_iff_ne_none.2 h]

theorem betweenFrames_between_ticks (h : s.grant = none) : betweenFrames s = s.frameEnded := by
  simp [betweenFrames, h]

theorem grant_advance (s : State) : (advance s).grant = s.grant := by
  obtain ⟨_, _, _, _, _, _, _, _, _, heq⟩ := advance_eq s
  rw [heq]

/-- Step 5 sets the mark of a frame's end at the frame's last position and clears it elsewhere. -/
theorem frameEnded_advance (s : State) : (advance s).frameEnded = true ↔
    s.C + 1 = s.cfg.hTotal ∧ s.V + 1 = s.cfg.vTotal := by
  by_cases hend : s.C + 1 = s.cfg.hTotal ∧ s.V + 1 = s.cfg.vTotal
  · rw [advance_frame_end s hend.1 hend.2, endFrame_eq, countFrame_eq]
    exact iff_of_true rfl hend
  · obtain ⟨c, v, heq⟩ := advance_not_frame_end hend
    rw [heq]
    exact iff_of_false Bool.false_ne_true hend

/-- Outside any cycle, step 5 opens the window exactly when it wraps the frame. -/
theorem betweenFrames_advance (h : s.grant = none) : betweenFrames (advance s) = true ↔
    s.C + 1 = s.cfg.hTotal ∧ s.V + 1 = s.cfg.vTotal := by
  rw [betweenFrames_between_ticks ((grant_advance s).trans h), frameEnded_advance]

/-- A transaction other than TICK that ends without fault writes neither the mark nor the grant. -/
theorem Ran.betweenFrames_eq {i : Instr} (h : Ran s i t) (hf : t.fault = none) (hi : i ≠ .tick) :
    betweenFrames t = betweenFrames s := by
  cases h with
  | raised _ _ h => simp [fault_of_raise h] at hf
  | stored a v stall =>
    obtain ⟨vram, ram, heq⟩ := busWrite_eq { s with stall := stall } a v
    rw [heq]
    rfl
  | poweredOff =>
    obtain ⟨log, tk, heq⟩ := powerOff_eq s
    rw [heq]
    rfl
  | ticked => exact absurd rfl hi
  | refused | answered | portWritten | borderSet | keyDown | keyUp | poweredOn | levelChanged
  | frameEnded => rfl

/-- Settles O46: step 5 decides the window, a tick that ends with step 5 advances a state at the same
position, and no other transaction writes what the window is read from. -/
theorem pixelBufferReadOnlyBetweenFrames : Obligations.PixelBufferReadOnlyBetweenFrames := by
  refine ⟨fun s hg => betweenFrames_advance hg, fun s t hready hexec hn => ?_,
    fun s hg => betweenFrames_in_cycle hg,
    fun i s t hexec hf hi => (ran_of_exec hexec).betweenFrames_eq hf hi, fun cfg image s hs => ?_⟩
  · obtain ⟨u, hexec', hu, hgrant⟩ := exec_tick_advances hready hn
    rw [hexec'] at hexec
    cases hexec
    obtain ⟨⟨-, -, hg⟩, -⟩ := hready
    rw [Bool.eq_iff_iff, betweenFrames_advance hgrant, betweenFrames_advance hg, hu]
  · obtain ⟨-, -, -, -, -, -, -, hg, hended, -⟩ := hs
    rw [betweenFrames_between_ticks hg, hended]

/-! ### Power-on (R250) -/

/-- Settles O30: the effect of PWRON, which asks nothing of `powered`, is the update R250 lists. -/
theorem powerOnResetsTheController : Obligations.PowerOnResetsTheController := by
  intro s h
  obtain ⟨log, heq⟩ := powerOn_eq s
  exact ⟨log, false, by rw [exec_of_hostReady h rfl, effect, heq]⟩

/-- Settles O33: after construction PWRON's listed fields are reset whatever they were, and the rest is as
construction left it. -/
theorem powerOnAfterConstructionGivesResetValues :
    Obligations.PowerOnAfterConstructionGivesResetValues := by
  rintro cfg image s ⟨⟨-, -, hf, hrom, hpressed, hout, -, hg, -⟩, hissuer⟩
  obtain ⟨log, tk, hexec⟩ := powerOnResetsTheController s ⟨hf, hissuer, hg⟩
  refine ⟨_, hexec, rfl, hf, rfl, rfl, rfl, rfl, rfl, rfl, rfl, rfl, rfl, rfl, rfl, rfl, rfl, rfl, rfl, rfl,
    hpressed, hout, rfl, rfl, rfl, fun k _ => ?_⟩
  rw [hrom]
  exact read_rom_constructed cfg image k

/-! ### The reset state (R252) -/

theorem valid_reference : Config.reference.valid = true := by decide

/-- The reset state stands at the start of a frame of the reference configuration, between ticks, its memory
and pixel buffer listing nothing. -/
theorem sound_reset : Sound State.reset := by
  have hvalid := valid_reference
  have harrays : ArraysOk State.reset :=
    ⟨Cells.wf_nil _, Cells.wf_nil _, Cells.wf_nil _, Cells.wf_nil _⟩
  have haudio : AudioOk State.reset :=
    ⟨List.length_replicate, (sampleIndex_zero _).symm, frameCycles_pos hvalid⟩
  exact ⟨hvalid, ⟨hTotal_pos hvalid, vTotal_pos hvalid⟩, harrays, rfl, haudio, cycleOk_of_between rfl⟩

/-- Settles O57: the reset state is sound, and its fields are read off its definition. -/
theorem resetStateIsSound : Obligations.ResetStateIsSound :=
  ⟨.inr sound_reset, rfl, rfl, rfl, rfl, rfl, rfl, rfl, rfl, rfl, rfl, rfl, rfl, rfl, rfl, rfl, rfl, rfl, rfl,
    rfl, rfl⟩

end Sys2Proof.Machine
end
